-- ==== Sys2Proof/Word.lean ====
section
/-! DEFINITION. The two word types of the core: the 32-bit word of R9 and the binary32 pattern of R12. -/

namespace Sys2Proof

/-- A *word* is 32 bits, bit 0 the least significant (00_scope.md R9). -/
abbrev Word := BitVec 32

/-- A binary32 value, held as its bit pattern: `bits(x)` and `f32(w)` of R11 are the identity
(00_scope.md R11, R12; 20_memory.md R83: sign in bit 31, exponent in [30:23], fraction in [22:0]). -/
abbrev F32 := BitVec 32

end Sys2Proof
end

