-- ==== Sys2Proof/Syntax.lean ====
section
/-! DEFINITION. The command set: one constructor per row of spec/opcode_table.json, and the two
contexts a header is decoded in. -/

namespace Sys2Proof

/-- The six commands and event records (30_encoding.md R114-R119). Every field of the encoding is
kept, the ignored ones too: an illegal header is reported whole in ERR_INFO (R121, R273). -/
inductive Instr where
  /-- `NOP`: `ign` is the ignored field [27:0] (R114). -/
  | nop (ign : BitVec 28)
  /-- `BLOCK`: EVCOUNT in [27:16], NSAMP in [15:0] (R115). -/
  | block (evCount : BitVec 12) (nSamp : BitVec 16)
  /-- `RATE`: ignored [27:0], then the operand word, the binary32 rate in Hz (R116). -/
  | rate (ign : BitVec 28) (x : Word)
  /-- `NOTEON`: ignored [27:8], NOTE in [7:0], then the operand word, the raw velocity (R117). -/
  | noteOn (ign : BitVec 20) (note : BitVec 8) (x : Word)
  /-- `NOTEOFF`: ignored [27:8], NOTE in [7:0] (R118). -/
  | noteOff (ign : BitVec 20) (note : BitVec 8)
  /-- `ALLOFF`: ignored [27:0] (R119). -/
  | allOff (ign : BitVec 28)
  deriving DecidableEq, Repr

/-- The two contexts of 30_encoding.md R113. -/
inductive Context where
  | topLevel
  | eventList
  deriving DecidableEq, Repr

/-- The formats of 30_encoding.md R110: one header word, or a header and one operand word. -/
inductive Format where
  | H
  | HX
  deriving DecidableEq, Repr

/-- Each command's format (30_encoding.md R123). -/
def Instr.format : Instr → Format
  | .nop _ => .H
  | .block _ _ => .H
  | .rate _ _ => .HX
  | .noteOn _ _ _ => .HX
  | .noteOff _ _ => .H
  | .allOff _ => .H

/-- Words of a format (30_encoding.md R110). -/
def Format.words : Format → Nat
  | .H => 1
  | .HX => 2

end Sys2Proof
end

