-- ==== Sys2Proof/WellFormed.lean ====
section
/-! DEFINITION. Which commands are legal where (30_encoding.md R113), which leave the ignored bits
zero as software should (R122), and which command streams are well formed: every BLOCK followed by
exactly its EVCOUNT event records (R115, R212). The machine runs ill-formed streams too, as the spec
says (R244, R249). -/

namespace Sys2Proof

/-- The contexts a command is legal in: BLOCK and RATE only at top level, NOTEON, NOTEOFF and ALLOFF
only in an event list, NOP in both (30_encoding.md R113). -/
def Instr.legalIn : Context → Instr → Bool
  | _, .nop _ => true
  | .topLevel, .block _ _ => true
  | .topLevel, .rate _ _ => true
  | .topLevel, .noteOn _ _ _ => false
  | .topLevel, .noteOff _ _ => false
  | .topLevel, .allOff _ => false
  | .eventList, .block _ _ => false
  | .eventList, .rate _ _ => false
  | .eventList, .noteOn _ _ _ => true
  | .eventList, .noteOff _ _ => true
  | .eventList, .allOff _ => true

/-- The ignored bits are zero, as software should write them (30_encoding.md R122). -/
def Instr.canonical : Instr → Bool
  | .nop ign => ign == 0
  | .block _ _ => true
  | .rate ign _ => ign == 0
  | .noteOn ign _ _ => ign == 0
  | .noteOff ign _ => ign == 0
  | .allOff ign => ign == 0

/-- The event records a command expects behind it: EVCOUNT for BLOCK, none otherwise (R115). -/
def Instr.recordsAfter : Instr → Nat
  | .block e _ => e.toNat
  | .nop _ => 0
  | .rate _ _ => 0
  | .noteOn _ _ _ => 0
  | .noteOff _ _ => 0
  | .allOff _ => 0

/-- A stream is well formed when, with `records` event records of the current block still to come,
each command is legal in its context and the last block's records are all there (R113, R115). -/
def streamWellFormed : Nat → List Instr → Bool
  | records, [] => records == 0
  | 0, i :: rest => i.legalIn .topLevel && streamWellFormed i.recordsAfter rest
  | records + 1, i :: rest => i.legalIn .eventList && streamWellFormed records rest

end Sys2Proof
end

