-- ==== Sys2Proof/Decode.lean ====
section
/-! DEFINITION. Decoding of command words, total on every list of words, and the encoder after it
(30_encoding.md R110-R124). A FIFO word is a whole 32-bit word, so no byte order arises here. -/

namespace Sys2Proof

/-- `OP = w[31:28]` (30_encoding.md R111). -/
def opcode (w : Word) : BitVec 4 := w.extractLsb' 28 4

/-- `len(w)`: 2 for opcodes 0x2 and 0x8, else 1, legal or not (30_encoding.md R112). -/
def headerLen (w : Word) : Nat := if opcode w = 0x2#4 ∨ opcode w = 0x8#4 then 2 else 1

/-- Why a list of words holds no command at its head. -/
inductive DecodeError where
  /-- There is no word: the engine waits (45_commands.md R240). -/
  | empty
  /-- The operand word of a 2-word command has not arrived: the engine waits (R240, R309). -/
  | missingOperand (header : Word)
  /-- A reserved opcode, illegal in both contexts, one word long (30_encoding.md R121). -/
  | reserved (header : Word)
  deriving DecidableEq, Repr

/-- The command at the head of a word list and the words behind it (30_encoding.md R114-R123). -/
def decode : List Word → Except DecodeError (Instr × List Word)
  | [] => .error .empty
  | w :: rest =>
    match (opcode w).toNat with
    | 0x0 => .ok (.nop (w.extractLsb' 0 28), rest)
    | 0x1 => .ok (.block (w.extractLsb' 16 12) (w.extractLsb' 0 16), rest)
    | 0x2 =>
      match rest with
      | [] => .error (.missingOperand w)
      | x :: rest' => .ok (.rate (w.extractLsb' 0 28) x, rest')
    | 0x8 =>
      match rest with
      | [] => .error (.missingOperand w)
      | x :: rest' => .ok (.noteOn (w.extractLsb' 8 20) (w.extractLsb' 0 8) x, rest')
    | 0x9 => .ok (.noteOff (w.extractLsb' 8 20) (w.extractLsb' 0 8), rest)
    | 0xB => .ok (.allOff (w.extractLsb' 0 28), rest)
    | _ => .error (.reserved w)

/-- The header word of a command (30_encoding.md R114-R119). -/
def Instr.header : Instr → Word
  | .nop ign => 0x0#4 ++ ign
  | .block e n => 0x1#4 ++ e ++ n
  | .rate ign _ => 0x2#4 ++ ign
  | .noteOn ign note _ => 0x8#4 ++ ign ++ note
  | .noteOff ign note => 0x9#4 ++ ign ++ note
  | .allOff ign => 0xB#4 ++ ign

/-- The words of a command: its header, then the operand word of an HX command (R110). -/
def encode : Instr → List Word
  | .nop ign => [(Instr.nop ign).header]
  | .block e n => [(Instr.block e n).header]
  | .rate ign x => [(Instr.rate ign x).header, x]
  | .noteOn ign note x => [(Instr.noteOn ign note x).header, x]
  | .noteOff ign note => [(Instr.noteOff ign note).header]
  | .allOff ign => [(Instr.allOff ign).header]

/-- A row of the match and mask table (30_encoding.md R123, R124). -/
structure OpcodeRow where
  mnemonic : String
  pattern : Word
  mask : Word
  format : Format
  topLevel : Bool
  eventList : Bool
  deriving DecidableEq, Repr

/-- The match and mask rows of the six commands (30_encoding.md R123, R124). -/
def opcodeRows : List OpcodeRow :=
  [⟨"NOP", 0x00000000, 0xF0000000, .H, true, true⟩,
   ⟨"BLOCK", 0x10000000, 0xF0000000, .H, true, false⟩,
   ⟨"RATE", 0x20000000, 0xF0000000, .HX, true, false⟩,
   ⟨"NOTEON", 0x80000000, 0xF0000000, .HX, false, true⟩,
   ⟨"NOTEOFF", 0x90000000, 0xF0000000, .H, false, true⟩,
   ⟨"ALLOFF", 0xB0000000, 0xF0000000, .H, false, true⟩]

/-- `(w & mask) == match` (30_encoding.md R124). -/
def OpcodeRow.matchesWord (r : OpcodeRow) (w : Word) : Bool := w &&& r.mask == r.pattern

/-- The row of the table a command belongs to. -/
def Instr.mnemonic : Instr → String
  | .nop _ => "NOP"
  | .block _ _ => "BLOCK"
  | .rate _ _ => "RATE"
  | .noteOn _ _ _ => "NOTEON"
  | .noteOff _ _ => "NOTEOFF"
  | .allOff _ => "ALLOFF"

/-- The words of an instruction given as one number, bit 0 the least significant bit of the first
word and a second word in bits 63..32; every bit from `nbits` up is 0. As many words as the
header's length (R112). -/
def tableWords (nbits w : Nat) : List Word :=
  let v := w % 2 ^ nbits
  let w0 : Word := BitVec.ofNat 32 v
  [w0, BitVec.ofNat 32 (v / 2 ^ 32)].take (headerLen w0)

/-- The instruction the decoder reads from an instruction's bits, numbered as spec/opcode_table.json
numbers them. -/
def decodeTableWord (nbits w : Nat) : Option Instr :=
  match decode (tableWords nbits w) with
  | .ok (i, _) => some i
  | .error _ => none

end Sys2Proof
end

