-- ==== Sys2Proof/Config.lean ====
section
/-! DEFINITION. The open parameters of 00_scope.md R8, which a model takes as arguments: the numeric
configuration NUM (R14), the attack time, the channel count, the FIFO depths and the window base.
The machine's own values are opaque constants, so every claim holds for every legal choice. -/

namespace Sys2Proof

/-- The elementary functions of 00_scope.md R14, total functions of their arguments alone. -/
structure Num where
  exp : F32 → F32
  exp2 : F32 → F32
  log10 : F32 → F32
  tanh : F32 → F32
  /-- `x` to a positive integer power `k ≤ 32`. -/
  powi : F32 → Nat → F32
  /-- The wavetable entry, 40_wavetable.md R140. -/
  sinTable : Fin 4096 → F32

/-- The open parameters of 00_scope.md R8. -/
structure Config where
  /-- NUM, 92_eei_decisions.md D2. -/
  num : Num
  /-- P_ATTACK_TIME, any bit pattern, 92_eei_decisions.md D10. -/
  attackTime : F32
  /-- P_NUM_CHANNELS, 92_eei_decisions.md D31. -/
  numChannels : Nat
  /-- P_CMD_FIFO_DEPTH in words, 92_eei_decisions.md D44. -/
  cmdDepth : Nat
  /-- P_OUT_FIFO_DEPTH in words, 92_eei_decisions.md D44. -/
  outDepth : Nat
  /-- P_BASE, the platform address of the register window, 92_eei_decisions.md D43. -/
  base : Nat

/-- The legal ranges of 00_scope.md R8. -/
structure Config.Legal (c : Config) : Prop where
  channels : 1 ≤ c.numChannels ∧ c.numChannels ≤ 15
  cmdFifo : 2 ≤ c.cmdDepth ∧ c.cmdDepth ≤ 65535
  outFifo : c.numChannels ≤ c.outDepth ∧ c.outDepth ≤ 65535
  aligned : c.base % 256 = 0

/-- NUM.exp of this machine, open (R14, log entry 1). -/
opaque Num.machineExp : F32 → F32
/-- NUM.exp2 of this machine, open (R14, log entry 1). -/
opaque Num.machineExp2 : F32 → F32
/-- NUM.log10 of this machine, open (R14, log entry 1). -/
opaque Num.machineLog10 : F32 → F32
/-- NUM.tanh of this machine, open (R14, log entry 1). -/
opaque Num.machineTanh : F32 → F32
/-- NUM.powi of this machine, open (R14, log entry 1). -/
opaque Num.machinePowi : F32 → Nat → F32
/-- NUM.sinTable of this machine, open (R14, R140, log entry 1). -/
opaque Num.machineSinTable : Fin 4096 → F32

/-- P_ATTACK_TIME of this machine, open (R8, log entry 2). -/
opaque Config.openAttackTime : F32
/-- P_NUM_CHANNELS less one, so that the count lies in 1..15 (R8, log entry 2). -/
opaque Config.openChannels : Fin 15
/-- P_CMD_FIFO_DEPTH less two, so that the depth lies in 2..65535 (R8, log entry 2). -/
opaque Config.openCmdDepth : Fin 65534
/-- P_OUT_FIFO_DEPTH less P_NUM_CHANNELS, so that the depth lies in its range (R8, log entry 2). -/
opaque Config.openOutDepth : Fin (65534 - Config.openChannels.val + 1)
/-- P_BASE divided by 256, so that the base is aligned (R8, R81, log entry 2). -/
opaque Config.openBase : Nat

/-- The numeric configuration of this machine: any NUM (R14). -/
def Num.machine : Num where
  exp := Num.machineExp
  exp2 := Num.machineExp2
  log10 := Num.machineLog10
  tanh := Num.machineTanh
  powi := Num.machinePowi
  sinTable := Num.machineSinTable

/-- The parameters of this machine: any legal choice (R8). -/
def Config.machine : Config where
  num := Num.machine
  attackTime := Config.openAttackTime
  numChannels := Config.openChannels.val + 1
  cmdDepth := Config.openCmdDepth.val + 2
  outDepth := Config.openOutDepth.val + (Config.openChannels.val + 1)
  base := 256 * Config.openBase

end Sys2Proof
end

