-- ==== Sys2Proof/Machine/Binary32.lean ====
section
/-! DEFINITION. binary32 arithmetic (00_scope.md R11-R15): exact integer arithmetic in units of 2^-149,
of which every finite binary32 value is a multiple, and one rounding to nearest, ties to even. PRESUMED:
the special cases are those of IEEE 754-2008, which R12 names (unsafe otherwise, log entry 11). -/

namespace Sys2Proof.Machine

/-- The canonical quiet NaN of 00_scope.md R15. -/
def qNaN : F32 := 0x7FC00000#32
/-- +inf. -/
def posInf : F32 := 0x7F800000#32
/-- +0.0. -/
def posZero : F32 := 0x00000000#32

/-- The sign bit 31 (20_memory.md R83). -/
def signBit (x : F32) : Bool := x.msb
/-- The exponent field [30:23] (20_memory.md R83). -/
def expField (x : F32) : Nat := x.toNat / 2 ^ 23 % 256
/-- The fraction field [22:0] (20_memory.md R83). -/
def fracField (x : F32) : Nat := x.toNat % 2 ^ 23
/-- The pattern without its sign bit; it orders the magnitudes of all values that are not NaN. -/
def magnitude (x : F32) : Nat := x.toNat % 2 ^ 31

/-- `isNaN(x)` of 00_scope.md R11. -/
def isNaN (x : F32) : Bool := expField x == 255 && fracField x != 0
/-- `isInf(x)` of 00_scope.md R11. -/
def isInf (x : F32) : Bool := expField x == 255 && fracField x == 0
/-- Neither infinite nor NaN. -/
def isFinite (x : F32) : Bool := expField x != 255
/-- +0.0 or -0.0. -/
def isZero (x : F32) : Bool := magnitude x == 0

/-- The magnitude of a finite value in units of 2^-149: the significand shifted by the exponent,
subnormals with exponent 1 and no leading bit. -/
def units (x : F32) : Nat :=
  (if expField x = 0 then fracField x else 2 ^ 23 + fracField x) * 2 ^ (max (expField x) 1 - 1)

/-- A finite value in units of 2^-149, with its sign. -/
def signedUnits (x : F32) : Int := if signBit x then -(units x : Int) else (units x : Int)

/-- The exact value of a finite pattern. -/
def value (x : F32) : ℚ := (signedUnits x : ℚ) / 2 ^ 149

/-- A sign and a magnitude pattern. -/
def pack (neg : Bool) (mag : Nat) : F32 := BitVec.ofNat 32 (mag + if neg then 2 ^ 31 else 0)

/-- The magnitude pattern nearest to `num / den` units, ties to even, overflow to infinity
(00_scope.md R13). The significand is taken at the scale `2^q` where it has at most 24 bits. -/
def roundUnits (num den : Nat) : Nat :=
  let q := Nat.log2 (num / den) - 23
  let d := den * 2 ^ q
  let k := num / d
  let r := num % d
  let up := if 2 * r > d ∨ (2 * r = d ∧ k % 2 = 1) then 1 else 0
  min (q * 2 ^ 23 + k + up) 0x7F800000

/-- Every NaN the core produces is 0x7FC00000 (00_scope.md R15). DEDUCED, safe (log entry 10). -/
def canon (x : F32) : F32 := if isNaN x then qNaN else x

/-- `fneg(x)`: flip the sign bit (00_scope.md R11). -/
def fneg (x : F32) : F32 := pack (!signBit x) (magnitude x)
/-- `fabs(x)`: clear the sign bit (00_scope.md R11). -/
def fabs (x : F32) : F32 := pack false (magnitude x)

/-- `fadd` (00_scope.md R13). An exact zero sum is +0 unless both operands are negative zeros. -/
def fadd (a b : F32) : F32 :=
  if isNaN a || isNaN b then qNaN
  else if isInf a then (if isInf b && signBit a != signBit b then qNaN else a)
  else if isInf b then b
  else
    let s := signedUnits a + signedUnits b
    if s = 0 then pack (signBit a && signBit b) 0
    else pack (decide (s < 0)) (roundUnits s.natAbs 1)

/-- `fsub` (00_scope.md R13). -/
def fsub (a b : F32) : F32 := fadd a (fneg b)

/-- `fmul` (00_scope.md R13). -/
def fmul (a b : F32) : F32 :=
  let neg := signBit a != signBit b
  if isNaN a || isNaN b then qNaN
  else if isInf a || isInf b then (if isZero a || isZero b then qNaN else pack neg 0x7F800000)
  else pack neg (roundUnits (units a * units b) (2 ^ 149))

/-- `fdiv` (00_scope.md R13): a nonzero finite value by zero is a signed infinity, 0/0 and inf/inf
are NaN. -/
def fdiv (a b : F32) : F32 :=
  let neg := signBit a != signBit b
  if isNaN a || isNaN b then qNaN
  else if isInf a then (if isInf b then qNaN else pack neg 0x7F800000)
  else if isInf b then pack neg 0
  else if isZero b then (if isZero a then qNaN else pack neg 0x7F800000)
  else pack neg (roundUnits (units a * 2 ^ 149) (units b))

/-- The bits of the integer square root, tried from bit `fuel - 1` down. -/
def isqrtFrom (n : Nat) : Nat → Nat → Nat
  | 0, root => root
  | fuel + 1, root =>
    let tried := root + 2 ^ fuel
    isqrtFrom n fuel (if tried * tried ≤ n then tried else root)

/-- The integer square root of a number below 2^512. -/
def isqrt (n : Nat) : Nat := isqrtFrom n 256 0

/-- `fsqrt` (00_scope.md R13). The root of `u · 2^149` has at least 75 bits, so its floor and whether
it is exact decide the rounding. -/
def fsqrt (x : F32) : F32 :=
  if isNaN x then qNaN
  else if isZero x then x
  else if signBit x then qNaN
  else if isInf x then x
  else
    let n := units x * 2 ^ 149
    let root := isqrt n
    pack false (roundUnits (2 * root + if root * root = n then 0 else 1) 2)

/-- `i2f(n)`: the nearest binary32 to an integer, ties to even (00_scope.md R11). -/
def i2f (n : Int) : F32 := pack (decide (n < 0)) (roundUnits (n.natAbs * 2 ^ 149) 1)

/-- `floorInt(x)`: the mathematical floor of a finite value (00_scope.md R11). -/
def floorInt (x : F32) : Int := signedUnits x / 2 ^ 149

/-- An integer in the order of the values that are not NaN; both zeros are 0. -/
def orderKey (x : F32) : Int := if signBit x then -(magnitude x : Int) else (magnitude x : Int)

/-- Ordered comparison `<`, false when either operand is NaN (00_scope.md R11). -/
def flt (a b : F32) : Bool := !isNaN a && !isNaN b && decide (orderKey a < orderKey b)
/-- Ordered comparison `≤` (00_scope.md R11). -/
def fle (a b : F32) : Bool := !isNaN a && !isNaN b && decide (orderKey a ≤ orderKey b)
/-- Ordered comparison `>` (00_scope.md R11). -/
def fgt (a b : F32) : Bool := flt b a
/-- Ordered comparison `≥` (00_scope.md R11). -/
def fge (a b : F32) : Bool := fle b a
/-- Ordered comparison `=` (00_scope.md R11). -/
def feq (a b : F32) : Bool := !isNaN a && !isNaN b && decide (orderKey a = orderKey b)

/-- `NUM.exp`, a NaN result made canonical (00_scope.md R14, R15). -/
def numExp (N : Num) (x : F32) : F32 := canon (N.exp x)
/-- `NUM.exp2`, a NaN result made canonical (00_scope.md R14, R15). -/
def numExp2 (N : Num) (x : F32) : F32 := canon (N.exp2 x)
/-- `NUM.log10`, a NaN result made canonical (00_scope.md R14, R15). -/
def numLog10 (N : Num) (x : F32) : F32 := canon (N.log10 x)
/-- `NUM.tanh`, a NaN result made canonical (00_scope.md R14, R15). -/
def numTanh (N : Num) (x : F32) : F32 := canon (N.tanh x)
/-- `NUM.powi`, a NaN result made canonical (00_scope.md R14, R15). -/
def numPowi (N : Num) (x : F32) (k : Nat) : F32 := canon (N.powi x k)
/-- `NUM.sinTable`, a NaN result made canonical (00_scope.md R14, R15). -/
def numSinTable (N : Num) (i : Fin 4096) : F32 := canon (N.sinTable i)

end Sys2Proof.Machine
end

