-- ==== Sys2Proof/Machine/Operands.lean ====
section
/-! DEFINITION. The constants of 00_scope.md R16 and what becomes of an operand: the harmonic clamp
(R210), the velocity clamp and scale (R245), the rates RATE accepts (R242), and times turned into
sample counts (R171). No operand is sign-extended, scaled or shifted (30_encoding.md R120). -/

namespace Sys2Proof.Machine

def kTwoPi : F32 := 0x40C90FDB#32
def kTable : F32 := 0x45800000#32
def kOne : F32 := 0x3F800000#32
def kTwo : F32 := 0x40000000#32
def k1_1 : F32 := 0x3F8CCCCD#32
def k1_6 : F32 := 0x3FCCCCCD#32
def k0_9 : F32 := 0x3F666666#32
def k0_8 : F32 := 0x3F4CCCCD#32
def k0_7 : F32 := 0x3F333333#32
def k0_3 : F32 := 0x3E99999A#32
def k0_02 : F32 := 0x3CA3D70A#32
def k440 : F32 := 0x43DC0000#32
def k69 : F32 := 0x428A0000#32
def k12 : F32 := 0x41400000#32
/-- 4294967296.0, the saturation bound of 42_envelope.md R171. -/
def k2to32 : F32 := 0x4F800000#32

/-- The block's harmonic count: the register as a signed integer, clamped to [1, 32]
(44_block_mixer.md R210). -/
def clampHarmonics (w : Word) : Nat :=
  let hr := w.toInt
  if hr < 1 then 1 else if hr > 32 then 32 else hr.toNat

/-- Raw velocity clamped to [0, 1]: NaN and everything up to +0.0 give +0.0 (45_commands.md R245). -/
def clampVelocity (x : Word) : F32 :=
  if isNaN x || fle x posZero then posZero else if fge x kOne then kOne else x

/-- The velocity a NOTEON stores (45_commands.md R245). -/
def scaledVelocity (x : Word) : F32 := fmul (clampVelocity x) k0_8

/-- Whether RATE accepts the operand: not NaN, not infinite, above zero (45_commands.md R242). -/
def rateAccepted (x : Word) : Bool := !(isNaN x || isInf x || fle x posZero)

/-- `SamplesOf(t)` at rate `sr`: at least 1, truncated, saturated at 0xFFFFFFFF (42_envelope.md R171). -/
def samplesOf (sr t : F32) : BitVec 32 :=
  let x := fmul t sr
  if isNaN x || flt x kOne then 1
  else if fge x k2to32 then 0xFFFFFFFF
  else BitVec.ofNat 32 (floorInt x).toNat

end Sys2Proof.Machine
end

