-- ==== Sys2Proof/Machine/State.lean ====
section
/-! DEFINITION. The state of the core (10_state.md R30-R46) and, as the model's own fields, the outside
world as data: the accesses the host agents have still to make, whose turn it is, and the words
that completed reads returned (20_memory.md R88-R90). -/

namespace Sys2Proof.Machine

/-- The envelope stages (10_state.md R34). -/
inductive Stage where
  | idle
  | attack
  | sustain
  | release
  deriving DecidableEq, Repr

/-- What the engine does next (10_state.md R45). -/
inductive SeqMode where
  | idle
  | events
  | samples
  | skip
  deriving DecidableEq, Repr

/-- One voice record (10_state.md R32, R33). Harmonic `k` of the spec is element `k - 1`. -/
structure Voice where
  active : Bool
  note : BitVec 8
  velocity : F32
  baseFreq : F32
  hc : Nat
  attackTime : F32
  releaseTime : F32
  stage : Stage
  attackLevel : F32
  releaseLevel : F32
  releaseStart : F32
  attackTotal : BitVec 32
  attackRem : BitVec 32
  releaseTotal : BitVec 32
  releaseRem : BitVec 32
  phase : Vector F32 32
  inc : Vector F32 32
  gain : Vector F32 32
  deriving DecidableEq, Repr

/-- The allocation record (10_state.md R39). -/
structure AllocRecord where
  voice : Fin 16
  tier : BitVec 2
  valid : Bool
  deriving DecidableEq, Repr

/-- The host agents (00_scope.md R6). -/
inductive Agent where
  | commandWriter
  | controlWriter
  | outputReader
  | monitor
  deriving DecidableEq, Repr

/-- Access sizes a host bus can offer (20_memory.md R84; 10_state.md R55). -/
inductive AccessSize where
  | byte
  | half
  | word
  deriving DecidableEq, Repr

/-- A read, or a write of a value. -/
inductive AccessOp where
  | read
  | write (data : Word)
  deriving DecidableEq, Repr

/-- One host bus access, at a platform address (20_memory.md R81, R82). -/
structure Access where
  addr : Nat
  size : AccessSize
  op : AccessOp
  deriving DecidableEq, Repr

/-- What a completed read returned, and to whom. -/
structure Reply where
  agent : Agent
  addr : Nat
  data : Word
  deriving DecidableEq, Repr

/-- The accesses each agent has still to make, in its program order (20_memory.md R90). -/
structure Pending where
  commandWriter : List Access
  controlWriter : List Access
  outputReader : List Access
  monitor : List Access
  deriving DecidableEq, Repr

/-- Who moves: the engine, one host agent (20_memory.md R88, R90), or the platform asserting and
releasing the reset input (70_reset_and_hazards.md R300). -/
inductive Turn where
  | engine
  | host (a : Agent)
  | reset
  deriving DecidableEq, Repr

/-- The state of the core and of the world around it. -/
structure State where
  voices : Vector Voice 16
  sampleRate : F32
  rateValid : Bool
  smoothCoeff : F32
  curScale : F32
  tgtScale : F32
  blkH : Nat
  blkAmp : F32
  blkRel : F32
  lastAlloc : AllocRecord
  errBits : BitVec 5
  errInfo : Word
  cmdQ : List Word
  outQ : List Word
  regMasterAmp : Word
  regHarmonicCount : Word
  regReleaseTime : Word
  seqMode : SeqMode
  evLeft : BitVec 12
  smpLeft : BitVec 16
  pending : Pending
  schedule : List Turn
  replies : List Reply
  deriving DecidableEq, Repr

/-- Why the machine stops. No command, record or sample step raises one (60_exceptions.md R270). -/
inductive Fault where
  /-- Raised by `step` when a scheduled host access is at an address outside
  `P_BASE .. P_BASE + 0xFF`, which this core does not decode (20_memory.md R81). DESIGN CHOICE (log entry 8). Safe: the model
  stops where the platform would go on elsewhere. -/
  | outsideWindow
  deriving DecidableEq, Repr

/-- Why an instruction has no meaning here. -/
inductive Refusal where
  /-- Raised by `exec` alone, for an instruction with no meaning yet. Safe. -/
  | notModelled (mnemonic : String)
  deriving DecidableEq, Repr

/-- A voice at reset (10_state.md R32, R33). -/
def Voice.reset (c : Config) : Voice where
  active := false
  note := 0
  velocity := 0
  baseFreq := 0
  hc := 1
  attackTime := c.attackTime
  releaseTime := 0
  stage := .idle
  attackLevel := 0
  releaseLevel := 0
  releaseStart := 0
  attackTotal := 0
  attackRem := 0
  releaseTotal := 0
  releaseRem := 0
  phase := Vector.replicate 32 0
  inc := Vector.replicate 32 0
  gain := Vector.replicate 32 0

/-- The core right after reset, under parameters `c` (70_reset_and_hazards.md R301). The three fields
of the outside world are empty: DESIGN CHOICE, unsafe for a claim that rests on it (log entry 3). -/
def State.resetWith (c : Config) : State where
  voices := Vector.replicate 16 (Voice.reset c)
  sampleRate := 0
  rateValid := false
  smoothCoeff := 0
  curScale := 0x3F800000
  tgtScale := 0x3F800000
  blkH := 1
  blkAmp := 0
  blkRel := 0
  lastAlloc := ⟨0, 0, false⟩
  errBits := 0
  errInfo := 0
  cmdQ := []
  outQ := []
  regMasterAmp := 0
  regHarmonicCount := 1
  regReleaseTime := 0
  seqMode := .idle
  evLeft := 0
  smpLeft := 0
  pending := ⟨[], [], [], []⟩
  schedule := []
  replies := []

/-- The machine right after reset (70_reset_and_hazards.md R301). -/
def State.reset : State := State.resetWith Config.machine

end Sys2Proof.Machine
end

