-- ==== Sys2Proof/Machine/Envelope.lean ====
section
/-! DEFINITION. The envelope state machine (42_envelope.md R170-R179). -/

namespace Sys2Proof.Machine

/-- The 2-bit encoding of a stage (10_state.md R34). -/
def Stage.code : Stage → BitVec 2
  | .idle => 0
  | .attack => 1
  | .sustain => 2
  | .release => 3

/-- `EnvStart(i)`, from any stage (42_envelope.md R172, R173). -/
def Voice.envStart (sr : F32) (v : Voice) : Voice :=
  { v with
    attackTotal := samplesOf sr v.attackTime
    attackRem := samplesOf sr v.attackTime
    attackLevel := posZero
    releaseTotal := samplesOf sr v.releaseTime
    releaseRem := 0
    releaseLevel := posZero
    releaseStart := posZero
    stage := .attack }

/-- `L0`, the level a release starts from (42_envelope.md R174). -/
def Voice.stopLevel (v : Voice) : F32 := if v.stage = .attack then v.attackLevel else kOne

/-- `EnvStop(i)`: an inactive or releasing voice is left alone (42_envelope.md R174). -/
def Voice.envStop (v : Voice) : Voice :=
  if v.active = true ∧ v.stage ≠ .release then
    { v with
      releaseStart := v.stopLevel
      releaseLevel := v.stopLevel
      releaseRem := v.releaseTotal
      stage := .release }
  else v

/-- The attack level of an advance (42_envelope.md R175). -/
def attackRamp (rem total : BitVec 32) : F32 := fsub kOne (fdiv (i2f rem.toNat) (i2f total.toNat))

/-- The release level of an advance, scaled by the start level (42_envelope.md R175; 90_conflicts.md C1). -/
def releaseRamp (start : F32) (rem total : BitVec 32) : F32 :=
  fmul start (fdiv (i2f rem.toNat) (i2f total.toNat))

/-- `EnvAdvance(i)` (42_envelope.md R175). -/
def Voice.envAdvance (v : Voice) : Voice :=
  match v.stage with
  | .attack =>
    { v with
      attackRem := v.attackRem - 1
      stage := if v.attackRem - 1 = 0 then .sustain else .attack
      attackLevel := if v.attackRem - 1 = 0 then kOne else attackRamp v.attackRem v.attackTotal }
  | .release =>
    { v with
      releaseLevel := releaseRamp v.releaseStart v.releaseRem v.releaseTotal
      releaseRem := v.releaseRem - 1
      stage := if v.releaseRem - 1 = 0 then .idle else .release
      active := if v.releaseRem - 1 = 0 then false else v.active }
  | .idle => v
  | .sustain => v

/-- `EnvGain(i)` (42_envelope.md R176). -/
def Voice.envGain (v : Voice) : F32 :=
  match v.stage with
  | .attack => v.attackLevel
  | .release => v.releaseLevel
  | .idle => kOne
  | .sustain => kOne

end Sys2Proof.Machine
end

