-- ==== Sys2Proof/Machine/Flags.lean ====
section
/-! DEFINITION. The sticky error bits and the STATUS word (10_state.md R40, R44, R53; 60_exceptions.md
R271, R272). The core has no other flags. -/

namespace Sys2Proof.Machine

/-- The five errors (60_exceptions.md R271). -/
inductive ErrCode where
  | badCmd
  | badRate
  | noRate
  | underflow
  | bus
  deriving DecidableEq, Repr

/-- The error's code, its STATUS bit number less 8 (60_exceptions.md R271). -/
def ErrCode.code : ErrCode → Nat
  | .badCmd => 0
  | .badRate => 1
  | .noRate => 2
  | .underflow => 3
  | .bus => 4

/-- The error's bit of `E.errBits`. -/
def ErrCode.mask (e : ErrCode) : BitVec 5 := 1#5 <<< e.code

/-- The error bits after raising `e` (60_exceptions.md R272). -/
def errBitsRaised (bits : BitVec 5) (e : ErrCode) : BitVec 5 := bits ||| e.mask

/-- The captured information after raising an error: the first error since the bits were last all
clear is kept (60_exceptions.md R272). -/
def errInfoRaised (bits : BitVec 5) (old info : Word) : Word := if bits = 0 then info else old

/-- The error bits after a STATUS write of `w`: those written as 1 are cleared (45_commands.md R252). -/
def errBitsCleared (bits : BitVec 5) (w : Word) : BitVec 5 := bits &&& ~~~(w.extractLsb' 8 5)

/-- The captured information after a STATUS write left the error bits `bits` (45_commands.md R252). -/
def errInfoCleared (bits : BitVec 5) (old : Word) : Word := if bits = 0 then 0 else old

/-- BUSY: the sequencer is not idle (10_state.md R46, R53). -/
def State.busy (s : State) : Bool := s.seqMode != .idle

/-- STATUS: RATE_VALID 0, BUSY 1, CMD_EMPTY 2, OUT_EMPTY 3, the error bits in 12:8 (10_state.md R53). -/
def State.statusWord (s : State) : Word :=
  0#19 ++ s.errBits ++ 0#4 ++ BitVec.ofBool s.outQ.isEmpty ++ BitVec.ofBool s.cmdQ.isEmpty
    ++ BitVec.ofBool s.busy ++ BitVec.ofBool s.rateValid

/-- The drain condition CMD_EMPTY = 1 and BUSY = 0 (20_memory.md R95; 70_reset_and_hazards.md R317). -/
def State.drained (s : State) : Bool := s.cmdQ.isEmpty && !s.busy

/-- The bus descriptor of an access: offset [7:0], write [8], size [10:9] (10_state.md R55). -/
def busDescriptor (off : Nat) (size : AccessSize) (op : AccessOp) : Word :=
  let sizeField : BitVec 2 := match size with
    | .byte => 0
    | .half => 1
    | .word => 2
  let writeField : BitVec 1 := match op with
    | .read => 0
    | .write _ => 1
  0#21 ++ sizeField ++ writeField ++ BitVec.ofNat 8 off

end Sys2Proof.Machine
end

