-- ==== Sys2Proof/Machine/Ops.lean ====
section
/-! DEFINITION. The named operations on the state: reading and writing voices, the two FIFOs, raising an
error and acknowledging it, and the bookkeeping of commands and records (60_exceptions.md R272;
45_commands.md R240, R244, R248, R252). -/

namespace Sys2Proof.Machine

/-- `V[i]` (00_scope.md R10). -/
def State.voice (s : State) (i : Fin 16) : Voice := s.voices[i]

/-- `V[i] <- v` (00_scope.md R10). -/
def State.setVoice (s : State) (i : Fin 16) (v : Voice) : State :=
  { s with voices := s.voices.set i v }

/-- One operation on every voice (44_block_mixer.md R211, R220; 45_commands.md R247). -/
def State.mapVoices (s : State) (f : Voice → Voice) : State :=
  { s with voices := Vector.ofFn fun i => f (s.voice i) }

/-- Taking an error: `raise Err<NAME>(info)`. Nothing is saved, no mode changes and control is not
transferred; the rule that raises it says what happens next (60_exceptions.md R270, R272, R281). -/
def State.raise (s : State) (e : ErrCode) (info : Word) : State :=
  { s with
    errInfo := errInfoRaised s.errBits s.errInfo info
    errBits := errBitsRaised s.errBits e }

/-- Acknowledging errors, the only counterpart of a return from one: a STATUS write
(45_commands.md R252; 60_exceptions.md R282). -/
def State.acknowledge (s : State) (w : Word) : State :=
  { s with
    errBits := errBitsCleared s.errBits w
    errInfo := errInfoCleared (errBitsCleared s.errBits w) s.errInfo }

/-- The command FIFO left with `rest` after `CmdPop()` (00_scope.md R10). -/
def State.withCmdQ (s : State) (rest : List Word) : State := { s with cmdQ := rest }

/-- `OutPush` of the same word on every channel, channel 0 first (44_block_mixer.md R219). -/
def State.pushFrame (s : State) (channels : Nat) (w : Word) : State :=
  { s with outQ := s.outQ ++ List.replicate channels w }

/-- The end of an event record: one fewer to come, and after the last one the samples or the end of
the block (45_commands.md R244). -/
def State.endRecord (s : State) : State :=
  { s with
    evLeft := s.evLeft - 1
    seqMode := if s.evLeft - 1 = 0 then (if s.smpLeft = 0 then .idle else .samples) else s.seqMode }

/-- The end of a skipped record (45_commands.md R248). -/
def State.endSkip (s : State) : State :=
  { s with
    evLeft := s.evLeft - 1
    seqMode := if s.evLeft - 1 = 0 then .idle else s.seqMode }

/-- What a consumed header does in each mode: its top-level effect, its effect as an event record, or
nothing in a refused block (45_commands.md R240, R244, R248). In SAMPLES the engine decodes no
header (10_state.md R45), and `step` never asks: DESIGN CHOICE, safe for `step` (log entry 5). -/
def State.inContext (s : State) (top event : State → State) : State :=
  match s.seqMode with
  | .idle => top s
  | .events => (event s).endRecord
  | .skip => s.endSkip
  | .samples => s

/-- An illegal header, in whatever mode: ERR_BADCMD with the header word, counted as a record inside
an event list (30_encoding.md R121; 45_commands.md R244, R249). -/
def State.badHeader (s : State) (w : Word) : State :=
  s.inContext (fun t => t.raise .badCmd w) (fun t => t.raise .badCmd w)

/-- The accesses one agent has still to make. -/
def Pending.of (p : Pending) : Agent → List Access
  | .commandWriter => p.commandWriter
  | .controlWriter => p.controlWriter
  | .outputReader => p.outputReader
  | .monitor => p.monitor

/-- Replacing one agent's accesses still to make. -/
def Pending.put (p : Pending) (a : Agent) (l : List Access) : Pending :=
  match a with
  | .commandWriter => { p with commandWriter := l }
  | .controlWriter => { p with controlWriter := l }
  | .outputReader => { p with outputReader := l }
  | .monitor => { p with monitor := l }

end Sys2Proof.Machine
end

