-- ==== Sys2Proof/Machine/Oscillator.lean ====
section
/-! DEFINITION. The wavetable and the oscillator bank (40_wavetable.md R140-R143; 41_oscillator_bank.md
R150-R156). `N` is NUM, `sr` is `E.sampleRate`. -/

namespace Sys2Proof.Machine

/-- The wavetable ROM `T[i]`, indexed modulo its size (40_wavetable.md R140). -/
def table (N : Num) (i : Int) : F32 :=
  numSinTable N ⟨(i % 4096).toNat, by omega⟩

/-- `WT(ph)`: linear interpolation between two neighbouring entries (40_wavetable.md R142). -/
def waveLookup (N : Num) (ph : F32) : F32 :=
  let pos := fmul (fdiv ph kTwoPi) kTable
  if isNaN pos || isInf pos then qNaN
  else
    let n := floorInt pos
    let frac := fsub pos (i2f n)
    let i0 := n % 4096
    let i1 := (i0 + 1) % 4096
    fadd (table N i0) (fmul frac (fsub (table N i1) (table N i0)))

/-- `Pitch(n)`: equal temperament, note 69 at 440 Hz (41_oscillator_bank.md R150). -/
def pitch (N : Num) (n : BitVec 8) : F32 :=
  fmul k440 (numExp2 N (fdiv (fsub (i2f n.toNat) k69) k12))

/-- `Inc(base, k)` (41_oscillator_bank.md R151). -/
def phaseInc (sr base : F32) (k : Nat) : F32 :=
  fdiv (fmul kTwoPi (fmul base (i2f k))) sr

/-- `raw[k]` (41_oscillator_bank.md R152). -/
def rawGain (N : Num) (k : Nat) : F32 :=
  fdiv kTwo (fmul (numPowi N k1_1 k) (numPowi N k1_6 k))

/-- `S`, the sum of the raw gains of harmonics 1..h in that order (41_oscillator_bank.md R152). -/
def rawGainSum (N : Num) (h : Nat) : F32 :=
  (List.range h).foldl (fun acc k => fadd acc (fabs (rawGain N (k + 1)))) posZero

/-- `g[k]` given the sum `S`: rescaled when `S` exceeds 0.9 (41_oscillator_bank.md R152). -/
def scaledGain (N : Num) (sum : F32) (k : Nat) : F32 :=
  if fgt sum k0_9 then fmul (rawGain N k) (fdiv k0_9 sum) else rawGain N k

/-- `Gains(h)[k]` (41_oscillator_bank.md R152). -/
def harmonicGain (N : Num) (h k : Nat) : F32 := scaledGain N (rawGainSum N h) k

/-- `Configure(i)`: phases to +0.0, increments and gains of harmonics up to `hc`, zero above
(41_oscillator_bank.md R153). -/
def Voice.configure (N : Num) (sr : F32) (v : Voice) : Voice :=
  let sum := rawGainSum N v.hc
  { v with
    phase := Vector.ofFn fun _ => posZero
    inc := Vector.ofFn fun k => if k.val + 1 ≤ v.hc then phaseInc sr v.baseFreq (k.val + 1) else posZero
    gain := Vector.ofFn fun k => if k.val + 1 ≤ v.hc then scaledGain N sum (k.val + 1) else posZero }

/-- `BankSample(i)`: the sum over harmonics 1..hc in that order (41_oscillator_bank.md R155). -/
def Voice.bankSample (N : Num) (v : Voice) : F32 :=
  (List.finRange 32).foldl
    (fun acc k =>
      if k.val + 1 ≤ v.hc then fadd acc (fmul v.gain[k] (waveLookup N v.phase[k])) else acc)
    posZero

/-- One phase advance: at most one subtraction of 2π (41_oscillator_bank.md R156). -/
def phaseStep (ph inc : F32) : F32 :=
  let p := fadd ph inc
  if fge p kTwoPi then fsub p kTwoPi else p

/-- `BankAdvance(i)`: the phases of harmonics 1..hc (41_oscillator_bank.md R156). -/
def Voice.bankAdvance (v : Voice) : Voice :=
  { v with
    phase := Vector.ofFn fun k =>
      if k.val + 1 ≤ v.hc then phaseStep v.phase[k] v.inc[k] else v.phase[k] }

end Sys2Proof.Machine
end

