-- ==== Sys2Proof/Machine/VoicePool.lean ====
section
/-! DEFINITION. Voices and the voice pool (43_voice_pool.md R190-R197). -/

namespace Sys2Proof.Machine

/-- `VoiceStart(i, note, vel)` (43_voice_pool.md R190). -/
def Voice.start (N : Num) (sr : F32) (note : BitVec 8) (vel : F32) (v : Voice) : Voice :=
  Voice.envStart sr (Voice.configure N sr
    { v with active := true, note := note, velocity := vel, baseFreq := pitch N note })

/-- `VoiceSample(i)` (43_voice_pool.md R191). -/
def Voice.sample (N : Num) (v : Voice) : F32 := fmul (fmul (v.bankSample N) v.envGain) v.velocity

/-- `Amplitude(i)` (43_voice_pool.md R192). -/
def Voice.amplitude (v : Voice) : F32 := fmul v.envGain v.velocity

/-- `VoiceStop(i)` (43_voice_pool.md R193). -/
def Voice.stop (v : Voice) : Voice := v.envStop

/-- `VoiceAdvance(i)`: envelope first, then bank (43_voice_pool.md R193). -/
def Voice.advance (v : Voice) : Voice := v.envAdvance.bankAdvance

/-- The first inactive voice (43_voice_pool.md R194, tier 0). -/
def State.freeVoice (s : State) : Option (Fin 16) :=
  (List.finRange 16).find? fun i => !(s.voice i).active

/-- The releasing voice with the fewest samples left, the first among equals (R194, tier 1). -/
def State.nearestReleased (s : State) : Option (Fin 16) :=
  (List.finRange 16).foldl
    (fun best i =>
      if (s.voice i).stage = .release then
        match best with
        | none => some i
        | some b => if (s.voice i).releaseRem < (s.voice b).releaseRem then some i else some b
      else best)
    none

/-- The voice of least amplitude, the first among equals (R194, tier 2). -/
def State.quietest (s : State) : Fin 16 :=
  (List.finRange 16).foldl
    (fun best i => if flt (s.voice i).amplitude (s.voice best).amplitude then i else best) 0

/-- `FindFree()`: free, then nearest its release's end, then quietest (43_voice_pool.md R194). -/
def State.findFree (s : State) : Fin 16 × BitVec 2 :=
  match s.freeVoice with
  | some i => (i, 0)
  | none =>
    match s.nearestReleased with
    | some i => (i, 1)
    | none => (s.quietest, 2)

/-- `FindVoiceForNote(n)`: the first active voice with the note, releasing or not
(43_voice_pool.md R195). -/
def State.findNote (s : State) (n : BitVec 8) : Option (Fin 16) :=
  (List.finRange 16).find? fun i => (s.voice i).active && (s.voice i).note == n

/-- The number of active voices (10_state.md R60; 44_block_mixer.md R213 step 1). -/
def State.activeCount (s : State) : Nat :=
  (List.finRange 16).foldl (fun n i => if (s.voice i).active then n + 1 else n) 0

end Sys2Proof.Machine
end

