-- ==== Sys2Proof/Machine/Mixer.lean ====
section
/-! DEFINITION. The block mixer (44_block_mixer.md R210-R221). -/

namespace Sys2Proof.Machine

/-- `BlockLatch()`: the three controls, read once at the block's start (44_block_mixer.md R210). -/
def State.blockLatch (s : State) : State :=
  { s with
    blkH := clampHarmonics s.regHarmonicCount
    blkAmp := s.regMasterAmp
    blkRel := s.regReleaseTime }

/-- Whether a push changes the voice, compared by bit pattern (44_block_mixer.md R211). -/
def Voice.pushChanges (attackTime releaseTime : F32) (h : Nat) (v : Voice) : Bool :=
  v.hc != h || v.releaseTime != releaseTime || v.attackTime != attackTime

/-- The push onto one voice, which reconfigures it when it changes it (44_block_mixer.md R211). -/
def Voice.push (N : Num) (sr attackTime releaseTime : F32) (h : Nat) (v : Voice) : Voice :=
  let pushed := { v with hc := h, releaseTime := releaseTime, attackTime := attackTime }
  if v.pushChanges attackTime releaseTime h then pushed.configure N sr else pushed

/-- `BlockPush()` (44_block_mixer.md R211). -/
def State.blockPush (c : Config) (s : State) : State :=
  s.mapVoices (Voice.push c.num s.sampleRate c.attackTime s.blkRel s.blkH)

/-- `Target(n, h)` (44_block_mixer.md R214). -/
def loudnessTarget (N : Num) (n h : Nat) : F32 :=
  if n = 0 then kOne
  else
    let base := fdiv kOne (fsqrt (i2f n))
    if h > 1 then fmul base (fadd k0_7 (fdiv k0_3 (numLog10 N (i2f ((h : Int) + 1))))) else base

/-- One smoothing step (44_block_mixer.md R215). -/
def smoothed (coeff cur tgt : F32) : F32 := fadd cur (fmul coeff (fsub tgt cur))

/-- `acc`, the sum of the active voices in index order (44_block_mixer.md R216). -/
def State.voiceSum (N : Num) (s : State) : F32 :=
  (List.finRange 16).foldl
    (fun acc i => if (s.voice i).active then fadd acc ((s.voice i).sample N) else acc) posZero

/-- The soft clip above the knee (44_block_mixer.md R218). -/
def clipAbove (N : Num) (x : F32) : F32 :=
  fadd k0_7 (fmul k0_3 (numTanh N (fdiv (fsub x k0_7) k0_3)))

/-- `SoftClip(x)`: the formula above 0.7, its exact mirror below -0.7, the identity between and on
NaN (44_block_mixer.md R218). -/
def softClip (N : Num) (x : F32) : F32 :=
  if fgt x k0_7 then clipAbove N x
  else if flt x (fneg k0_7) then fneg (clipAbove N (fneg x))
  else x

/-- The output word of a sample step at loudness `cur` (44_block_mixer.md R216-R218). -/
def State.outputWord (N : Num) (s : State) (cur : F32) : Word :=
  softClip N (fmul (fmul (s.voiceSum N) cur) s.blkAmp)

/-- The loudness target of this sample step (44_block_mixer.md R213, R214). -/
def State.nextTarget (N : Num) (s : State) : F32 := loudnessTarget N s.activeCount s.blkH

/-- The loudness scale of this sample step (44_block_mixer.md R213, R215). -/
def State.nextScale (N : Num) (s : State) : F32 :=
  smoothed s.smoothCoeff s.curScale (s.nextTarget N)

/-- The sequencer after a sample step (44_block_mixer.md R213). -/
def State.endSample (s : State) : State :=
  { s with
    smpLeft := s.smpLeft - 1
    seqMode := if s.smpLeft - 1 = 0 then .idle else s.seqMode }

/-- `SampleStep()`: the frame is computed and written from the state before any voice advances
(44_block_mixer.md R213, R221). -/
def State.sampleStep (c : Config) (s : State) : State :=
  let tgt := s.nextTarget c.num
  let cur := s.nextScale c.num
  let y := s.outputWord c.num cur
  ((({ s with tgtScale := tgt, curScale := cur }).pushFrame c.numChannels y).mapVoices
    Voice.advance).endSample

/-- Whether the output FIFO has room for a whole frame (45_commands.md R240). -/
def State.frameFits (c : Config) (s : State) : Bool :=
  decide (s.outQ.length + c.numChannels ≤ c.outDepth)

end Sys2Proof.Machine
end

