-- ==== Sys2Proof/Machine/TopLevel.lean ====
section
/-! DEFINITION. The meanings of NOP, BLOCK and RATE (45_commands.md R241-R243), in every mode. Each is
what the command does once its words have left the FIFO. -/

namespace Sys2Proof.Machine

/-- NOP under parameters `c`: nothing, but counted as a record in an event list (45_commands.md R243). -/
def nopMeaning (_c : Config) (_ign : BitVec 28) (s : State) : State :=
  s.inContext (fun t => t) (fun t => t)

/-- NOP (45_commands.md R243). -/
def execNop (ign : BitVec 28) (s : State) : Host.Outcome State Fault Refusal :=
  .next (nopMeaning Config.machine ign s)

/-- The mode after an accepted BLOCK (45_commands.md R241). -/
def modeAfterBlock (evCount : BitVec 12) (nSamp : BitVec 16) : SeqMode :=
  if evCount ≠ 0 then .events else if nSamp ≠ 0 then .samples else .idle

/-- An accepted BLOCK: latch, push, then the sequencer (45_commands.md R241). -/
def State.blockAccepted (c : Config) (evCount : BitVec 12) (nSamp : BitVec 16) (s : State) : State :=
  { s.blockLatch.blockPush c with
    evLeft := evCount
    smpLeft := nSamp
    seqMode := modeAfterBlock evCount nSamp }

/-- A BLOCK refused for want of a valid rate: ERR_NORATE, its records to be skipped, no samples
(45_commands.md R241; 60_exceptions.md R275). -/
def State.blockRefused (evCount : BitVec 12) (nSamp : BitVec 16) (s : State) : State :=
  { s.raise .noRate (Instr.block evCount nSamp).header with
    evLeft := evCount
    smpLeft := 0
    seqMode := if evCount ≠ 0 then .skip else .idle }

/-- `Block(w)` (45_commands.md R241). -/
def State.blockCommand (c : Config) (evCount : BitVec 12) (nSamp : BitVec 16) (s : State) : State :=
  if s.rateValid then s.blockAccepted c evCount nSamp else s.blockRefused evCount nSamp

/-- BLOCK under parameters `c`; inside an event list it is a bad record (45_commands.md R241, R244). -/
def blockMeaning (c : Config) (evCount : BitVec 12) (nSamp : BitVec 16) (s : State) : State :=
  s.inContext (State.blockCommand c evCount nSamp)
    (fun t => t.raise .badCmd (Instr.block evCount nSamp).header)

/-- BLOCK (45_commands.md R241). -/
def execBlock (evCount : BitVec 12) (nSamp : BitVec 16) (s : State) :
    Host.Outcome State Fault Refusal :=
  .next (blockMeaning Config.machine evCount nSamp s)

/-- The smoothing coefficient of a rate (45_commands.md R242). -/
def smoothCoeffOf (N : Num) (r : F32) : F32 :=
  fsub kOne (numExp N (fneg (fdiv kOne (fmul k0_02 r))))

/-- An accepted RATE: the rate, the coefficient, and every voice reconfigured (45_commands.md R242). -/
def State.rateAccept (c : Config) (r : F32) (s : State) : State :=
  ({ s with
      sampleRate := r
      rateValid := true
      smoothCoeff := smoothCoeffOf c.num r }).mapVoices (Voice.configure c.num r)

/-- `Rate(w, X)` (45_commands.md R242). -/
def State.rateCommand (c : Config) (x : Word) (s : State) : State :=
  if rateAccepted x then s.rateAccept c x else s.raise .badRate x

/-- RATE under parameters `c`; inside an event list it is a bad record (45_commands.md R242, R244). -/
def rateMeaning (c : Config) (ign : BitVec 28) (x : Word) (s : State) : State :=
  s.inContext (State.rateCommand c x) (fun t => t.raise .badCmd (Instr.rate ign x).header)

/-- RATE (45_commands.md R242). -/
def execRate (ign : BitVec 28) (x : Word) (s : State) : Host.Outcome State Fault Refusal :=
  .next (rateMeaning Config.machine ign x s)

end Sys2Proof.Machine
end

