-- ==== Sys2Proof/Machine/Events.lean ====
section
/-! DEFINITION. The meanings of NOTEON, NOTEOFF and ALLOFF (45_commands.md R245-R247), in every mode. -/

namespace Sys2Proof.Machine

/-- `NoteOn(n, X)` (45_commands.md R245). -/
def State.noteOnEvent (c : Config) (n : BitVec 8) (x : Word) (s : State) : State :=
  let found := s.findFree
  { s.setVoice found.1 ((s.voice found.1).start c.num s.sampleRate n (scaledVelocity x)) with
    lastAlloc := ⟨found.1, found.2, true⟩ }

/-- NOTEON under parameters `c`; at top level it is illegal (45_commands.md R245, R249). -/
def noteOnMeaning (c : Config) (ign : BitVec 20) (note : BitVec 8) (x : Word) (s : State) : State :=
  s.inContext (fun t => t.raise .badCmd (Instr.noteOn ign note x).header)
    (State.noteOnEvent c note x)

/-- NOTEON (45_commands.md R245). -/
def execNoteOn (ign : BitVec 20) (note : BitVec 8) (x : Word) (s : State) :
    Host.Outcome State Fault Refusal :=
  .next (noteOnMeaning Config.machine ign note x s)

/-- `NoteOff(n)`: an unmatched note is ignored (45_commands.md R246). -/
def State.noteOffEvent (n : BitVec 8) (s : State) : State :=
  match s.findNote n with
  | some i => s.setVoice i (s.voice i).stop
  | none => s

/-- NOTEOFF under parameters `c`; at top level it is illegal (45_commands.md R246, R249). -/
def noteOffMeaning (_c : Config) (ign : BitVec 20) (note : BitVec 8) (s : State) : State :=
  s.inContext (fun t => t.raise .badCmd (Instr.noteOff ign note).header) (State.noteOffEvent note)

/-- NOTEOFF (45_commands.md R246). -/
def execNoteOff (ign : BitVec 20) (note : BitVec 8) (s : State) :
    Host.Outcome State Fault Refusal :=
  .next (noteOffMeaning Config.machine ign note s)

/-- ALLOFF under parameters `c`: stop every voice; at top level it is illegal (45_commands.md R247,
R249). -/
def allOffMeaning (_c : Config) (ign : BitVec 28) (s : State) : State :=
  s.inContext (fun t => t.raise .badCmd (Instr.allOff ign).header)
    (fun t => t.mapVoices Voice.stop)

/-- ALLOFF (45_commands.md R247). -/
def execAllOff (ign : BitVec 28) (s : State) : Host.Outcome State Fault Refusal :=
  .next (allOffMeaning Config.machine ign s)

end Sys2Proof.Machine
end

