-- ==== Sys2Proof/Machine/Dispatch.lean ====
section
/-! DEFINITION. One arm per constructor of Instr. -/

namespace Sys2Proof.Machine

/-- What a command does once its words have left the command FIFO (45_commands.md R240-R249). -/
def exec (i : Instr) (s : State) : Host.Outcome State Fault Refusal :=
  match i with
  | .nop ign => Sys2Proof.Machine.execNop ign s
  | .block evCount nSamp => Sys2Proof.Machine.execBlock evCount nSamp s
  | .rate ign x => Sys2Proof.Machine.execRate ign x s
  | .noteOn ign note x => Sys2Proof.Machine.execNoteOn ign note x s
  | .noteOff ign note => Sys2Proof.Machine.execNoteOff ign note s
  | .allOff ign => Sys2Proof.Machine.execAllOff ign s

end Sys2Proof.Machine
end

