-- ==== Sys2Proof/Machine/Window.lean ====
section
/-! DEFINITION. The register window (10_state.md R50-R67) and the host accesses to it (20_memory.md
R80-R90; 45_commands.md R250-R254). -/

namespace Sys2Proof.Machine

/-- The registers of 10_state.md R50. -/
inductive Reg where
  | config
  | status
  | fifoStatus
  | errInfo
  | masterAmp
  | harmonicCount
  | releaseTime
  | sampleRate
  | activeVoices
  | loudnessScale
  | voiceMask
  | lastAlloc
  | attackTime
  | cmdFifo
  | outFifo
  | reserved
  deriving DecidableEq, Repr

/-- The register at a word-aligned offset; every other offset is reserved (10_state.md R50, R67). -/
def regAt (off : Nat) : Reg :=
  match off with
  | 0x00 => .config
  | 0x04 => .status
  | 0x08 => .fifoStatus
  | 0x0C => .errInfo
  | 0x10 => .masterAmp
  | 0x14 => .harmonicCount
  | 0x18 => .releaseTime
  | 0x1C => .sampleRate
  | 0x20 => .activeVoices
  | 0x24 => .loudnessScale
  | 0x28 => .voiceMask
  | 0x2C => .lastAlloc
  | 0x30 => .attackTime
  | 0x40 => .cmdFifo
  | 0x44 => .outFifo
  | _ => .reserved

/-- CONFIG: VERSION, NUM_CHANNELS, TABLE_LOG2, MAX_HARMONICS, MAX_VOICES (10_state.md R52). -/
def configWord (c : Config) : Word :=
  0x01#8 ++ BitVec.ofNat 4 c.numChannels ++ 0xC#4 ++ 0x20#8 ++ 0x10#8

/-- FIFO_STATUS: OUT_AVAIL in [31:16], CMD_FREE in [15:0] (10_state.md R54). -/
def State.fifoStatusWord (c : Config) (s : State) : Word :=
  BitVec.ofNat 16 s.outQ.length ++ BitVec.ofNat 16 (c.cmdDepth - s.cmdQ.length)

/-- VOICE_MASK: bit `i` is active, bit `16 + i` is releasing (10_state.md R62). -/
def State.voiceMaskWord (s : State) : Word :=
  BitVec.ofNat 32 ((List.finRange 16).foldl
    (fun m i => m + (if (s.voice i).active then 2 ^ i.val else 0)
      + (if (s.voice i).stage = .release then 2 ^ (16 + i.val) else 0)) 0)

/-- LAST_ALLOC: voice [3:0], tier [5:4], valid [8] (10_state.md R63). -/
def AllocRecord.word (a : AllocRecord) : Word :=
  0#23 ++ BitVec.ofBool a.valid ++ 0#2 ++ a.tier ++ BitVec.ofNat 4 a.voice.val

/-- The word a legal read of a register returns (10_state.md R52-R67; 45_commands.md R251, R253). -/
def State.readReg (c : Config) (s : State) : Reg → Word
  | .config => configWord c
  | .status => s.statusWord
  | .fifoStatus => s.fifoStatusWord c
  | .errInfo => s.errInfo
  | .masterAmp => s.regMasterAmp
  | .harmonicCount => s.regHarmonicCount
  | .releaseTime => s.regReleaseTime
  | .sampleRate => s.sampleRate
  | .activeVoices => BitVec.ofNat 32 s.activeCount
  | .loudnessScale => s.curScale
  | .voiceMask => s.voiceMaskWord
  | .lastAlloc => s.lastAlloc.word
  | .attackTime => c.attackTime
  | .cmdFifo => 0
  | .outFifo => s.outQ.headD 0
  | .reserved => 0

/-- The byte lane at an offset of the window, little-endian (20_memory.md R83). -/
def State.windowByte (c : Config) (s : State) (off : Nat) : BitVec 8 :=
  (s.readReg c (regAt (off - off % 4))).extractLsb' (8 * (off % 4)) 8

/-- What a legal read leaves: OUT_FIFO pops or raises ERR_UNDERFLOW, every other read changes nothing
(20_memory.md R85; 45_commands.md R251, R253). -/
def State.afterRead (s : State) : Reg → State
  | .outFifo =>
    match s.outQ with
    | [] => s.raise .underflow (busDescriptor 0x44 .word .read)
    | _ :: rest => { s with outQ := rest }
  | .config | .status | .fifoStatus | .errInfo | .masterAmp | .harmonicCount | .releaseTime
  | .sampleRate | .activeVoices | .loudnessScale | .voiceMask | .lastAlloc | .attackTime
  | .cmdFifo | .reserved => s

/-- A legal write, or none while a full command FIFO holds it (20_memory.md R86, R89; 45_commands.md
R250, R252, R254). -/
def State.writeReg (c : Config) (s : State) (r : Reg) (w : Word) : Option State :=
  match r with
  | .status => some (s.acknowledge w)
  | .masterAmp => some { s with regMasterAmp := w }
  | .harmonicCount => some { s with regHarmonicCount := w }
  | .releaseTime => some { s with regReleaseTime := w }
  | .cmdFifo => if s.cmdQ.length < c.cmdDepth then some { s with cmdQ := s.cmdQ ++ [w] } else none
  | .config | .fifoStatus | .errInfo | .sampleRate | .activeVoices | .loudnessScale | .voiceMask
  | .lastAlloc | .attackTime | .outFifo | .reserved => some s

/-- A legal access is a 32-bit access at an offset that is a multiple of 4 (20_memory.md R82). -/
def legalAccess (off : Nat) (size : AccessSize) : Bool := size == .word && off % 4 == 0

/-- One host access at an offset of the window: the word a read returns and the state after it, or
none while it is held (20_memory.md R82-R89). -/
def State.hostAccess (c : Config) (s : State) (off : Nat) (size : AccessSize) (op : AccessOp) :
    Option (Option Word × State) :=
  if legalAccess off size then
    match op with
    | .read => some (some (s.readReg c (regAt off)), s.afterRead (regAt off))
    | .write w => (s.writeReg c (regAt off) w).map fun s' => (none, s')
  else
    match op with
    | .read => some (some 0, s.raise .bus (busDescriptor off size op))
    | .write _ => some (none, s.raise .bus (busDescriptor off size op))

/-- Whether an address reaches the window (20_memory.md R81). -/
def inWindow (c : Config) (addr : Nat) : Bool := decide (c.base ≤ addr ∧ addr < c.base + 256)

/-- The state once an agent's access has been served: the access is done and a read's word recorded. -/
def State.served (s : State) (a : Agent) (rest : List Access) (addr : Nat) (data : Option Word) :
    State :=
  { s with
    pending := s.pending.put a rest
    replies := match data with
      | some w => s.replies ++ [⟨a, addr, w⟩]
      | none => s.replies }

/-- One turn of a host agent: its next access in program order takes effect, or is held
(20_memory.md R88-R90). -/
def hostTurn (c : Config) (a : Agent) (s : State) : Host.Outcome State Fault Refusal :=
  match s.pending.of a with
  | [] => .next s
  | acc :: rest =>
    if inWindow c acc.addr then
      match s.hostAccess c (acc.addr - c.base) acc.size acc.op with
      | none => .next s
      | some (data, s') => .next (s'.served a rest acc.addr data)
    else .fault .outsideWindow

end Sys2Proof.Machine
end

