-- ==== Sys2Proof/Machine/Engine.lean ====
section
/-! DEFINITION. The engine's turn (45_commands.md R240) and the turns of a whole machine (20_memory.md
R88, R90; 70_reset_and_hazards.md R300), under parameters `c` and with the meanings `ex`. -/

namespace Sys2Proof.Machine

/-- All six meanings under parameters `c`; at the machine's own parameters this is what `exec` does. -/
def runWith (c : Config) (i : Instr) (s : State) : State :=
  match i with
  | .nop ign => nopMeaning c ign s
  | .block evCount nSamp => blockMeaning c evCount nSamp s
  | .rate ign x => rateMeaning c ign x s
  | .noteOn ign note x => noteOnMeaning c ign note x s
  | .noteOff ign note => noteOffMeaning c ign note s
  | .allOff ign => allOffMeaning c ign s

/-- The engine at a header: it waits for a whole command, consumes it and runs it; a reserved opcode
is consumed and reported (45_commands.md R240, R244, R248, R249). -/
def headerStep (ex : Instr → State → Host.Outcome State Fault Refusal) (s : State) :
    Host.Outcome State Fault Refusal :=
  match decode s.cmdQ with
  | .ok (i, rest) => ex i (s.withCmdQ rest)
  | .error .empty => .next s
  | .error (.missingOperand _) => .next s
  | .error (.reserved w) => .next ((s.withCmdQ (s.cmdQ.drop (headerLen w))).badHeader w)

/-- The engine's turn: the step of its mode if it is enabled, else it waits and nothing changes
(45_commands.md R240). DESIGN CHOICE, safe: the waiting turn is a step (log entry 4). -/
def engineTurn (c : Config) (ex : Instr → State → Host.Outcome State Fault Refusal) (s : State) :
    Host.Outcome State Fault Refusal :=
  match s.seqMode with
  | .idle => headerStep ex s
  | .events => headerStep ex s
  | .skip => headerStep ex s
  | .samples => if s.frameFits c then .next (s.sampleStep c) else .next s

/-- Reset asserted and released: the core takes its reset values, the world around it keeps its own
(70_reset_and_hazards.md R300, R304). DESIGN CHOICE, unsafe for accesses during reset (log entry 9). -/
def State.afterReset (c : Config) (s : State) : State :=
  { State.resetWith c with pending := s.pending, schedule := s.schedule, replies := s.replies }

/-- One turn. -/
def takeTurn (c : Config) (ex : Instr → State → Host.Outcome State Fault Refusal) (t : Turn)
    (s : State) : Host.Outcome State Fault Refusal :=
  match t with
  | .engine => engineTurn c ex s
  | .host a => hostTurn c a s
  | .reset => .next (s.afterReset c)

/-- The next scheduled turn; with nothing scheduled the engine has it. DESIGN CHOICE, safe for claims about
every schedule (log entry 3). -/
def scheduledTurn (c : Config) (ex : Instr → State → Host.Outcome State Fault Refusal) (s : State) :
    Host.Outcome State Fault Refusal :=
  match s.schedule with
  | [] => engineTurn c ex s
  | t :: rest => takeTurn c ex t { s with schedule := rest }

/-- The sequencer in a context that decodes the header `w` as a command it can be: an event list for
the event opcodes, top level for all others (30_encoding.md R113). -/
def State.readyFor (s : State) (w : Word) : State :=
  if opcode w = 0x8#4 ∨ opcode w = 0x9#4 ∨ opcode w = 0xB#4 then
    { s with seqMode := .events, evLeft := if s.evLeft = 0 then 1 else s.evLeft }
  else { s with seqMode := .idle, evLeft := 0, smpLeft := 0 }

/-- The words `ws` stored over the head of the command FIFO. -/
def State.placeWords (s : State) (ws : List Word) : State :=
  s.withCmdQ (ws ++ s.cmdQ.drop ws.length)

end Sys2Proof.Machine
end

