-- ==== Sys2Proof/Machine/Step.lean ====
section
/-! DEFINITION. One step of the machine: one turn of the engine, of a host agent or of the reset input. -/

namespace Sys2Proof.Machine

/-- One step (20_memory.md R88, R90; 45_commands.md R240). -/
def step (s : State) : Host.Outcome State Fault Refusal := scheduledTurn Config.machine exec s

/-- The instruction with bits `w` stored at the head of the command FIFO, the sequencer in a context
that decodes it, and the engine to move next. DESIGN CHOICE, safe: no step uses it (log entry 6). -/
def State.withFetchWord (s : State) (nbits w : Nat) : State :=
  let ready := (s.placeWords (tableWords nbits w)).readyFor (BitVec.ofNat 32 (w % 2 ^ nbits))
  { ready with schedule := Turn.engine :: s.schedule }

end Sys2Proof.Machine
end

