-- ==== Sys2Proof/Machine/Assembler.lean ====
section
/-! DEFINITION. The assembly language of 30_encoding.md R125-R127: lines, their ranges, the words they
encode, the pseudo-instructions, and the register accesses of a host program. -/

namespace Sys2Proof.Machine

/-- A float literal: a decimal number `± num / den`, or an exact bit pattern (30_encoding.md R125). -/
inductive FloatLit where
  | decimal (neg : Bool) (num den : Nat)
  | pattern (bits : Nat)
  deriving DecidableEq, Repr

/-- A line that is a command or an event record, its operands as written (30_encoding.md R125). -/
inductive AsmLine where
  | nop
  | block (nsamp evcount : Nat)
  | rate (f : FloatLit)
  | noteOn (note : Nat) (f : FloatLit)
  | noteOff (note : Nat)
  | allOff
  deriving DecidableEq, Repr

/-- Why a line is an assembly error (30_encoding.md R125). -/
inductive AsmError where
  | nsampRange
  | evcountRange
  | noteRange
  | patternRange
  | tooManyRecords
  | valueRange
  | syntaxError
  deriving DecidableEq, Repr

/-- The pattern of a float literal: the nearest binary32 of a decimal, or the exact bits
(30_encoding.md R125). -/
def FloatLit.bits : FloatLit → Except AsmError Word
  | .decimal neg num den => .ok (pack neg (roundUnits (num * 2 ^ 149) den))
  | .pattern b => if b < 2 ^ 32 then .ok (BitVec.ofNat 32 b) else .error .patternRange

/-- The command of a line; an operand out of its field's range is an error, never truncated
(30_encoding.md R125). -/
def AsmLine.assemble : AsmLine → Except AsmError Instr
  | .nop => .ok (.nop 0)
  | .block nsamp evcount =>
    if nsamp < 2 ^ 16 then
      if evcount < 2 ^ 12 then .ok (.block (BitVec.ofNat 12 evcount) (BitVec.ofNat 16 nsamp))
      else .error .evcountRange
    else .error .nsampRange
  | .rate f => f.bits.map fun x => .rate 0 x
  | .noteOn note f =>
    if note < 2 ^ 8 then f.bits.map fun x => .noteOn 0 (BitVec.ofNat 8 note) x
    else .error .noteRange
  | .noteOff note =>
    if note < 2 ^ 8 then .ok (.noteOff 0 (BitVec.ofNat 8 note)) else .error .noteRange
  | .allOff => .ok (.allOff 0)

/-- The words of a list of lines, in order. -/
def assembleAll : List AsmLine → Except AsmError (List Word)
  | [] => .ok []
  | l :: rest =>
    match l.assemble, assembleAll rest with
    | .ok i, .ok ws => .ok (encode i ++ ws)
    | .error e, _ => .error e
    | .ok _, .error e => .error e

/-- The pseudo-instructions (30_encoding.md R126). -/
inductive Pseudo where
  | play (nsamp : Nat) (records : List AsmLine)
  | silence (nsamp : Nat)
  | panic
  | apply (records : List AsmLine)
  deriving DecidableEq, Repr

/-- The expansion of a pseudo-instruction (30_encoding.md R126). -/
def Pseudo.expand : Pseudo → Except AsmError (List AsmLine)
  | .play nsamp records =>
    if records.length ≤ 4095 then .ok (.block nsamp records.length :: records)
    else .error .tooManyRecords
  | .silence nsamp => .ok [.block nsamp 0]
  | .panic => .ok [.block 0 1, .allOff]
  | .apply records =>
    if records.length ≤ 4095 then .ok (.block 0 records.length :: records)
    else .error .tooManyRecords

/-- The words of a pseudo-instruction: those of its expansion (30_encoding.md R126). -/
def Pseudo.assemble (p : Pseudo) : Except AsmError (List Word) := p.expand.bind assembleAll

/-- The offset of a register name (10_state.md R50); `reserved` names no register. -/
def Reg.offset : Reg → Option Nat
  | .config => some 0x00
  | .status => some 0x04
  | .fifoStatus => some 0x08
  | .errInfo => some 0x0C
  | .masterAmp => some 0x10
  | .harmonicCount => some 0x14
  | .releaseTime => some 0x18
  | .sampleRate => some 0x1C
  | .activeVoices => some 0x20
  | .loudnessScale => some 0x24
  | .voiceMask => some 0x28
  | .lastAlloc => some 0x2C
  | .attackTime => some 0x30
  | .cmdFifo => some 0x40
  | .outFifo => some 0x44
  | .reserved => none

/-- A value of `WR`: an integer or a float literal (30_encoding.md R127). -/
inductive ValueLit where
  | integer (n : Nat)
  | float (f : FloatLit)
  deriving DecidableEq, Repr

/-- The 32-bit word of a `WR` value. -/
def ValueLit.word : ValueLit → Except AsmError Word
  | .integer n => if n < 2 ^ 32 then .ok (BitVec.ofNat 32 n) else .error .valueRange
  | .float f => f.bits

/-- A line of a host program: a register access, WAITIDLE, or a command line, pseudo-instructions included
(30_encoding.md R126, R127). -/
inductive HostLine where
  | wr (r : Reg) (v : ValueLit)
  | rd (r : Reg)
  | waitIdle
  | command (l : AsmLine)
  | pseudo (p : Pseudo)
  deriving DecidableEq, Repr

/-- A 32-bit write of a word at a window offset. -/
def writeAccess (c : Config) (off : Nat) (w : Word) : Access := ⟨c.base + off, .word, .write w⟩

/-- A 32-bit read at a window offset. -/
def readAccess (c : Config) (off : Nat) : Access := ⟨c.base + off, .word, .read⟩

/-- The accesses of one host line; a command line is a CMD_FIFO write per word, and WAITIDLE is a STATUS
read, which the host repeats until `statusDrained` (`HostRun.issue`; 30_encoding.md R127). -/
def HostLine.accesses (c : Config) : HostLine → Except AsmError (List Access)
  | .wr r v =>
    match r.offset with
    | some off => v.word.map fun w => [writeAccess c off w]
    | none => .error .syntaxError
  | .rd r =>
    match r.offset with
    | some off => .ok [readAccess c off]
    | none => .error .syntaxError
  | .waitIdle => .ok [readAccess c 0x04]
  | .command l => (l.assemble).map fun i => (encode i).map fun w => writeAccess c 0x40 w
  | .pseudo p => p.assemble.map fun ws => ws.map fun w => writeAccess c 0x40 w

/-- The condition WAITIDLE waits for, in a STATUS word: CMD_EMPTY = 1 and BUSY = 0 (20_memory.md R95). -/
def statusDrained (status : Word) : Bool := status.getLsbD 2 && !status.getLsbD 1

/-! ## The text of a host program (DESIGN CHOICE, safe: no step uses it, log entry 12) -/

/-- A line without its comment (30_encoding.md R125). -/
def stripComment : List Char → List Char
  | [] => []
  | c :: rest => if c = ';' then [] else c :: stripComment rest

/-- The tokens of a line: words separated by blanks, and commas on their own. -/
def tokens (cur : List Char) : List Char → List (List Char)
  | [] => if cur = [] then [] else [cur.reverse]
  | c :: rest =>
    if c = ' ' ∨ c = '\t' then (if cur = [] then [] else [cur.reverse]) ++ tokens [] rest
    else if c = ',' then (if cur = [] then [] else [cur.reverse]) ++ [','] :: tokens [] rest
    else tokens (c :: cur) rest

/-- A digit of a base up to 16. -/
def digitValue (base : Nat) (c : Char) : Option Nat :=
  let n := c.toNat
  let d := if 48 ≤ n ∧ n ≤ 57 then n - 48 else if 65 ≤ n ∧ n ≤ 70 then n - 55
    else if 97 ≤ n ∧ n ≤ 102 then n - 87 else 16
  if d < base then some d else none

/-- A nonempty run of digits as a number. -/
def digits (base : Nat) (l : List Char) : Option Nat :=
  if l = [] then none
  else l.foldl (fun acc c => acc.bind fun a => (digitValue base c).map fun d => a * base + d) (some 0)

/-- An integer, decimal or `0x` hexadecimal (30_encoding.md R125). -/
def parseInt : List Char → Option Nat
  | '0' :: 'x' :: rest => digits 16 rest
  | l => digits 10 l

/-- A decimal number: digits, and digits behind a point. DESIGN CHOICE, safe: the spec gives no grammar, and
here there are digits on both sides of a point and no exponent (log entry 12). -/
def parseDecimal (neg : Bool) (l : List Char) : Option FloatLit :=
  let whole := l.takeWhile fun c => c != '.'
  match l.drop whole.length with
  | [] => (digits 10 whole).map fun n => .decimal neg n 1
  | _ :: frac =>
    match digits 10 whole, digits 10 frac with
    | some n, some f => some (.decimal neg (n * 10 ^ frac.length + f) (10 ^ frac.length))
    | _, _ => none

/-- A float literal: `#0xHHHHHHHH` or a decimal number (30_encoding.md R125). DESIGN CHOICE, safe: the spec
writes eight digits and does not say what fewer or more mean, and here any nonempty run of hexadecimal
digits is a pattern if its value is below 2^32, and else an assembly error (log entry 12). -/
def parseFloat : List Char → Option FloatLit
  | '#' :: '0' :: 'x' :: rest => (digits 16 rest).map .pattern
  | '-' :: rest => parseDecimal true rest
  | l => parseDecimal false l

/-- The value of `WR`: a float when it has a point, a sign or `#`, else an integer. -/
def parseValue (l : List Char) : Option ValueLit :=
  if l.any fun c => c = '.' ∨ c = '-' ∨ c = '#' then (parseFloat l).map .float
  else (parseInt l).map .integer

/-- The register names of 10_state.md R50. -/
def regNames : List (List Char × Reg) :=
  [("CONFIG".toList, .config), ("STATUS".toList, .status), ("FIFO_STATUS".toList, .fifoStatus),
   ("ERR_INFO".toList, .errInfo), ("MASTER_AMP".toList, .masterAmp),
   ("HARMONIC_COUNT".toList, .harmonicCount), ("RELEASE_TIME".toList, .releaseTime),
   ("SAMPLE_RATE".toList, .sampleRate), ("ACTIVE_VOICES".toList, .activeVoices),
   ("LOUDNESS_SCALE".toList, .loudnessScale), ("VOICE_MASK".toList, .voiceMask),
   ("LAST_ALLOC".toList, .lastAlloc), ("ATTACK_TIME".toList, .attackTime),
   ("CMD_FIFO".toList, .cmdFifo), ("OUT_FIFO".toList, .outFifo)]

/-- A register by its name. -/
def parseReg (l : List Char) : Option Reg := (regNames.find? fun p => p.1 == l).map fun p => p.2

/-- The tokens of a line of plain syntax (30_encoding.md R125, R127). -/
def parseTokens : List (List Char) → Option HostLine
  | [a] =>
    if a = "NOP".toList then some (.command .nop)
    else if a = "ALLOFF".toList then some (.command .allOff)
    else if a = "WAITIDLE".toList then some .waitIdle
    else if a = "PANIC".toList then some (.pseudo .panic)
    else none
  | [a, x] =>
    if a = "RATE".toList then (parseFloat x).map fun f => .command (.rate f)
    else if a = "NOTEOFF".toList then (parseInt x).map fun n => .command (.noteOff n)
    else if a = "RD".toList then (parseReg x).map .rd
    else if a = "SILENCE".toList then (parseInt x).map fun n => .pseudo (.silence n)
    else none
  | [a, x, comma, y] =>
    if comma ≠ [','] then none
    else if a = "BLOCK".toList then
      (parseInt x).bind fun n => (parseInt y).map fun e => .command (.block n e)
    else if a = "NOTEON".toList then
      (parseInt x).bind fun n => (parseFloat y).map fun f => .command (.noteOn n f)
    else if a = "WR".toList then
      (parseReg x).bind fun r => (parseValue y).map fun v => .wr r v
    else none
  | _ => none

/-- The brace that opens a list of records (30_encoding.md R126). -/
def openBrace : Char := Char.ofNat 123
/-- The brace that closes a list of records (30_encoding.md R126). -/
def closeBrace : Char := Char.ofNat 125

/-- The pieces of a text between the occurrences of a character. -/
def splitAt (sep : Char) (cur : List Char) : List Char → List (List Char)
  | [] => [cur.reverse]
  | c :: rest => if c = sep then cur.reverse :: splitAt sep [] rest else splitAt sep (c :: cur) rest

/-- A text up to the first occurrence of a character, and what follows it if there is one. -/
def cutAt (sep : Char) : List Char → List Char × Option (List Char)
  | [] => ([], none)
  | c :: rest => if c = sep then ([], some rest) else (c :: (cutAt sep rest).1, (cutAt sep rest).2)

/-- The records between braces, each piece a command line; blank pieces are none. -/
def parseRecords : List (List Char) → Option (List AsmLine)
  | [] => some []
  | piece :: rest =>
    match tokens [] piece with
    | [] => parseRecords rest
    | ts =>
      match parseTokens ts with
      | some (.command l) => (parseRecords rest).map fun ls => l :: ls
      | _ => none

/-- A pseudo-instruction with a list of records, from the tokens before its brace (30_encoding.md R126). -/
def parseBraced (records : List AsmLine) : List (List Char) → Option Pseudo
  | [a] => if a = "APPLY".toList then some (.apply records) else none
  | [a, x] => if a = "PLAY".toList then (parseInt x).map fun n => .play n records else none
  | _ => none

/-- A line of plain syntax, its comment cut off. -/
def parsePlain (line : List Char) : Except AsmError (Option HostLine) :=
  match tokens [] (stripComment line) with
  | [] => .ok none
  | ts =>
    match parseTokens ts with
    | some l => .ok (some l)
    | none => .error .syntaxError

/-- A line with a list of records: `head` stands before its brace and `tail` behind it, and nothing but a
comment follows the closing brace. -/
def parseList (head tail : List Char) : Except AsmError (Option HostLine) :=
  match cutAt closeBrace tail with
  | (_, none) => .error .syntaxError
  | (body, some after) =>
    match tokens [] (stripComment after),
      (parseRecords (splitAt ';' [] body)).bind fun rs => parseBraced rs (tokens [] head) with
    | [], some p => .ok (some (.pseudo p))
    | _, _ => .error .syntaxError

/-- One line of text: nothing, or a line of a host program (30_encoding.md R125-R127). A brace before any
comment begins a list of records, in which `;` separates them. -/
def parseLine (line : List Char) : Except AsmError (Option HostLine) :=
  match cutAt openBrace (stripComment line), cutAt openBrace line with
  | (head, some _), (_, some tail) => parseList head tail
  | _, _ => parsePlain line

/-- The lines of a text. A list of records may run over several lines, each line's end then separating
records as `;` does. -/
def textLines (braced comment : Bool) (cur : List Char) : List Char → List (List Char)
  | [] => [cur.reverse]
  | c :: rest =>
    if c = '\n' then
      if braced then textLines true false (';' :: cur) rest
      else cur.reverse :: textLines false false [] rest
    else if comment then textLines braced true (c :: cur) rest
    else textLines ((braced || c == openBrace) && c != closeBrace) (!braced && c == ';') (c :: cur) rest

/-- The lines of a text, parsed in order. -/
def parseLines : List (List Char) → Except AsmError (List HostLine)
  | [] => .ok []
  | l :: rest =>
    match parseLine l, parseLines rest with
    | .ok (some h), .ok hs => .ok (h :: hs)
    | .ok none, .ok hs => .ok hs
    | .error e, _ => .error e
    | .ok _, .error e => .error e

/-- A host program's text (30_encoding.md R125-R127). -/
def parseProgram (text : List Char) : Except AsmError (List HostLine) :=
  parseLines (textLines false false [] text)

end Sys2Proof.Machine
end

