-- ==== Sys2Proof/Machine/Reference.lean ====
section
/-! DEFINITION. The reference configuration of 00_scope.md R14: what it is (the correctly rounded value
of each exact real function), the properties of NUM that proofs may assume
(93_implementation_defined.md I6), and one computable NUM written to be it, for test vectors. No
step of the machine uses this file: its NUM is open. -/

namespace Sys2Proof.Machine

/-- `b` is the binary32 nearest to the real `r`, ties to even, overflow to a signed infinity
(00_scope.md R13, R14). The sign of a zero is that of a nonzero `r`, and is left free for `r = 0`. -/
def CorrectlyRounded (r : ℝ) (b : F32) : Prop :=
  (2 ^ 128 - 2 ^ 103 ≤ r ∧ b = posInf) ∨
  (r ≤ -(2 ^ 128 - 2 ^ 103) ∧ b = fneg posInf) ∨
  (|r| < 2 ^ 128 - 2 ^ 103 ∧ isFinite b = true ∧
    (∀ b' : F32, isFinite b' = true → |(value b : ℝ) - r| ≤ |(value b' : ℝ) - r|) ∧
    (∀ b' : F32, isFinite b' = true → value b' ≠ value b →
      |(value b : ℝ) - r| = |(value b' : ℝ) - r| → b.toNat % 2 = 0) ∧
    (isZero b = true → r ≠ 0 → (signBit b = true ↔ r < 0)))

/-- NUM is the reference configuration (00_scope.md R14; 40_wavetable.md R140). -/
structure IsReference (N : Num) : Prop where
  exp : ∀ x, isFinite x = true → CorrectlyRounded (Real.exp (value x)) (N.exp x)
  expNegInf : N.exp (fneg posInf) = posZero
  expPosInf : N.exp posInf = posInf
  exp2 : ∀ x, isFinite x = true → CorrectlyRounded ((2 : ℝ) ^ (value x : ℝ)) (N.exp2 x)
  log10 : ∀ n : Nat, 3 ≤ n → n ≤ 33 →
    CorrectlyRounded (Real.log n / Real.log 10) (N.log10 (i2f n))
  tanh : ∀ x, isFinite x = true → CorrectlyRounded (Real.tanh (value x)) (N.tanh x)
  tanhPosInf : N.tanh posInf = kOne
  tanhNegInf : N.tanh (fneg posInf) = fneg kOne
  powi : ∀ x k, isFinite x = true → 1 ≤ k → k ≤ 32 →
    CorrectlyRounded ((value x : ℝ) ^ k) (N.powi x k)
  sinTable : ∀ i : Fin 4096,
    CorrectlyRounded (Real.sin (2 * Real.pi * i.val / 4096)) (N.sinTable i)
  sinTableZeros : N.sinTable 0 = posZero ∧ N.sinTable 2048 = posZero
  nan : ∀ x, isNaN x = true → isNaN (N.exp x) = true ∧ isNaN (N.exp2 x) = true ∧
    isNaN (N.log10 x) = true ∧ isNaN (N.tanh x) = true ∧ ∀ k, isNaN (N.powi x k) = true

/-- I6 (a): `tanh` is monotone non-decreasing. -/
def TanhMonotone (N : Num) : Prop := ∀ a b, fle a b = true → fle (N.tanh a) (N.tanh b) = true
/-- I6 (b): `0 ≤ tanh(t) ≤ 1` for `t > 0`, and `tanh(+inf) = 1`. -/
def TanhBounded (N : Num) : Prop :=
  (∀ t, fgt t posZero = true → fle posZero (N.tanh t) = true ∧ fle (N.tanh t) kOne = true) ∧
    N.tanh posInf = kOne
/-- I6 (c): `tanh` is odd. -/
def TanhOdd (N : Num) : Prop := ∀ t, isNaN t = false → N.tanh (fneg t) = fneg (N.tanh t)
/-- I6 (d): `exp(x)` is in [0, 1] for `x ≤ 0`, and `exp(-inf) = +0`. -/
def ExpBounded (N : Num) : Prop :=
  (∀ x, fle x posZero = true → fle posZero (N.exp x) = true ∧ fle (N.exp x) kOne = true) ∧
    N.exp (fneg posInf) = posZero
/-- I6 (e): `log10(n)` is finite and positive for the integers 3..33. -/
def Log10Positive (N : Num) : Prop :=
  ∀ n : Nat, 3 ≤ n → n ≤ 33 →
    isFinite (N.log10 (i2f n)) = true ∧ fgt (N.log10 (i2f n)) posZero = true
/-- I6 (f): `exp2` is positive and finite at the arguments of `Pitch`. -/
def Exp2Positive (N : Num) : Prop :=
  ∀ n : BitVec 8, let e := N.exp2 (fdiv (fsub (i2f n.toNat) k69) k12)
    isFinite e = true ∧ fgt e posZero = true
/-- I6 (g): the powers of the gain table are finite and at least 1. -/
def PowiBounded (N : Num) : Prop :=
  ∀ k, 1 ≤ k → k ≤ 32 →
    (isFinite (N.powi k1_1 k) = true ∧ fge (N.powi k1_1 k) kOne = true) ∧
      (isFinite (N.powi k1_6 k) = true ∧ fge (N.powi k1_6 k) kOne = true)
/-- I6 (h): the wavetable lies in [-1, 1], with its exact quarter points. -/
def SinTableBounded (N : Num) : Prop :=
  (∀ i, fle (fneg kOne) (N.sinTable i) = true ∧ fle (N.sinTable i) kOne = true) ∧
    feq (N.sinTable 0) posZero = true ∧ feq (N.sinTable 2048) posZero = true ∧
    N.sinTable 1024 = kOne ∧ N.sinTable 3072 = fneg kOne
/-- I6 (i): every function returns NaN for a NaN argument. -/
def NaNPropagates (N : Num) : Prop :=
  ∀ x, isNaN x = true → isNaN (N.exp x) = true ∧ isNaN (N.exp2 x) = true ∧
    isNaN (N.log10 x) = true ∧ isNaN (N.tanh x) = true ∧ ∀ k, isNaN (N.powi x k) = true

/-! ## One computable NUM (log entry 7): fixed-point series to 256 bits, rounded once. -/

/-- One, in the fixed point of this section. -/
def fixOne : Nat := 2 ^ 256

/-- `atanh(z)` for `0 ≤ z ≤ 1/3`, by its series. -/
def fixAtanh (z : Nat) : Nat :=
  let z2 := z * z / fixOne
  z * (List.range 90).foldl (fun acc j => fixOne / (2 * (89 - j) + 1) + z2 * acc / fixOne) 0 / fixOne

/-- `ln y` for `1 ≤ y < 2`. -/
def fixLn (y : Nat) : Nat := 2 * fixAtanh ((y - fixOne) * fixOne / (y + fixOne))

/-- `ln 2`. -/
def fixLn2 : Nat := 2 * fixAtanh (fixOne / 3)

/-- `ln 10`. -/
def fixLn10 : Nat := fixLn (fixOne + fixOne / 4) + 3 * fixLn2

/-- `e^r` for `0 ≤ r < 1`. -/
def fixExp (r : Nat) : Nat :=
  (List.range 80).foldl (fun acc j => fixOne + r * acc / ((80 - j) * fixOne)) fixOne

/-- `arctan(1/n)`, by its series. -/
def fixAtanInv (n : Nat) : Nat :=
  (List.range 80).foldl (fun acc j => fixOne / (2 * (79 - j) + 1) - acc / (n * n)) 0 / n

/-- `π`, by Machin's formula. -/
def fixPi : Nat := 16 * fixAtanInv 5 - 4 * fixAtanInv 239

/-- `sin(2π·j/4096)` for `0 ≤ j ≤ 1024`. -/
def fixSinQuarter (j : Nat) : Nat :=
  let x := fixPi * j / 2048
  let x2 := x * x / fixOne
  x * (List.range 40).foldl
    (fun acc m => fixOne - x2 * acc / (fixOne * ((2 * (40 - m)) * (2 * (40 - m) + 1)))) fixOne / fixOne

/-- The binary32 nearest to a fixed-point value times `2^n`. -/
def roundFix (neg : Bool) (v : Nat) (n : Int) : F32 :=
  pack (neg && v != 0) (roundUnits (v * 2 ^ 149 * 2 ^ n.toNat) (fixOne * 2 ^ (-n).toNat))

/-- A finite value in fixed point. -/
def toFix (x : F32) : Int := signedUnits x * 2 ^ 107

/-- `e^x`, correctly rounded up to the precision of the series. -/
def refExp (x : F32) : F32 :=
  if isNaN x then qNaN
  else if fge x 0x42B20000#32 then posInf
  else if flt x 0xC2DC0000#32 then posZero
  else
    let n := toFix x / (fixLn2 : Int)
    roundFix false (fixExp (toFix x - n * fixLn2).toNat) n

/-- `2^x`. -/
def refExp2 (x : F32) : F32 :=
  if isNaN x then qNaN
  else if fge x 0x43000000#32 then posInf
  else if flt x 0xC3170000#32 then posZero
  else
    let n := toFix x / (fixOne : Int)
    roundFix false (fixExp ((toFix x - n * fixOne).toNat * fixLn2 / fixOne)) n

/-- `log10 x`. -/
def refLog10 (x : F32) : F32 :=
  if isNaN x then qNaN
  else if isZero x then fneg posInf
  else if signBit x then qNaN
  else if isInf x then posInf
  else
    let top := Nat.log2 (units x)
    let ln : Int := fixLn (units x * fixOne / 2 ^ top) + ((top : Int) - 149) * fixLn2
    roundFix (decide (ln < 0)) (ln.natAbs * fixOne / fixLn10) 0

/-- `tanh x`: below 2^-40 it rounds to `x`, above 20 to 1. -/
def refTanh (x : F32) : F32 :=
  if isNaN x then qNaN
  else if magnitude x < 0x2B800000 then x
  else if magnitude x ≥ 0x41A00000 then pack (signBit x) 0x3F800000
  else
    let twice := 2 * (toFix x).natAbs
    let n := twice / fixLn2
    let e := fixExp (twice - n * fixLn2) * 2 ^ n
    pack (signBit x) (roundUnits ((e - fixOne) * 2 ^ 149) (e + fixOne))

/-- `x^k`, exactly computed and rounded once. -/
def refPowi (x : F32) (k : Nat) : F32 :=
  let neg := signBit x && k % 2 == 1
  if isNaN x then qNaN
  else if k = 0 then kOne
  else if isInf x then pack neg 0x7F800000
  else pack neg (roundUnits (units x ^ k) (2 ^ (149 * (k - 1))))

/-- `sin(2π·i/4096)`, by quadrants. -/
def refSinTable (i : Fin 4096) : F32 :=
  let r := i.val % 1024
  match i.val / 1024 with
  | 0 => roundFix false (fixSinQuarter r) 0
  | 1 => roundFix false (fixSinQuarter (1024 - r)) 0
  | 2 => roundFix true (fixSinQuarter r) 0
  | _ => roundFix true (fixSinQuarter (1024 - r)) 0

/-- A computable NUM written to be the reference configuration. UNVERIFIED, safe: no step uses it
(log entry 7). -/
def refNum : Num where
  exp := refExp
  exp2 := refExp2
  log10 := refLog10
  tanh := refTanh
  powi := refPowi
  sinTable := refSinTable

/-- The test configuration of 95_test_vectors.md section 0 for a channel count. -/
def testConfig (channels : Nat) : Config where
  num := refNum
  attackTime := 0x3B000000
  numChannels := channels
  cmdDepth := 256
  outDepth := 256
  base := 0

end Sys2Proof.Machine
end

