-- ==== Sys2Proof/Safety.lean ====
section
/-! DEFINITION. The words claims use: the invariants of 10_state.md R35, R41, R46 and 42_envelope.md
R178 and what they mean in a state, and whose turn a step takes. -/

namespace Sys2Proof.Machine

/-- The voice invariants R35 (a) to (d) and (f) (10_state.md R35): the counters of a started voice are
at least 1. -/
structure Voice.Inv (v : Voice) : Prop where
  activeStage : v.active = true ↔ v.stage ≠ .idle
  attackRem : v.stage = .attack → 1 ≤ v.attackRem.toNat ∧ v.attackRem.toNat ≤ v.attackTotal.toNat
  releaseRem : v.stage = .release → 1 ≤ v.releaseRem.toNat ∧ v.releaseRem.toNat ≤ v.releaseTotal.toNat
  harmonics : 1 ≤ v.hc ∧ v.hc ≤ 32
  totals : (v.stage = .idle ∧ v.attackTotal = 0 ∧ v.releaseTotal = 0) ∨
    (1 ≤ v.attackTotal.toNat ∧ 1 ≤ v.releaseTotal.toNat)

/-- The sequencer invariants (10_state.md R46), with SKIP holding no samples so that they are kept
(DEDUCED, safe, log entry 15). -/
structure State.SeqInv (s : State) : Prop where
  events : s.seqMode = .events → s.evLeft ≠ 0
  skip : s.seqMode = .skip → s.evLeft ≠ 0 ∧ s.smpLeft = 0
  samples : s.seqMode = .samples → s.evLeft = 0 ∧ s.smpLeft ≠ 0
  idle : s.seqMode = .idle → s.evLeft = 0 ∧ s.smpLeft = 0

/-- The invariant of the whole machine under parameters `c`: voices, sequencer, FIFO bounds (R41),
block latches equal to what every voice was pushed (R211), a captured error only with an error bit
set (R272), an accepted rate while RATE_VALID (R242), and a tier that is never 3 (R39). -/
structure State.Inv (c : Config) (s : State) : Prop where
  voices : ∀ i, (s.voice i).Inv
  seq : s.SeqInv
  cmdBound : s.cmdQ.length ≤ c.cmdDepth
  outBound : s.outQ.length ≤ c.outDepth
  blkH : 1 ≤ s.blkH ∧ s.blkH ≤ 32
  pushed : ∀ i, (s.voice i).hc = s.blkH ∧ (s.voice i).releaseTime = s.blkRel ∧
    (s.voice i).attackTime = c.attackTime
  errInfo : s.errBits = 0 → s.errInfo = 0
  rate : (s.rateValid = true → rateAccepted s.sampleRate = true) ∧
    (s.rateValid = false → s.sampleRate = 0)
  tier : s.lastAlloc.tier ≠ 3

/-- The level bounds: `attackLevel`, `releaseLevel` and `releaseStart` in [+0.0, 1.0] (42_envelope.md
R178) and `velocity` in [+0.0, 0.8] (10_state.md R35 (e)), as patterns, which order the
non-negative values. -/
structure Voice.LevelInv (v : Voice) : Prop where
  attackLevel : v.attackLevel.toNat ≤ 0x3F800000
  releaseLevel : v.releaseLevel.toNat ≤ 0x3F800000
  releaseStart : v.releaseStart.toNat ≤ 0x3F800000
  velocity : v.velocity.toNat ≤ 0x3F4CCCCD

/-- The level bounds of every voice. -/
def State.LevelInv (s : State) : Prop := ∀ i, (s.voice i).LevelInv

/-- The next turn is the engine's. -/
def State.engineNext (s : State) : Prop := s.schedule = [] ∨ s.schedule.head? = some .engine

/-- The next turn is not a reset. -/
def State.noResetNext (s : State) : Prop := s.schedule.head? ≠ some .reset

/-- The schedule left once the next turn is taken. -/
def State.turnTaken (s : State) : State := { s with schedule := s.schedule.tail }

/-- The voice and tier a NOTEON must take (43_voice_pool.md R194): the first free voice; else the
releasing voice with the fewest samples left, the first among equals; else the voice of least
amplitude, the first among equals. -/
def State.IsAllocation (s : State) (i : Fin 16) (tier : BitVec 2) : Prop :=
  (tier = 0 ∧ (s.voice i).active = false ∧ ∀ j < i, (s.voice j).active = true) ∨
  (tier = 1 ∧ (∀ j, (s.voice j).active = true) ∧ (s.voice i).stage = .release ∧
    (∀ j, (s.voice j).stage = .release → (s.voice i).releaseRem ≤ (s.voice j).releaseRem) ∧
    ∀ j < i, (s.voice j).stage = .release → (s.voice i).releaseRem < (s.voice j).releaseRem) ∨
  (tier = 2 ∧ (∀ j, (s.voice j).active = true ∧ (s.voice j).stage ≠ .release) ∧
    (∀ j, flt (s.voice j).amplitude (s.voice i).amplitude = false) ∧
    ∀ j < i, flt (s.voice i).amplitude (s.voice j).amplitude = true)

/-- The state after an event record whose own effect left `u`: one record fewer, and after the last one
the samples or the end of the block (45_commands.md R244). -/
def State.recordDone (u : State) : State :=
  { u with
    evLeft := u.evLeft - 1
    seqMode := if u.evLeft = 1 then (if u.smpLeft = 0 then .idle else .samples) else u.seqMode }

/-- The state after raising error number `code` with information `info` (60_exceptions.md R272). -/
def State.errorRaised (s : State) (code : Nat) (info : Word) : State :=
  { s with
    errBits := s.errBits ||| BitVec.ofNat 5 (2 ^ code)
    errInfo := if s.errBits = 0 then info else s.errInfo }

/-- `u` is `v` with its oscillator bank configured for the frequency and harmonic count it has, at rate
`sr`: phases +0.0, and for the harmonics up to `hc` the increments `2π·(baseFreq·k)/sr` and the gains
`2/(1.1^k·1.6^k)`, rescaled by `0.9/S` when their sum `S` exceeds 0.9, zero above
(41_oscillator_bank.md R151-R153). -/
def Voice.Reconfigured (N : Num) (sr : F32) (v u : Voice) : Prop :=
  let raw (k : Nat) : F32 :=
    fdiv 0x40000000#32 (fmul (canon (N.powi 0x3F8CCCCD#32 k)) (canon (N.powi 0x3FCCCCCD#32 k)))
  let sum : F32 := ((List.range v.hc).map fun k => fabs (raw (k + 1))).foldl fadd 0x00000000#32
  u = { v with phase := u.phase, inc := u.inc, gain := u.gain } ∧
  ∀ k : Fin 32,
    u.phase[k] = 0 ∧
    u.inc[k] = (if k.val < v.hc
      then fdiv (fmul 0x40C90FDB#32 (fmul v.baseFreq (i2f (k.val + 1 : Nat)))) sr else 0) ∧
    u.gain[k] = (if k.val < v.hc
      then (if fgt sum 0x3F666666#32 then fmul (raw (k.val + 1)) (fdiv 0x3F666666#32 sum)
        else raw (k.val + 1))
      else 0)

/-- `u` is `v` started on a note: its new fields, the base frequency `440·2^((note - 69)/12)`, a configured
bank, and a fresh attack (43_voice_pool.md R190; 41_oscillator_bank.md R150; 42_envelope.md R172). -/
def Voice.Started (N : Num) (sr : F32) (note : BitVec 8) (vel : F32) (v u : Voice) : Prop :=
  ∃ w : Voice,
    Voice.Reconfigured N sr
      { v with
        active := true
        note := note
        velocity := vel
        baseFreq := fmul 0x43DC0000#32
          (canon (N.exp2 (fdiv (fsub (i2f note.toNat) 0x428A0000#32) 0x41400000#32))) } w ∧
    u = { w with
      stage := .attack
      attackTotal := samplesOf sr v.attackTime
      attackRem := samplesOf sr v.attackTime
      attackLevel := 0
      releaseTotal := samplesOf sr v.releaseTime
      releaseRem := 0
      releaseLevel := 0
      releaseStart := 0 }

/-- `u` is `v` stopped: a sounding voice that is not releasing begins its release from the level it
has, every other voice is unchanged (42_envelope.md R174). -/
def Voice.Stopped (v u : Voice) : Prop :=
  (v.active = true ∧ v.stage ≠ .release →
    u = { v with
      releaseStart := if v.stage = .attack then v.attackLevel else 0x3F800000
      releaseLevel := if v.stage = .attack then v.attackLevel else 0x3F800000
      releaseRem := v.releaseTotal
      stage := .release }) ∧
  (¬(v.active = true ∧ v.stage ≠ .release) → u = v)

/-- The word `w` is a float literal's binary32: the nearest to a decimal, the bits of a pattern
(30_encoding.md R125). -/
def FloatLit.Denotes : FloatLit → Word → Prop
  | .decimal neg num den, w => CorrectlyRounded ((if neg then -1 else 1) * (num : ℝ) / den) w
  | .pattern b, w => w.toNat = b

/-- A literal that means a binary32: a decimal's denominator is a power of ten and so not zero, and a
pattern's value has 32 bits (30_encoding.md R125; log entry 12 for other runs of digits). -/
def FloatLit.InRange : FloatLit → Prop
  | .decimal _ _ den => 0 < den
  | .pattern b => b < 2 ^ 32

/-- The stage changes the spec allows in one step (42_envelope.md R170). -/
def StageMove (a b : Stage) : Prop :=
  a = b ∨ b = .attack ∨ (a = .attack ∧ b = .sustain) ∨ ((a = .attack ∨ a = .sustain) ∧ b = .release) ∨
    (a = .release ∧ b = .idle)

/-- What no host access may change: the voices, the engine's numbers, the block latches, the
allocation record and the sequencer (20_memory.md R86). -/
def State.sameEngine (s t : State) : Prop :=
  t.voices = s.voices ∧ t.sampleRate = s.sampleRate ∧ t.rateValid = s.rateValid ∧
  t.smoothCoeff = s.smoothCoeff ∧ t.curScale = s.curScale ∧ t.tgtScale = s.tgtScale ∧
  t.blkH = s.blkH ∧ t.blkAmp = s.blkAmp ∧ t.blkRel = s.blkRel ∧ t.lastAlloc = s.lastAlloc ∧
  t.seqMode = s.seqMode ∧ t.evLeft = s.evLeft ∧ t.smpLeft = s.smpLeft

end Sys2Proof.Machine
end

