-- ==== Sys2Proof/Certificates/Slice0/Obligations.lean ====
section
/-! DEFINITION. The statements, from the numbered rules of spec/. `Config.machine` is any legal
configuration, so each holds for every one (00_scope.md R8). -/

open Sys2Proof Sys2Proof.Machine

/-! ## Encoding -/

/-- Decoding the words of any command, ignored bits included, gives it back with the words behind it
(30_encoding.md R114-R120). -/
def Obligations.DecodeOfEncodeGivesInstruction : Prop :=
  ∀ (i : Instr) (rest : List Word), decode (encode i ++ rest) = .ok (i, rest)

/-- Each word list means one command: what decodes is exactly the words of what it decodes to
(30_encoding.md R111, R114-R119). -/
def Obligations.EncodeOfDecodeGivesWords : Prop :=
  ∀ (ws : List Word) (i : Instr) (rest : List Word), decode ws = .ok (i, rest) → encode i ++ rest = ws

/-- The length of what a header begins depends on its opcode alone: 2 words for 0x2 and 0x8, else 1
(30_encoding.md R112); reserved opcodes decode to nothing, one word long (R121). -/
def Obligations.LengthFollowsOpcodeAlone : Prop :=
  ∀ (w : Word) (rest : List Word),
    headerLen w = (if opcode w = 0x2#4 ∨ opcode w = 0x8#4 then 2 else 1) ∧
    (∀ i rest', decode (w :: rest) = .ok (i, rest') →
      rest' = (w :: rest).drop (if opcode w = 0x2#4 ∨ opcode w = 0x8#4 then 2 else 1)) ∧
    (decode (w :: rest) = .error (.missingOperand w) ↔
      (opcode w = 0x2#4 ∨ opcode w = 0x8#4) ∧ rest = []) ∧
    (decode (w :: rest) = .error (.reserved w) ↔
      opcode w ∈ [0x3#4, 0x4#4, 0x5#4, 0x6#4, 0x7#4, 0xA#4, 0xC#4, 0xD#4, 0xE#4, 0xF#4])

/-- Match and mask (30_encoding.md R124): a header that is not reserved matches exactly one row, and
decodes to that row's command; a reserved one matches none. -/
def Obligations.MatchAndMaskSelectOneRow : Prop :=
  ∀ (w x : Word) (rest : List Word),
    (opcode w ∉ [0x3#4, 0x4#4, 0x5#4, 0x6#4, 0x7#4, 0xA#4, 0xC#4, 0xD#4, 0xE#4, 0xF#4] →
      ∃ r ∈ opcodeRows, w &&& r.mask = r.pattern ∧
        (∀ r' ∈ opcodeRows, w &&& r'.mask = r'.pattern → r' = r) ∧
        ∃ i rest', decode (w :: x :: rest) = .ok (i, rest') ∧ i.mnemonic = r.mnemonic) ∧
    (opcode w ∈ [0x3#4, 0x4#4, 0x5#4, 0x6#4, 0x7#4, 0xA#4, 0xC#4, 0xD#4, 0xE#4, 0xF#4] →
      ∀ r ∈ opcodeRows, w &&& r.mask ≠ r.pattern)

/-- Words written out from the spec decode to what they stand for (30_encoding.md R128; 95_test_vectors.md
V6.1, V6.2). -/
def Obligations.SpecExampleWordsDecode : Prop :=
  decode [0x10010008] = .ok (.block 1 8, []) ∧
  decode [0x1FFFFFFF] = .ok (.block 4095 65535, []) ∧
  decode [0x20000000, 0x472C4400] = .ok (.rate 0 0x472C4400, []) ∧
  decode [0x80000045, 0x3F800000] = .ok (.noteOn 0 69 0x3F800000, []) ∧
  decode [0x9FFFFF3C] = .ok (.noteOff 0xFFFFF 60, []) ∧
  decode [0xB0000000] = .ok (.allOff 0, []) ∧
  decode [0x0ABCDEF0] = .ok (.nop 0xABCDEF0, []) ∧
  decode [0x30000000] = .error (.reserved 0x30000000)

/-- The assembler encodes operands in their fields and refuses those out of range, never truncating, for
every line and every float literal: a decimal means the nearest binary32 and a pattern its exact bits
(30_encoding.md R125). The last clause, that a pattern of 2^32 or more is an assembly error, is the
model's choice, not R125's (log entry 12). -/
def Obligations.AssemblerEncodesFieldsOrRefuses : Prop :=
  (∃ i j, AsmLine.nop.assemble = .ok i ∧ encode i = [0x00000000] ∧
    AsmLine.allOff.assemble = .ok j ∧ encode j = [0xB0000000]) ∧
  (∀ n e : Nat,
    (n < 65536 ∧ e < 4096 → ∃ i, (AsmLine.block n e).assemble = .ok i ∧
      encode i = [BitVec.ofNat 32 (0x10000000 + e * 65536 + n)]) ∧
    (¬(n < 65536 ∧ e < 4096) → ∃ err, (AsmLine.block n e).assemble = .error err)) ∧
  (∀ n : Nat,
    (n < 256 → ∃ i, (AsmLine.noteOff n).assemble = .ok i ∧
      encode i = [BitVec.ofNat 32 (0x90000000 + n)]) ∧
    (¬n < 256 → (∃ err, (AsmLine.noteOff n).assemble = .error err) ∧
      ∀ f, ∃ err, (AsmLine.noteOn n f).assemble = .error err)) ∧
  (∀ f : FloatLit, f.InRange → ∃ w : Word, f.Denotes w ∧
    (∃ i, (AsmLine.rate f).assemble = .ok i ∧ encode i = [0x20000000, w]) ∧
    ∀ n < 256, ∃ i, (AsmLine.noteOn n f).assemble = .ok i ∧
      encode i = [BitVec.ofNat 32 (0x80000000 + n), w]) ∧
  (∀ b : Nat, 2 ^ 32 ≤ b → (∃ err, (AsmLine.rate (.pattern b)).assemble = .error err) ∧
    ∀ n, ∃ err, (AsmLine.noteOn n (.pattern b)).assemble = .error err)

/-- Ignored bits change nothing where the command is legal (30_encoding.md R122). -/
def Obligations.IgnoredBitsChangeNothing : Prop :=
  ∀ (s : State) (note : BitVec 8) (x : Word),
    (∀ a b, exec (.nop a) s = exec (.nop b) s) ∧
    (s.seqMode = .idle → ∀ a b, exec (.rate a x) s = exec (.rate b x) s) ∧
    (s.seqMode = .events →
      (∀ a b, exec (.noteOn a note x) s = exec (.noteOn b note x) s) ∧
      (∀ a b, exec (.noteOff a note) s = exec (.noteOff b note) s) ∧
      ∀ a b, exec (.allOff a) s = exec (.allOff b) s)

/-! ## The engine's step -/

/-- A step of the engine in a decoding mode, at a whole command, is `exec` of it, its words popped and
the turn taken (45_commands.md R240). -/
def Obligations.StepRunsDecodedInstruction : Prop :=
  ∀ (s : State) (i : Instr) (rest : List Word),
    s.engineNext → s.seqMode ≠ .samples → decode s.cmdQ = .ok (i, rest) →
    step s = exec i { s with schedule := s.schedule.tail, cmdQ := rest }

/-- The engine waits, changing nothing, while there is no header or its operand word is missing
(45_commands.md R240; 70_reset_and_hazards.md R309). -/
def Obligations.EngineWaitsForWholeCommand : Prop :=
  ∀ s : State, s.engineNext → s.seqMode ≠ .samples →
    (s.cmdQ = [] ∨ ∃ w, s.cmdQ = [w] ∧ (opcode w = 0x2#4 ∨ opcode w = 0x8#4)) →
    step s = .next { s with schedule := s.schedule.tail }

/-- A header illegal at top level, reserved or an event, is consumed with its length and raises
ERR_BADCMD with the header word; nothing else changes (45_commands.md R249). -/
def Obligations.BadTopLevelHeaderReported : Prop :=
  ∀ (s : State) (w : Word) (rest : List Word),
    s.engineNext → s.seqMode = .idle → s.cmdQ = w :: rest →
    opcode w ∉ [0x0#4, 0x1#4, 0x2#4] → headerLen w ≤ s.cmdQ.length →
    step s = .next
      (State.errorRaised
        { s with schedule := s.schedule.tail, cmdQ := s.cmdQ.drop (headerLen w) } 0 w)

/-- An illegal record in an event list is consumed with its length, raises ERR_BADCMD with the header
word and counts as a record; nothing else changes (45_commands.md R244; 60_exceptions.md R273). -/
def Obligations.BadRecordReportedAndCounted : Prop :=
  ∀ (s : State) (w : Word) (rest : List Word),
    s.engineNext → s.seqMode = .events → s.cmdQ = w :: rest →
    opcode w ∉ [0x0#4, 0x8#4, 0x9#4, 0xB#4] → headerLen w ≤ s.cmdQ.length →
    step s = .next
      (State.errorRaised
        { s with schedule := s.schedule.tail, cmdQ := s.cmdQ.drop (headerLen w) } 0 w).recordDone

/-- A record of a refused block is discarded whatever its opcode, with no effect and no error
(45_commands.md R248). -/
def Obligations.SkippedRecordDiscarded : Prop :=
  ∀ (s : State) (w : Word) (rest : List Word),
    s.engineNext → s.seqMode = .skip → s.cmdQ = w :: rest → headerLen w ≤ s.cmdQ.length →
    step s = .next
      { s with
        schedule := s.schedule.tail
        cmdQ := s.cmdQ.drop (headerLen w)
        evLeft := s.evLeft - 1
        seqMode := if s.evLeft = 1 then .idle else .skip }

/-! ## The commands -/

/-- NOP: no effect at top level; in an event list it only counts as a record (45_commands.md R243). -/
def Obligations.NopOnlyCounts : Prop :=
  ∀ (ign : BitVec 28) (s : State),
    (s.seqMode = .idle → exec (.nop ign) s = .next s) ∧
    (s.seqMode = .events → exec (.nop ign) s = .next s.recordDone)

/-- An accepted BLOCK latches and clamps the controls, pushes them onto every voice, reconfigures
exactly the voices the push changes, sets the sequencer, and leaves everything else
(45_commands.md R241; 44_block_mixer.md R210, R211). -/
def Obligations.BlockLatchesPushesAndSequences : Prop :=
  ∀ (evCount : BitVec 12) (nSamp : BitVec 16) (s : State),
    s.seqMode = .idle → s.rateValid = true →
    ∃ t, exec (.block evCount nSamp) s = .next t ∧
      (t.blkH : Int) = max 1 (min 32 s.regHarmonicCount.toInt) ∧
      t.blkAmp = s.regMasterAmp ∧
      t.blkRel = s.regReleaseTime ∧
      (∀ i,
        let pushed := { s.voice i with
          hc := t.blkH
          releaseTime := s.regReleaseTime
          attackTime := Config.machine.attackTime }
        (s.voice i = pushed → t.voice i = pushed) ∧
        (s.voice i ≠ pushed →
          Voice.Reconfigured Config.machine.num s.sampleRate pushed (t.voice i))) ∧
      t = { s with
        blkH := t.blkH
        blkAmp := s.regMasterAmp
        blkRel := s.regReleaseTime
        voices := t.voices
        evLeft := evCount
        smpLeft := nSamp
        seqMode := if evCount ≠ 0 then .events else if nSamp ≠ 0 then .samples else .idle }

/-- A BLOCK before any valid rate raises ERR_NORATE with its header, latches and pushes nothing, skips
its records and produces no sample (60_exceptions.md R275; 45_commands.md R241). -/
def Obligations.BlockWithoutRateRefused : Prop :=
  ∀ (evCount : BitVec 12) (nSamp : BitVec 16) (s : State),
    s.seqMode = .idle → s.rateValid = false →
    exec (.block evCount nSamp) s = .next
      { State.errorRaised s 2 (0x1#4 ++ evCount ++ nSamp) with
        evLeft := evCount
        smpLeft := 0
        seqMode := if evCount ≠ 0 then .skip else .idle }

/-- RATE with a finite positive rate sets the rate, the valid flag and the coefficient, reconfigures
every voice, and leaves everything else, envelope counters included (45_commands.md R242). -/
def Obligations.RateSetsRateAndReconfigures : Prop :=
  ∀ (ign : BitVec 28) (x : Word) (s : State),
    s.seqMode = .idle → isFinite x = true → signBit x = false → isZero x = false →
    ∃ t, exec (.rate ign x) s = .next t ∧
      t.smoothCoeff =
        fsub 0x3F800000#32 (canon (Config.machine.num.exp
          (fneg (fdiv 0x3F800000#32 (fmul 0x3CA3D70A#32 x))))) ∧
      (∀ i, Voice.Reconfigured Config.machine.num x (s.voice i) (t.voice i)) ∧
      t = { s with
        sampleRate := x
        rateValid := true
        smoothCoeff := t.smoothCoeff
        voices := t.voices }

/-- RATE with a NaN, infinite, zero or negative rate raises ERR_BADRATE with the operand and changes
nothing else (60_exceptions.md R274). -/
def Obligations.BadRateRefused : Prop :=
  ∀ (ign : BitVec 28) (x : Word) (s : State),
    s.seqMode = .idle →
    (isNaN x = true ∨ isInf x = true ∨ isZero x = true ∨ signBit x = true) →
    exec (.rate ign x) s = .next (State.errorRaised s 1 x)

/-- NOTEON takes the voice the stealing order names, starts it on the note, records the allocation,
counts as a record, and leaves every other voice and everything else (45_commands.md R245;
43_voice_pool.md R190, R194). The level bounds rule out amplitudes that are not numbers. -/
def Obligations.NoteOnAllocatesAndStarts : Prop :=
  ∀ (ign : BitVec 20) (note : BitVec 8) (x : Word) (s : State),
    s.seqMode = .events → s.LevelInv →
    ∃ t i tier, exec (.noteOn ign note x) s = .next t ∧
      s.IsAllocation i tier ∧
      Voice.Started Config.machine.num s.sampleRate note (scaledVelocity x) (s.voice i) (t.voice i) ∧
      (∀ j, j ≠ i → t.voice j = s.voice j) ∧
      t = State.recordDone { s with voices := t.voices, lastAlloc := ⟨i, tier, true⟩ }

/-- The stored velocity: the raw one clamped to [0, 1], NaN and everything up to zero giving zero, then
scaled; never above 0.8 (45_commands.md R245; 10_state.md R35 (e)). -/
def Obligations.VelocityClampedAndScaled : Prop :=
  ∀ x : Word,
    (isNaN x = true ∨ fle x posZero = true → scaledVelocity x = 0x00000000#32) ∧
    (fge x kOne = true → scaledVelocity x = 0x3F4CCCCD#32) ∧
    (fgt x posZero = true → flt x kOne = true → scaledVelocity x = fmul x k0_8) ∧
    (scaledVelocity x).toNat ≤ 0x3F4CCCCD

/-- NOTEOFF stops the first active voice holding the note, releasing or not, and no other; with no
such voice it only counts as a record (45_commands.md R246; 43_voice_pool.md R195). -/
def Obligations.NoteOffStopsFirstMatch : Prop :=
  ∀ (ign : BitVec 20) (note : BitVec 8) (s : State), s.seqMode = .events →
    (∀ i, ((s.voice i).active = true ∧ (s.voice i).note = note) →
      (∀ j < i, ¬((s.voice j).active = true ∧ (s.voice j).note = note)) →
      ∃ t, exec (.noteOff ign note) s = .next t ∧
        Voice.Stopped (s.voice i) (t.voice i) ∧
        (∀ j, j ≠ i → t.voice j = s.voice j) ∧
        t = State.recordDone { s with voices := t.voices }) ∧
    ((∀ i, ¬((s.voice i).active = true ∧ (s.voice i).note = note)) →
      exec (.noteOff ign note) s = .next s.recordDone)

/-- ALLOFF stops every voice, counts as a record and leaves everything else (45_commands.md R247). -/
def Obligations.AllOffStopsEveryVoice : Prop :=
  ∀ (ign : BitVec 28) (s : State), s.seqMode = .events →
    ∃ t, exec (.allOff ign) s = .next t ∧
      (∀ i, Voice.Stopped (s.voice i) (t.voice i)) ∧
      t = State.recordDone { s with voices := t.voices }

/-! ## The sample step -/

/-- A sample step with room for a frame: the target, the smoothed scale and the clipped sum of the
active voices' samples, all from the state before any voice advances; then the frame, the advance of
every voice and the sequencer (44_block_mixer.md R213-R221). A voice's sample is the sum of its harmonics
in rising order, times the envelope's gain, times the velocity (43_voice_pool.md R191;
41_oscillator_bank.md R155; 42_envelope.md R176). -/
def Obligations.SampleStepWritesThenAdvances : Prop :=
  ∀ s : State, s.engineNext → s.seqMode = .samples →
    s.outQ.length + Config.machine.numChannels ≤ Config.machine.outDepth →
    let N := Config.machine.num
    let n := (List.finRange 16).countP fun i => (s.voice i).active
    let base := fdiv 0x3F800000#32 (fsqrt (i2f n))
    let tgt :=
      if n = 0 then 0x3F800000#32
      else if 1 < s.blkH then
        fmul base (fadd 0x3F333333#32
          (fdiv 0x3E99999A#32 (canon (N.log10 (i2f (s.blkH + 1 : Nat))))))
      else base
    let cur := fadd s.curScale (fmul s.smoothCoeff (fsub tgt s.curScale))
    let bank := fun v : Voice => ((List.finRange 32).filter fun k => k.val < v.hc).foldl
      (fun a k => fadd a (fmul v.gain[k] (waveLookup N v.phase[k]))) 0x00000000#32
    let gain := fun v : Voice =>
      if v.stage = .attack then v.attackLevel
      else if v.stage = .release then v.releaseLevel
      else 0x3F800000#32
    let acc := ((List.finRange 16).filter fun i => (s.voice i).active).foldl
      (fun a i => fadd a (fmul (fmul (bank (s.voice i)) (gain (s.voice i))) (s.voice i).velocity))
      0x00000000#32
    let x := fmul (fmul acc cur) s.blkAmp
    let above := fun x : F32 => fadd 0x3F333333#32 (fmul 0x3E99999A#32
      (canon (N.tanh (fdiv (fsub x 0x3F333333#32) 0x3E99999A#32))))
    let y :=
      if fgt x 0x3F333333#32 then above x
      else if flt x 0xBF333333#32 then fneg (above (fneg x))
      else x
    ∃ t, step s = .next t ∧
      (∀ i, t.voice i = ((s.voice i).envAdvance).bankAdvance) ∧
      t = { s with
        schedule := s.schedule.tail
        tgtScale := tgt
        curScale := cur
        outQ := s.outQ ++ List.replicate Config.machine.numChannels y
        voices := t.voices
        smpLeft := s.smpLeft - 1
        seqMode := if s.smpLeft = 1 then .idle else .samples }

/-- Without room for a whole frame the engine waits: nothing is dropped and nothing changes
(45_commands.md R240; 70_reset_and_hazards.md R314). -/
def Obligations.FullOutputFifoHoldsEngine : Prop :=
  ∀ s : State, s.engineNext → s.seqMode = .samples →
    Config.machine.outDepth < s.outQ.length + Config.machine.numChannels →
    step s = .next { s with schedule := s.schedule.tail }

/-- One advance of a voice: the stage, counters, levels and phases the spec gives, and nothing else
(42_envelope.md R175; 41_oscillator_bank.md R156). -/
def Obligations.VoiceAdvanceFollowsSpec : Prop :=
  ∀ v : Voice,
    let u := v.advance
    (∀ k : Fin 32, u.phase[k] =
      (if k.val < v.hc then
        (if fge (fadd v.phase[k] v.inc[k]) kTwoPi then fsub (fadd v.phase[k] v.inc[k]) kTwoPi
         else fadd v.phase[k] v.inc[k])
       else v.phase[k])) ∧
    ((v.stage = .idle ∨ v.stage = .sustain) → u = { v with phase := u.phase }) ∧
    (v.stage = .attack → v.attackRem ≠ 1 →
      u = { v with
        phase := u.phase
        attackRem := v.attackRem - 1
        attackLevel := fsub kOne (fdiv (i2f v.attackRem.toNat) (i2f v.attackTotal.toNat)) }) ∧
    (v.stage = .attack → v.attackRem = 1 →
      u = { v with phase := u.phase, attackRem := 0, stage := .sustain, attackLevel := kOne }) ∧
    (v.stage = .release →
      u = { v with
        phase := u.phase
        releaseRem := v.releaseRem - 1
        releaseLevel := fmul v.releaseStart
          (fdiv (i2f v.releaseRem.toNat) (i2f v.releaseTotal.toNat))
        stage := if v.releaseRem = 1 then .idle else .release
        active := if v.releaseRem = 1 then false else v.active })

/-- The samples of a block: with room for all of them and the engine alone, NSAMP steps produce exactly
NSAMP frames behind what was there, leave the commands untouched, and end idle
(45_commands.md R241; 70_reset_and_hazards.md R316). -/
def Obligations.BlockSamplesRunToIdle : Prop :=
  ∀ s : State, s.schedule = [] → s.seqMode = .samples → s.smpLeft ≠ 0 →
    s.outQ.length + s.smpLeft.toNat * Config.machine.numChannels ≤ Config.machine.outDepth →
    ∃ t, Host.Core.run Sys2Proof.core s.smpLeft.toNat s = .next t ∧
      t.seqMode = .idle ∧ t.smpLeft = 0 ∧ t.cmdQ = s.cmdQ ∧
      ∃ frames : List Word, frames.length = s.smpLeft.toNat ∧
        t.outQ = s.outQ ++ frames.flatMap fun y => List.replicate Config.machine.numChannels y

/-! ## Invariants -/

/-- Every step keeps the machine's invariant: the voice invariants, the sequencer's, the FIFO bounds and
the rest of `State.Inv` (10_state.md R35, R41, R46). -/
def Obligations.StepKeepsMachineInvariant : Prop :=
  ∀ s t : State, s.Inv Config.machine → step s = .next t → t.Inv Config.machine

/-- Every step keeps envelope levels in [+0.0, 1.0] and velocities in [+0.0, 0.8], for voices whose
counters are as R35 says (42_envelope.md R178; 10_state.md R35 (e)). -/
def Obligations.StepKeepsLevelBounds : Prop :=
  ∀ s t : State, (∀ i, (s.voice i).Inv) → s.LevelInv → step s = .next t → t.LevelInv

/-- The state after reset has the machine's invariant and the level bounds (10_state.md R35; 42_envelope.md
R178). -/
def Obligations.ResetHasInvariants : Prop :=
  State.reset.Inv Config.machine ∧ State.reset.LevelInv

/-- No step but a reset moves a voice's stage other than as the transition relation says
(42_envelope.md R170). -/
def Obligations.StagesMoveOnlyAsListed : Prop :=
  ∀ s t : State, (∀ i, (s.voice i).Inv) → s.noResetNext → step s = .next t →
    ∀ i, StageMove (s.voice i).stage (t.voice i).stage

/-! ## Envelope, pool and mixer properties -/

/-- The envelope timelines (42_envelope.md R177): the gain at each sample step after a start, and after a
stop of a sounding voice, until the voice is idle. -/
def Obligations.EnvelopeTimelines : Prop :=
  (∀ (sr : F32) (v : Voice) (k : Nat),
    let A := (samplesOf sr v.attackTime).toNat
    let u := Nat.iterate Voice.advance k (v.envStart sr)
    (k = 0 → u.envGain = posZero) ∧
    (1 ≤ k → k < A → u.stage = .attack ∧
      u.envGain = fsub kOne (fdiv (i2f (A - k + 1 : Nat)) (i2f A))) ∧
    (A ≤ k → u.stage = .sustain ∧ u.envGain = kOne)) ∧
  (∀ (v : Voice) (k : Nat), v.Inv → v.active = true → v.stage ≠ .release →
    let R := v.releaseTotal.toNat
    let L0 := if v.stage = .attack then v.attackLevel else kOne
    let u := Nat.iterate Voice.advance k v.stop
    (k < R → u.stage = .release ∧ u.active = true) ∧
    (k = 0 → u.envGain = L0) ∧
    (1 ≤ k → k < R → u.envGain = fmul L0 (fdiv (i2f (R - k + 1 : Nat)) (i2f R))) ∧
    (R ≤ k → u.stage = .idle ∧ u.active = false))

/-- During the attack the gain never falls from one sample to the next; during the release it never rises,
and it is at most the level the release started from (42_envelope.md R178). Patterns order the
non-negative values. -/
def Obligations.EnvelopeGainsMonotone : Prop :=
  (∀ (sr : F32) (v : Voice) (k : Nat),
    (Nat.iterate Voice.advance k (v.envStart sr)).envGain.toNat ≤
      (Nat.iterate Voice.advance (k + 1) (v.envStart sr)).envGain.toNat) ∧
  (∀ (v : Voice) (k : Nat), v.Inv → v.LevelInv → v.active = true → v.stage ≠ .release →
    k + 1 < v.releaseTotal.toNat →
    (Nat.iterate Voice.advance (k + 1) v.stop).envGain.toNat ≤
      (Nat.iterate Voice.advance k v.stop).envGain.toNat ∧
    (Nat.iterate Voice.advance k v.stop).envGain.toNat ≤ v.stop.releaseStart.toNat)

/-- The sample count of a time: at least 1 always; 1 for a NaN or a product below one; all ones from
2^32 on; between, the floor of the product (42_envelope.md R171). -/
def Obligations.SamplesOfCountsAtLeastOne : Prop :=
  ∀ sr t : F32,
    1 ≤ (samplesOf sr t).toNat ∧
    ((isNaN (fmul t sr) = true ∨ flt (fmul t sr) kOne = true) → samplesOf sr t = 1) ∧
    (fge (fmul t sr) k2to32 = true → samplesOf sr t = 0xFFFFFFFF) ∧
    (fge (fmul t sr) kOne = true → flt (fmul t sr) k2to32 = true →
      ((samplesOf sr t).toNat : Int) = ⌊value (fmul t sr)⌋)

/-- With all 16 voices active and in SUSTAIN a further NOTEON takes the voice of smallest velocity, the
lowest index among equals, and reports tier 2 (43_voice_pool.md R197). -/
def Obligations.SeventeenthNoteTakesSmallestVelocity : Prop :=
  ∀ (ign : BitVec 20) (note : BitVec 8) (x : Word) (s : State) (i : Fin 16),
    s.seqMode = .events → s.LevelInv →
    (∀ j, (s.voice j).active = true ∧ (s.voice j).stage = .sustain) →
    (∀ j, (s.voice i).velocity.toNat ≤ (s.voice j).velocity.toNat) →
    (∀ j < i, (s.voice i).velocity.toNat < (s.voice j).velocity.toNat) →
    (∀ j, (s.voice j).amplitude = (s.voice j).velocity) ∧
    ∃ t, exec (.noteOn ign note x) s = .next t ∧ t.lastAlloc = ⟨i, 2, true⟩ ∧
      (t.voice i).note = note ∧ (t.voice i).stage = .attack ∧
      ∀ j, j ≠ i → t.voice j = s.voice j

/-- One advance keeps every summed phase in [+0.0, 2π) when the phases and increments are in it
(41_oscillator_bank.md R157). Patterns order the non-negative values. -/
def Obligations.PhasesStayBelowTwoPi : Prop :=
  ∀ v : Voice,
    (∀ k : Fin 32, k.val < v.hc → v.phase[k].toNat < 0x40C90FDB ∧ v.inc[k].toNat < 0x40C90FDB) →
    ∀ (m : Nat) (k : Fin 32), k.val < v.hc →
      (Nat.iterate Voice.advance m v).phase[k].toNat < 0x40C90FDB

/-- The lookup interpolates between the two table entries at the floor of the position, modulo 4096, and
is the canonical NaN where the position is no finite number, as for every phase that is none
(40_wavetable.md R142, R143 (c)). -/
def Obligations.WaveLookupInterpolatesOrIsNaN : Prop :=
  ∀ (N : Sys2Proof.Num) (ph : F32),
    let pos := fmul (fdiv ph 0x40C90FDB#32) 0x45800000#32
    (isFinite ph = false → waveLookup N ph = 0x7FC00000#32) ∧
    (isFinite pos = false → waveLookup N ph = 0x7FC00000#32) ∧
    (isFinite pos = true → ∃ i0 i1 : Fin 4096,
      (i0.val : Int) = ⌊value pos⌋ % 4096 ∧ i1.val = (i0.val + 1) % 4096 ∧
      waveLookup N ph =
        fadd (canon (N.sinTable i0)) (fmul (fsub pos (i2f ⌊value pos⌋))
          (fsub (canon (N.sinTable i1)) (canon (N.sinTable i0)))))

/-- The soft clip is the identity, bit for bit, for every |x| ≤ 0.7 (44_block_mixer.md R222 (a)). -/
def Obligations.SoftClipIdentityBelowKnee : Prop :=
  ∀ (N : Sys2Proof.Num) (x : F32), fle (fabs x) k0_7 = true → softClip N x = x

/-- The soft clip's negative branch is the exact mirror (44_block_mixer.md R218). -/
def Obligations.SoftClipIsOdd : Prop :=
  ∀ (N : Sys2Proof.Num) (x : F32), isNaN x = false → softClip N (fneg x) = fneg (softClip N x)

/-- The soft clip never exceeds 1.0 in magnitude, for a NUM whose tanh is bounded as
93_implementation_defined.md I6 (b) says (44_block_mixer.md R222 (b)). -/
def Obligations.SoftClipBoundedByOne : Prop :=
  ∀ (N : Sys2Proof.Num) (x : F32), TanhBounded N → isNaN x = false →
    fle (fabs (softClip N x)) kOne = true

/-! ## Arithmetic -/

/-- Every NaN an operation produces is 0x7FC00000 (00_scope.md R15). -/
def Obligations.EveryProducedNaNIsCanonical : Prop :=
  ∀ (N : Sys2Proof.Num) (a b : F32) (k : Nat) (i : Fin 4096) (n : Int),
    ∀ r ∈ [fadd a b, fsub a b, fmul a b, fdiv a b, fsqrt a, i2f n, numExp N a, numExp2 N a,
      numLog10 N a, numTanh N a, numPowi N a k, numSinTable N i, waveLookup N a],
    isNaN r = true → r = 0x7FC00000#32

/-- Sum, difference, product and quotient of finite values are correctly rounded to nearest, ties to
even, with overflow to infinity and subnormals kept (00_scope.md R13). -/
def Obligations.ArithmeticCorrectlyRounded : Prop :=
  ∀ a b : F32, isFinite a = true → isFinite b = true →
    CorrectlyRounded ((value a + value b : ℚ) : ℝ) (fadd a b) ∧
    CorrectlyRounded ((value a - value b : ℚ) : ℝ) (fsub a b) ∧
    CorrectlyRounded ((value a * value b : ℚ) : ℝ) (fmul a b) ∧
    (isZero b = false → CorrectlyRounded ((value a / value b : ℚ) : ℝ) (fdiv a b))

/-- The square root of a finite value that is not negative is correctly rounded (00_scope.md R13). -/
def Obligations.SquareRootCorrectlyRounded : Prop :=
  ∀ a : F32, isFinite a = true → signBit a = false →
    CorrectlyRounded (Real.sqrt (value a)) (fsqrt a)

/-! ## Errors -/

/-- The engine never halts: every command runs in every state, the engine's turn and a reset always
answer a next state, and a host's turn does unless its access is outside the window
(60_exceptions.md R270). -/
def Obligations.NoErrorHaltsMachine : Prop :=
  (∀ (i : Instr) (s : State), ∃ t, exec i s = .next t) ∧
  (∀ s : State, (∃ t, step s = .next t) ∨
    (step s = .fault .outsideWindow ∧ ∃ a acc rest,
      s.schedule.head? = some (.host a) ∧ s.pending.of a = acc :: rest ∧
      ¬(Config.machine.base ≤ acc.addr ∧ acc.addr < Config.machine.base + 256)))

/-- Error bits are sticky: apart from a reset, only a STATUS write with the bit set clears one
(60_exceptions.md R272). -/
def Obligations.ErrorBitsClearedOnlyByStatusWrite : Prop :=
  ∀ (s t : State) (e : ErrCode), s.noResetNext → step s = .next t →
    s.errBits.getLsbD e.code = true → t.errBits.getLsbD e.code = false →
    ∃ a w rest, s.schedule.head? = some (.host a) ∧
      s.pending.of a = ⟨Config.machine.base + 4, .word, .write w⟩ :: rest ∧
      w.getLsbD (8 + e.code) = true

/-- ERR_INFO keeps the information of the first error while any error bit stays set
(60_exceptions.md R272). -/
def Obligations.FirstErrorInfoKept : Prop :=
  ∀ s t : State, s.noResetNext → step s = .next t → s.errBits ≠ 0 → t.errBits ≠ 0 →
    t.errInfo = s.errInfo

/-! ## Host accesses -/

/-- A STATUS write clears exactly the error bits written as 1, resets ERR_INFO when that leaves none,
and changes nothing else (45_commands.md R252). -/
def Obligations.StatusWriteClearsErrorBits : Prop :=
  ∀ (s : State) (w : Word),
    ∃ t, s.hostAccess Config.machine 0x04 .word (.write w) = some (none, t) ∧
      (∀ b < 5, t.errBits.getLsbD b = (s.errBits.getLsbD b && !w.getLsbD (8 + b))) ∧
      t.errInfo = (if t.errBits = 0 then 0 else s.errInfo) ∧
      t = { s with errBits := t.errBits, errInfo := t.errInfo }

/-- A STATUS read returns its fields, bit by bit, and changes nothing (10_state.md R53). -/
def Obligations.StatusReadReturnsFields : Prop :=
  ∀ s : State, ∃ w, s.hostAccess Config.machine 0x04 .word .read = some (some w, s) ∧
    w.getLsbD 0 = s.rateValid ∧
    w.getLsbD 1 = decide (s.seqMode ≠ .idle) ∧
    w.getLsbD 2 = decide (s.cmdQ = []) ∧
    w.getLsbD 3 = decide (s.outQ = []) ∧
    (∀ b, 4 ≤ b → b < 8 → w.getLsbD b = false) ∧
    (∀ b < 5, w.getLsbD (8 + b) = s.errBits.getLsbD b) ∧
    (∀ b, 13 ≤ b → w.getLsbD b = false)

/-- An access that is not an aligned 32-bit access has no effect but ERR_BUS with its descriptor, and
reads zero (20_memory.md R84; 10_state.md R55). -/
def Obligations.IllegalAccessOnlyRaisesBusError : Prop :=
  ∀ (s : State) (off : Nat) (size : AccessSize), off < 256 → ¬(size = .word ∧ off % 4 = 0) →
    let sizeField := (match size with
      | .byte => 0
      | .half => 1
      | .word => 2 : Nat)
    s.hostAccess Config.machine off size .read =
      some (some 0, State.errorRaised s 4 (BitVec.ofNat 32 (off + 512 * sizeField))) ∧
    ∀ w, s.hostAccess Config.machine off size (.write w) =
      some (none, State.errorRaised s 4 (BitVec.ofNat 32 (off + 256 + 512 * sizeField)))

/-- Every legal read but OUT_FIFO's has no side effect, and reserved offsets and CMD_FIFO read zero
(20_memory.md R85; 10_state.md R65, R67). -/
def Obligations.LegalReadsHaveNoSideEffect : Prop :=
  ∀ (s : State) (off : Nat), off < 256 → off % 4 = 0 → off ≠ 0x44 →
    ∃ w, s.hostAccess Config.machine off .word .read = some (some w, s) ∧
      ((off = 0x34 ∨ off = 0x38 ∨ off = 0x3C ∨ off = 0x40 ∨ 0x48 ≤ off) → w = 0)

/-- The values of the read-only and control registers (10_state.md R52, R54-R64). -/
def Obligations.RegisterReadsReturnState : Prop :=
  ∀ s : State,
    let rd := fun off => (s.hostAccess Config.machine off .word .read).bind Prod.fst
    rd 0x00 = some (BitVec.ofNat 32
      (0x01000000 + Config.machine.numChannels * 2 ^ 20 + 0xC2010)) ∧
    rd 0x08 = some (BitVec.ofNat 16 s.outQ.length ++
      BitVec.ofNat 16 (Config.machine.cmdDepth - s.cmdQ.length)) ∧
    rd 0x0C = some s.errInfo ∧
    rd 0x10 = some s.regMasterAmp ∧
    rd 0x14 = some s.regHarmonicCount ∧
    rd 0x18 = some s.regReleaseTime ∧
    rd 0x1C = some s.sampleRate ∧
    rd 0x20 = some (BitVec.ofNat 32 ((List.finRange 16).countP fun i => (s.voice i).active)) ∧
    rd 0x24 = some s.curScale ∧
    (∃ w : Word, rd 0x28 = some w ∧ ∀ i : Fin 16,
      w.getLsbD i.val = (s.voice i).active ∧
      w.getLsbD (16 + i.val) = decide ((s.voice i).stage = .release)) ∧
    rd 0x2C = some (BitVec.ofNat 32 (s.lastAlloc.voice.val + 16 * s.lastAlloc.tier.toNat +
      if s.lastAlloc.valid then 256 else 0)) ∧
    rd 0x30 = some Config.machine.attackTime

/-- A legal OUT_FIFO read pops the head word, or, when the FIFO is empty, returns zero, raises
ERR_UNDERFLOW with 0x00000444 and changes nothing else (45_commands.md R253). -/
def Obligations.OutFifoReadPopsOrUnderflows : Prop :=
  ∀ s : State,
    (∀ w rest, s.outQ = w :: rest →
      s.hostAccess Config.machine 0x44 .word .read = some (some w, { s with outQ := rest })) ∧
    (s.outQ = [] →
      s.hostAccess Config.machine 0x44 .word .read =
        some (some 0, State.errorRaised s 3 0x00000444))

/-- A legal CMD_FIFO write appends its word while there is room and is held otherwise: the writing agent
has no step, its write still pending, and no word is dropped; a read returns 0 and pops nothing
(45_commands.md R254; 20_memory.md R89; held accesses stay in the model's `pending`, log entry 3). -/
def Obligations.CmdFifoWriteAppendsOrIsHeld : Prop :=
  ∀ (s : State) (w : Word),
    s.hostAccess Config.machine 0x40 .word .read = some (some 0, s) ∧
    (s.cmdQ.length < Config.machine.cmdDepth →
      s.hostAccess Config.machine 0x40 .word (.write w) =
        some (none, { s with cmdQ := s.cmdQ ++ [w] })) ∧
    (s.cmdQ.length = Config.machine.cmdDepth →
      s.hostAccess Config.machine 0x40 .word (.write w) = none ∧
      ∀ a rest, s.schedule.head? = some (.host a) →
        s.pending.of a = ⟨Config.machine.base + 0x40, .word, .write w⟩ :: rest →
        step s = .next { s with schedule := s.schedule.tail })

/-- A control register write replaces all 32 bits and changes nothing else; every other legal write but
STATUS's and CMD_FIFO's is ignored (45_commands.md R250; 10_state.md R51, R67). -/
def Obligations.ControlWritesReplaceOthersIgnored : Prop :=
  ∀ (s : State) (w : Word),
    s.hostAccess Config.machine 0x10 .word (.write w) = some (none, { s with regMasterAmp := w }) ∧
    s.hostAccess Config.machine 0x14 .word (.write w) =
      some (none, { s with regHarmonicCount := w }) ∧
    s.hostAccess Config.machine 0x18 .word (.write w) =
      some (none, { s with regReleaseTime := w }) ∧
    ∀ off, off < 256 → off % 4 = 0 → off ∉ [0x04, 0x10, 0x14, 0x18, 0x40] →
      s.hostAccess Config.machine off .word (.write w) = some (none, s)

/-- A host agent's turn serves its next access and records the word of a read; the agent's later accesses
and all other agents' stay in their order (20_memory.md R82, R90). -/
def Obligations.HostTurnServesNextAccess : Prop :=
  ∀ (s : State) (a : Agent) (acc : Access) (rest : List Access) (data : Option Word) (u : State),
    s.schedule.head? = some (.host a) → s.pending.of a = acc :: rest →
    Config.machine.base ≤ acc.addr → acc.addr < Config.machine.base + 256 →
    State.hostAccess Config.machine { s with schedule := s.schedule.tail }
      (acc.addr - Config.machine.base) acc.size acc.op = some (data, u) →
    ∃ t, step s = .next t ∧
      t.pending.of a = rest ∧ (∀ b, b ≠ a → t.pending.of b = s.pending.of b) ∧
      t.replies = s.replies ++ (data.toList.map fun w => ⟨a, acc.addr, w⟩) ∧
      t = { u with pending := t.pending, replies := t.replies }

/-! ## Whole-machine rules -/

/-- The command FIFO is consumed from its head, at most one command's two words a step, and grows only
at its tail, by one word of a host (20_memory.md R92; 45_commands.md R254). -/
def Obligations.CommandFifoKeepsOrder : Prop :=
  ∀ s t : State, s.noResetNext → step s = .next t →
    (∃ n ≤ 2, t.cmdQ = s.cmdQ.drop n) ∨
    (∃ w a, s.schedule.head? = some (.host a) ∧ t.cmdQ = s.cmdQ ++ [w])

/-- The output FIFO grows only at its tail, by one whole frame of one word a step, and is popped only
from its head (20_memory.md R93; 44_block_mixer.md R219). -/
def Obligations.OutputFifoKeepsOrder : Prop :=
  ∀ s t : State, s.noResetNext → step s = .next t →
    t.outQ = s.outQ ∨
    (s.engineNext ∧ s.seqMode = .samples ∧
      ∃ y, t.outQ = s.outQ ++ List.replicate Config.machine.numChannels y) ∨
    (∃ a, s.schedule.head? = some (.host a) ∧ t.outQ = s.outQ.tail)

/-- The block latches and the sample rate are not changed by any step but a reset while a block is in
progress: a racing control write is never seen in the middle of one (20_memory.md R91), and a BLOCK or
RATE in an event list or a refused block has no such effect (45_commands.md R244, R248). -/
def Obligations.BlockLatchesHeldDuringBlock : Prop :=
  ∀ s t : State, s.noResetNext → step s = .next t → s.seqMode ≠ .idle →
    t.blkH = s.blkH ∧ t.blkAmp = s.blkAmp ∧ t.blkRel = s.blkRel ∧ t.sampleRate = s.sampleRate

/-- No host access changes the voices, the latches, the engine's numbers or the sequencer
(20_memory.md R86). -/
def Obligations.HostTurnsLeaveEngineState : Prop :=
  ∀ (s t : State) (a : Agent), s.schedule.head? = some (.host a) → step s = .next t → s.sameEngine t

/-- No engine step changes a control register, a pending access or a recorded reply
(45_commands.md R250). -/
def Obligations.EngineLeavesControlRegisters : Prop :=
  ∀ s t : State, s.engineNext → step s = .next t →
    t.regMasterAmp = s.regMasterAmp ∧ t.regHarmonicCount = s.regHarmonicCount ∧
    t.regReleaseTime = s.regReleaseTime ∧ t.pending = s.pending ∧ t.replies = s.replies

/-! ## Reset -/

/-- What the spec states of the machine after reset: every register and reserved offset a host can read
(OUT_FIFO has no value, it is empty), both FIFOs empty, the sequencer idle, every voice idle
(70_reset_and_hazards.md R301; 10_state.md R50, R52, R67). -/
def Obligations.ResetRegistersRead : Prop :=
  let rd := fun off => (State.reset.hostAccess Config.machine off .word .read).bind Prod.fst
  rd 0x00 = some (BitVec.ofNat 32 (0x010C2010 + Config.machine.numChannels * 2 ^ 20)) ∧
  rd 0x04 = some 0x0000000C ∧
  rd 0x08 = some (BitVec.ofNat 32 Config.machine.cmdDepth) ∧
  rd 0x0C = some 0 ∧ rd 0x10 = some 0 ∧ rd 0x14 = some 1 ∧ rd 0x18 = some 0 ∧ rd 0x1C = some 0 ∧
  rd 0x20 = some 0 ∧ rd 0x24 = some 0x3F800000 ∧ rd 0x28 = some 0 ∧ rd 0x2C = some 0 ∧
  rd 0x30 = some Config.machine.attackTime ∧ rd 0x40 = some 0 ∧
  (∀ off, off < 256 → off % 4 = 0 → (off = 0x34 ∨ off = 0x38 ∨ off = 0x3C ∨ 0x48 ≤ off) →
    rd off = some 0) ∧
  State.reset.cmdQ = [] ∧ State.reset.outQ = [] ∧ State.reset.seqMode = .idle ∧
  ∀ i, (State.reset.voice i).active = false ∧ (State.reset.voice i).stage = .idle

/-- A reset discards everything the core holds, whatever it was doing; the outside world keeps what it
had (70_reset_and_hazards.md R304; the fields of the outside world are the model's own, log entry 3). -/
def Obligations.ResetDiscardsEverything : Prop :=
  ∀ s : State, s.schedule.head? = some .reset →
    step s = .next
      { State.reset with
        pending := s.pending
        schedule := s.schedule.tail
        replies := s.replies }
end

