-- ==== Sys2Proof/Laws/Binary32.lean ====
section
/-! SUPPORT. Facts about binary32: the rounding is monotone, keeps what is representable, and every
operation packs a pattern that is no NaN. -/

namespace Sys2Proof.Machine

/-! ## Fields of a pattern -/

theorem toNat_eq_fields (x : F32) :
    x.toNat = (if signBit x then 2 ^ 31 else 0) + (expField x * 2 ^ 23 + fracField x) := by
  have h := x.isLt
  have hm : signBit x = decide (2 ^ 31 ≤ x.toNat) := by simp [signBit, BitVec.msb_eq_decide]
  simp only [hm, expField, fracField, decide_eq_true_eq]
  split <;> omega

theorem magnitude_eq_fields (x : F32) : magnitude x = expField x * 2 ^ 23 + fracField x := by
  have h := x.isLt
  simp only [magnitude, expField, fracField]
  omega

theorem magnitude_lt (x : F32) : magnitude x < 2 ^ 31 := Nat.mod_lt _ (by decide)

theorem expField_lt (x : F32) : expField x < 256 := Nat.mod_lt _ (by decide)

theorem fracField_lt (x : F32) : fracField x < 2 ^ 23 := Nat.mod_lt _ (by decide)

/-- A pattern is finite exactly below the infinity pattern. -/
theorem isFinite_iff (x : F32) : isFinite x = true ↔ magnitude x < 0x7F800000 := by
  have h1 := expField_lt x
  have h2 := fracField_lt x
  rw [magnitude_eq_fields]
  simp only [isFinite, bne_iff_ne, ne_eq]
  omega

theorem isNaN_iff (x : F32) : isNaN x = true ↔ 0x7F800000 < magnitude x := by
  have h1 := expField_lt x
  have h2 := fracField_lt x
  rw [magnitude_eq_fields]
  simp only [isNaN, Bool.and_eq_true, beq_iff_eq, bne_iff_ne, ne_eq]
  omega

theorem isInf_iff (x : F32) : isInf x = true ↔ magnitude x = 0x7F800000 := by
  have h1 := expField_lt x
  have h2 := fracField_lt x
  rw [magnitude_eq_fields]
  simp only [isInf, Bool.and_eq_true, beq_iff_eq]
  omega

/-- Non-negative patterns are their own magnitude. -/
theorem magnitude_of_lt {x : F32} (h : x.toNat < 2 ^ 31) : magnitude x = x.toNat :=
  Nat.mod_eq_of_lt h

theorem signBit_of_lt {x : F32} (h : x.toNat < 2 ^ 31) : signBit x = false := by
  simp [signBit, BitVec.msb_eq_decide]; omega

/-! ## Packing -/

theorem pack_toNat {neg : Bool} {m : Nat} (h : m < 2 ^ 31) :
    (pack neg m).toNat = m + if neg then 2 ^ 31 else 0 := by
  unfold pack
  rw [BitVec.toNat_ofNat, Nat.mod_eq_of_lt]
  cases neg <;> simp <;> omega

theorem magnitude_pack {neg : Bool} {m : Nat} (h : m < 2 ^ 31) : magnitude (pack neg m) = m := by
  unfold magnitude
  rw [pack_toNat h]
  cases neg <;> simp <;> omega

theorem signBit_pack {neg : Bool} {m : Nat} (h : m < 2 ^ 31) : signBit (pack neg m) = neg := by
  simp only [signBit, BitVec.msb_eq_decide, pack_toNat h]
  cases neg
  · simp only [Bool.false_eq_true, if_false, decide_eq_false_iff_not]
    omega
  · simp

theorem isNaN_pack {neg : Bool} {m : Nat} (h : m ≤ 0x7F800000) : isNaN (pack neg m) = false := by
  rw [Bool.eq_false_iff, ne_eq, isNaN_iff, magnitude_pack (by omega)]
  omega

/-- A pattern is the pack of its sign and magnitude. -/
theorem pack_fields (x : F32) : pack (signBit x) (magnitude x) = x := by
  apply BitVec.eq_of_toNat_eq
  rw [pack_toNat (magnitude_lt x), toNat_eq_fields x, magnitude_eq_fields]
  omega

/-! ## Rounding -/

/-- The scale of `roundUnits`. -/
theorem roundUnits_scale {num den : Nat} (hd : 0 < den) :
    num < den * 2 ^ (24 + (Nat.log2 (num / den) - 23)) ∧
      (Nat.log2 (num / den) - 23 ≠ 0 → den * 2 ^ (23 + (Nat.log2 (num / den) - 23)) ≤ num) := by
  have hlt : num / den < 2 ^ (Nat.log2 (num / den) + 1) := Nat.lt_log2_self
  constructor
  · have h1 : num / den < 2 ^ (24 + (Nat.log2 (num / den) - 23)) :=
      lt_of_lt_of_le hlt (Nat.pow_le_pow_right (by decide) (by omega))
    rw [Nat.div_lt_iff_lt_mul hd, Nat.mul_comm] at h1
    exact h1
  · intro hq
    have hn : num / den ≠ 0 := by
      intro h0
      simp [h0] at hq
    have h1 : 2 ^ Nat.log2 (num / den) ≤ num / den := Nat.log2_self_le hn
    have h2 : 23 + (Nat.log2 (num / den) - 23) = Nat.log2 (num / den) := by omega
    rw [h2, Nat.mul_comm]
    exact (Nat.le_div_iff_mul_le hd).1 h1

theorem roundUnits_le (num den : Nat) : roundUnits num den ≤ 0x7F800000 := Nat.min_le_right _ _

theorem roundUnits_lt (num den : Nat) : roundUnits num den < 2 ^ 31 :=
  lt_of_le_of_lt (roundUnits_le num den) (by decide)

/-- Rounding half to even at one scale is monotone. -/
theorem roundHalfEven_mono {n d n' d' : Nat} (hd : 0 < d) (hd' : 0 < d') (h : n * d' ≤ n' * d) :
    n / d + (if 2 * (n % d) > d ∨ (2 * (n % d) = d ∧ n / d % 2 = 1) then 1 else 0) ≤
      n' / d' + (if 2 * (n' % d') > d' ∨ (2 * (n' % d') = d' ∧ n' / d' % 2 = 1) then 1 else 0) := by
  have hk : n / d ≤ n' / d' := by
    rw [Nat.le_div_iff_mul_le hd']
    have h1 : n / d * d ≤ n := Nat.div_mul_le_self n d
    have h2 : n / d * d' * d ≤ n' * d := by
      calc n / d * d' * d = n / d * d * d' := by ring
        _ ≤ n * d' := Nat.mul_le_mul_right _ h1
        _ ≤ n' * d := h
    exact Nat.le_of_mul_le_mul_right h2 hd
  rcases Nat.lt_or_ge (n / d) (n' / d') with hlt | hge
  · split <;> split <;> omega
  · have heq : n / d = n' / d' := by omega
    have e1 := Nat.div_add_mod n d
    have e2 := Nat.div_add_mod n' d'
    have hr : n % d * d' ≤ n' % d' * d := by
      have h3 : (d * (n / d) + n % d) * d' ≤ (d' * (n' / d') + n' % d') * d := by rw [e1, e2]; exact h
      rw [heq] at h3
      nlinarith
    have himp : (2 * (n % d) > d ∨ (2 * (n % d) = d ∧ n / d % 2 = 1)) →
        (2 * (n' % d') > d' ∨ (2 * (n' % d') = d' ∧ n' / d' % 2 = 1)) := by
      rintro (h4 | ⟨h4, h5⟩)
      · left
        by_contra h6
        have h7 : 2 * (n' % d') ≤ d' := by omega
        have h8 : 2 * (n' % d') * d ≤ d' * d := Nat.mul_le_mul_right _ h7
        have h9 : d * d' < 2 * (n % d) * d' := Nat.mul_lt_mul_of_pos_right h4 hd'
        nlinarith
      · rw [heq] at h5
        have h6 : d' ≤ 2 * (n' % d') := by
          by_contra h7
          have h8 : 2 * (n' % d') * d < d' * d := Nat.mul_lt_mul_of_pos_right (by omega) hd
          have h9 : 2 * (n % d) * d' = d * d' := by rw [h4]
          nlinarith
        rcases Nat.lt_or_ge d' (2 * (n' % d')) with h7 | h7
        · exact .inl h7
        · exact .inr ⟨by omega, h5⟩
    split
    · rename_i h4
      rw [if_pos (himp h4)]
      omega
    · split <;> omega

/-- The rounding is monotone in the rational it rounds. -/
theorem roundUnits_mono {n d n' d' : Nat} (hd : 0 < d) (hd' : 0 < d') (h : n * d' ≤ n' * d) :
    roundUnits n d ≤ roundUnits n' d' := by
  have hq : n / d ≤ n' / d' := by
    rw [Nat.le_div_iff_mul_le hd']
    have h2 : n / d * d' * d ≤ n' * d := by
      calc n / d * d' * d = n / d * d * d' := by ring
        _ ≤ n * d' := Nat.mul_le_mul_right _ (Nat.div_mul_le_self n d)
        _ ≤ n' * d := h
    exact Nat.le_of_mul_le_mul_right h2 hd
  have hlog : Nat.log2 (n / d) ≤ Nat.log2 (n' / d') := by
    rcases Nat.eq_zero_or_pos (n / d) with h0 | h0
    · simp [h0]
    · rw [Nat.le_log2 (by omega)]
      exact le_trans (Nat.log2_self_le (by omega)) hq
  obtain ⟨hs, -⟩ := roundUnits_scale (num := n) hd
  obtain ⟨-, hs'⟩ := roundUnits_scale (num := n') hd'
  unfold roundUnits
  simp only
  apply min_le_min_right
  set q := Nat.log2 (n / d) - 23
  set q' := Nat.log2 (n' / d') - 23
  have hqq : q ≤ q' := by omega
  have hD : 0 < d * 2 ^ q := Nat.mul_pos hd (Nat.two_pow_pos q)
  have hD' : 0 < d' * 2 ^ q' := Nat.mul_pos hd' (Nat.two_pow_pos q')
  rcases Nat.lt_or_ge q q' with hlt | hge
  · have hk : n / (d * 2 ^ q) < 2 ^ 24 := by
      rw [Nat.div_lt_iff_lt_mul hD]
      calc n < d * 2 ^ (24 + q) := hs
        _ = 2 ^ 24 * (d * 2 ^ q) := by rw [pow_add]; ring
    have hk' : 2 ^ 23 ≤ n' / (d' * 2 ^ q') := by
      rw [Nat.le_div_iff_mul_le hD']
      calc 2 ^ 23 * (d' * 2 ^ q') = d' * 2 ^ (23 + q') := by rw [pow_add]; ring
        _ ≤ n' := hs' (by omega)
    split <;> split <;> omega
  · have heq : q = q' := by omega
    have hm := roundHalfEven_mono hD hD' (n := n) (n' := n') (by rw [heq]; nlinarith [Nat.two_pow_pos q'])
    rw [heq] at hm ⊢
    omega

/-- What is representable is kept. -/
theorem roundUnits_units {x : F32} (hx : isFinite x = true) {d : Nat} (hd : 0 < d) :
    roundUnits (units x * d) d = magnitude x := by
  have h1 := expField_lt x
  have h2 := fracField_lt x
  have h3 := (isFinite_iff x).1 hx
  obtain ⟨m, hm⟩ : ∃ m, m = if expField x = 0 then fracField x else 2 ^ 23 + fracField x := ⟨_, rfl⟩
  obtain ⟨e, he⟩ : ∃ e, e = max (expField x) 1 - 1 := ⟨_, rfl⟩
  have hu : units x = m * 2 ^ e := by rw [hm, he]; rfl
  have hlog : Nat.log2 (m * 2 ^ e) - 23 = e := by
    by_cases h0 : expField x = 0
    · have e0 : e = 0 := by omega
      have hm' : m < 2 ^ 23 := by rw [hm, if_pos h0]; exact h2
      rw [e0, pow_zero, Nat.mul_one]
      rcases Nat.eq_zero_or_pos m with h4 | h4
      · simp [h4]
      · have := (Nat.log2_lt (n := m) (k := 23) (by omega)).2 hm'
        omega
    · have hm' : m = 2 ^ 23 + fracField x := by rw [hm, if_neg h0]
      have hlt : m * 2 ^ e < 2 ^ (24 + e) := by
        rw [pow_add]; exact Nat.mul_lt_mul_of_pos_right (by omega) (Nat.two_pow_pos e)
      have hge : 2 ^ (23 + e) ≤ m * 2 ^ e := by
        rw [pow_add]; exact Nat.mul_le_mul_right _ (by omega)
      have hne : m * 2 ^ e ≠ 0 := by have := Nat.two_pow_pos (23 + e); omega
      have g1 := (Nat.log2_lt hne).2 hlt
      have g2 := (Nat.le_log2 hne).2 hge
      omega
  have hdiv : units x * d / d = m * 2 ^ e := by rw [Nat.mul_div_cancel _ hd, hu]
  unfold roundUnits
  simp only [hdiv, hlog]
  have hD : 0 < d * 2 ^ e := Nat.mul_pos hd (Nat.two_pow_pos e)
  have hnum : units x * d = m * (d * 2 ^ e) := by rw [hu]; ring
  rw [hnum, Nat.mul_div_cancel _ hD, Nat.mul_mod_left]
  rw [if_neg (by omega)]
  rw [magnitude_eq_fields] at h3 ⊢
  by_cases h0 : expField x = 0
  · have hm' : m = fracField x := by rw [hm, if_pos h0]
    have e0 : e = 0 := by omega
    rw [hm', e0, h0, Nat.min_eq_left (by omega), Nat.add_zero]
  · have hm' : m = 2 ^ 23 + fracField x := by rw [hm, if_neg h0]
    have he' : e + 1 = expField x := by omega
    rw [hm', Nat.min_eq_left (by omega)]
    omega

/-- The units of finite patterns order them. -/
theorem units_mono {x y : F32} (h : magnitude x ≤ magnitude y) : units x ≤ units y := by
  have h1 := fracField_lt x
  have h2 := fracField_lt y
  rw [magnitude_eq_fields, magnitude_eq_fields] at h
  unfold units
  set ex := expField x
  set ey := expField y
  rcases Nat.lt_or_ge ex ey with hlt | hge
  · have hy : ey ≠ 0 := by omega
    rw [if_neg hy]
    by_cases hx : ex = 0
    · rw [if_pos hx, hx]
      have : 1 ≤ 2 ^ (max ey 1 - 1) := Nat.one_le_two_pow
      simp
      nlinarith
    · rw [if_neg hx]
      have e1 : max ey 1 - 1 = (max ex 1 - 1) + 1 + (ey - ex - 1) := by omega
      rw [e1, pow_add, pow_add, pow_one]
      have p1 : 1 ≤ 2 ^ (ey - ex - 1) := Nat.one_le_two_pow
      calc (2 ^ 23 + fracField x) * 2 ^ (max ex 1 - 1)
          ≤ (2 * (2 ^ 23 + fracField y)) * 2 ^ (max ex 1 - 1) := Nat.mul_le_mul_right _ (by omega)
        _ = (2 ^ 23 + fracField y) * (2 ^ (max ex 1 - 1) * 2 * 1) := by ring
        _ ≤ (2 ^ 23 + fracField y) * (2 ^ (max ex 1 - 1) * 2 * 2 ^ (ey - ex - 1)) :=
            Nat.mul_le_mul_left _ (Nat.mul_le_mul_left _ p1)
  · have heq : ex = ey := by omega
    rw [heq]
    apply Nat.mul_le_mul_right
    split <;> omega

theorem units_eq_zero_iff {x : F32} (_hx : isFinite x = true) : units x = 0 ↔ magnitude x = 0 := by
  rw [magnitude_eq_fields]
  unfold units
  have hp := Nat.two_pow_pos (max (expField x) 1 - 1)
  constructor
  · intro h
    rcases Nat.mul_eq_zero.1 h with h | h
    · split at h <;> omega
    · omega
  · intro h
    have h0 : expField x = 0 := by omega
    have h1 : fracField x = 0 := by omega
    simp [h0, h1]

/-- One unit is `2^149` of the value one. -/
theorem units_kOne : units kOne = 2 ^ 149 := by decide +kernel

/-! ## Operations on non-negative values -/

/-- A non-negative finite pattern. -/
def NonNeg (x : F32) : Prop := x.toNat < 0x7F800000

theorem NonNeg.finite {x : F32} (h : NonNeg x) : isFinite x = true := by
  unfold NonNeg at h
  rw [isFinite_iff, magnitude_of_lt (by omega)]
  exact h

theorem NonNeg.notNaN {x : F32} (h : NonNeg x) : isNaN x = false := by
  unfold NonNeg at h
  rw [Bool.eq_false_iff, ne_eq, isNaN_iff, magnitude_of_lt (by omega)]
  omega

theorem NonNeg.notInf {x : F32} (h : NonNeg x) : isInf x = false := by
  unfold NonNeg at h
  rw [Bool.eq_false_iff, ne_eq, isInf_iff, magnitude_of_lt (by omega)]
  omega

theorem NonNeg.sign {x : F32} (h : NonNeg x) : signBit x = false := by
  unfold NonNeg at h
  exact signBit_of_lt (by omega)

theorem NonNeg.magnitude {x : F32} (h : NonNeg x) : magnitude x = x.toNat := by
  unfold NonNeg at h
  exact magnitude_of_lt (by omega)

theorem NonNeg.units_mono {x y : F32} (hx : NonNeg x) (hy : NonNeg y) (h : x.toNat ≤ y.toNat) :
    units x ≤ units y :=
  Machine.units_mono (by rw [hx.magnitude, hy.magnitude]; exact h)

theorem NonNeg.of_le {x : F32} {m : Nat} (h : x.toNat ≤ m) (hm : m < 0x7F800000) : NonNeg x :=
  lt_of_le_of_lt h hm

/-- The product of two non-negative values, as a pattern. -/
theorem fmul_nonNeg {x y : F32} (hx : NonNeg x) (hy : NonNeg y) :
    (fmul x y).toNat = roundUnits (units x * units y) (2 ^ 149) := by
  unfold fmul
  simp only [hx.notNaN, hy.notNaN, hx.notInf, hy.notInf, hx.sign, hy.sign, Bool.or_self,
    Bool.false_eq_true, if_false, bne_self_eq_false]
  rw [pack_toNat (roundUnits_lt _ _)]
  simp

/-- Multiplying by a value up to one does not raise a non-negative value. -/
theorem fmul_le_left {x y : F32} (hx : NonNeg x) (hy : y.toNat ≤ 0x3F800000) :
    (fmul x y).toNat ≤ x.toNat := by
  have hy' : NonNeg y := .of_le hy (by decide)
  have hu : units y ≤ 2 ^ 149 := by
    rw [← units_kOne]
    exact hy'.units_mono (by unfold NonNeg; decide) (by simpa [kOne] using hy)
  rw [fmul_nonNeg hx hy', ← hx.magnitude, ← roundUnits_units hx.finite (d := 2 ^ 149) (by decide)]
  apply roundUnits_mono (by decide) (by decide)
  exact Nat.mul_le_mul_right _ (Nat.mul_le_mul_left _ hu)

/-- Multiplying by a value up to one, on the other side. -/
theorem fmul_le_right {x y : F32} (hx : x.toNat ≤ 0x3F800000) (hy : NonNeg y) :
    (fmul x y).toNat ≤ y.toNat := by
  have hx' : NonNeg x := .of_le hx (by decide)
  have h := fmul_le_left hy hx
  rw [fmul_nonNeg hy hx', Nat.mul_comm, ← fmul_nonNeg hx' hy] at h
  exact h

/-- Multiplication by one. -/
theorem kOne_fmul {x : F32} (hx : NonNeg x) : fmul kOne x = x := by
  apply BitVec.eq_of_toNat_eq
  rw [fmul_nonNeg (by unfold NonNeg; decide) hx, units_kOne, Nat.mul_comm,
    roundUnits_units hx.finite (by decide), hx.magnitude]

/-- The binary32 of a 32-bit count. -/
theorem i2f_count (n : Nat) (hn : n < 2 ^ 32) :
    NonNeg (i2f n) ∧ (i2f n).toNat = roundUnits (n * 2 ^ 149) 1 := by
  have hval : (i2f n).toNat = roundUnits (n * 2 ^ 149) 1 := by
    unfold i2f
    rw [pack_toNat (roundUnits_lt _ _)]
    simp
  refine ⟨?_, hval⟩
  unfold NonNeg
  rw [hval]
  calc roundUnits (n * 2 ^ 149) 1 ≤ roundUnits (2 ^ 32 * 2 ^ 149) 1 :=
        roundUnits_mono (by decide) (by decide) (by nlinarith [Nat.two_pow_pos 149])
    _ < 0x7F800000 := by decide +kernel

theorem i2f_mono {n m : Nat} (hn : n < 2 ^ 32) (hm : m < 2 ^ 32) (h : n ≤ m) :
    (i2f n).toNat ≤ (i2f m).toNat := by
  rw [(i2f_count n hn).2, (i2f_count m hm).2]
  exact roundUnits_mono (by decide) (by decide) (by nlinarith [Nat.two_pow_pos 149])

/-- The binary32 of a positive count is not zero. -/
theorem i2f_pos {n : Nat} (hn : n < 2 ^ 32) (h : 1 ≤ n) : 0x3F800000 ≤ (i2f n).toNat := by
  have h1 : (i2f 1).toNat = 0x3F800000 := by decide +kernel
  have := i2f_mono (n := 1) (by decide) hn h
  rw [← h1]
  exact_mod_cast this

/-- The quotient of two non-negative values, the second not zero, as a pattern. -/
theorem fdiv_nonNeg {x y : F32} (hx : NonNeg x) (hy : NonNeg y) (h0 : y.toNat ≠ 0) :
    (fdiv x y).toNat = roundUnits (units x * 2 ^ 149) (units y) := by
  have hz : isZero y = false := by
    simp only [isZero, hy.magnitude, beq_eq_false_iff_ne, ne_eq]
    exact h0
  unfold fdiv
  simp only [hx.notNaN, hy.notNaN, hx.notInf, hy.notInf, hx.sign, hy.sign, hz, Bool.or_self,
    Bool.false_eq_true, if_false, bne_self_eq_false]
  rw [pack_toNat (roundUnits_lt _ _)]
  simp

/-- A quotient of non-negative values, the first no larger than the second, lies in [0, 1]. -/
theorem fdiv_le_one {x y : F32} (hx : NonNeg x) (hy : NonNeg y) (h0 : y.toNat ≠ 0)
    (h : x.toNat ≤ y.toNat) : (fdiv x y).toNat ≤ 0x3F800000 := by
  have hu : 0 < units y := by
    apply Nat.pos_of_ne_zero
    rw [ne_eq, units_eq_zero_iff hy.finite, hy.magnitude]
    exact h0
  have h1 : roundUnits (units kOne * 1) 1 = 0x3F800000 := by
    rw [roundUnits_units (by decide) (by decide)]; decide
  rw [fdiv_nonNeg hx hy h0, ← h1, units_kOne]
  apply roundUnits_mono hu (by decide)
  rw [Nat.mul_one, Nat.mul_one, Nat.mul_comm]
  exact Nat.mul_le_mul_left _ (hx.units_mono hy h)

/-- A quotient of counts, the first no larger than the second, lies in [0, 1]. -/
theorem fdiv_count_le {n m : Nat} (hm : m < 2 ^ 32) (h : n ≤ m) (h1 : 1 ≤ m) :
    (fdiv (i2f n) (i2f m)).toNat ≤ 0x3F800000 := by
  have hn : n < 2 ^ 32 := lt_of_le_of_lt h hm
  have hpos := i2f_pos hm h1
  exact fdiv_le_one (i2f_count n hn).1 (i2f_count m hm).1 (by omega) (i2f_mono hn hm h)

theorem fneg_nonNeg {x : F32} (hx : NonNeg x) : fneg x = pack true x.toNat := by
  unfold fneg
  rw [hx.sign, hx.magnitude]
  rfl

/-- A non-negative value plus a negative one of no larger magnitude. -/
theorem fadd_le_left {x z : F32} (hx : NonNeg x) (hs : signBit z = true) (hz : isFinite z = true)
    (h : magnitude z ≤ x.toNat) : (fadd x z).toNat ≤ x.toNat := by
  have hm := (isFinite_iff z).1 hz
  have hnan : isNaN z = false := by
    rw [Bool.eq_false_iff, ne_eq, isNaN_iff]; omega
  have hinf : isInf z = false := by
    rw [Bool.eq_false_iff, ne_eq, isInf_iff]; omega
  have hle : units z ≤ units x := units_mono (by rw [hx.magnitude]; exact h)
  have hsum : signedUnits x + signedUnits z = ((units x - units z : Nat) : Int) := by
    rw [Nat.cast_sub hle]
    simp only [signedUnits, hx.sign, hs, Bool.false_eq_true, if_false, if_true]
    ring
  have hround : roundUnits (units x - units z) 1 ≤ x.toNat := by
    rw [← hx.magnitude, ← roundUnits_units hx.finite (d := 1) (by decide)]
    apply roundUnits_mono (by decide) (by decide)
    rw [Nat.mul_one, Nat.mul_one, Nat.mul_one]
    exact Nat.sub_le _ _
  unfold fadd
  simp only [hx.notNaN, hnan, hx.notInf, hinf, Bool.or_self, Bool.false_eq_true, if_false]
  rw [hsum]
  generalize units x - units z = n at hround
  split
  · rw [hx.sign, Bool.false_and, pack_toNat (by decide)]
    simp
  · have hnn : decide ((n : Int) < 0) = false := by simp
    rw [hnn, pack_toNat (roundUnits_lt _ _)]
    simpa using hround

/-- The difference of two non-negative values, the second no larger, lies between zero and the first. -/
theorem fsub_le_left {x y : F32} (hx : NonNeg x) (hy : NonNeg y) (h : y.toNat ≤ x.toNat) :
    (fsub x y).toNat ≤ x.toNat := by
  have hlt : y.toNat < 2 ^ 31 := lt_of_lt_of_le hy (by decide)
  have hm : magnitude (fneg y) = y.toNat := by rw [fneg_nonNeg hy, magnitude_pack hlt]
  have hs : signBit (fneg y) = true := by rw [fneg_nonNeg hy, signBit_pack hlt]
  exact fadd_le_left hx hs ((isFinite_iff _).2 (by rw [hm]; exact hy)) (by rw [hm]; exact h)

/-- One less a value of [0, 1] lies in [0, 1]. -/
theorem fsub_kOne_le {x : F32} (hx : x.toNat ≤ 0x3F800000) : (fsub kOne x).toNat ≤ 0x3F800000 :=
  fsub_le_left (x := kOne) (by unfold NonNeg; decide) (.of_le hx (by decide)) hx

end Sys2Proof.Machine
end

