-- ==== Sys2Proof/Laws/Config.lean ====
section
/-! SUPPORT. The machine's parameters are legal, whatever they are (00_scope.md R8). -/

namespace Sys2Proof

theorem Config.machine_legal : Config.machine.Legal where
  channels := by have h := Config.openChannels.isLt; simp only [Config.machine]; omega
  cmdFifo := by have h := Config.openCmdDepth.isLt; simp only [Config.machine]; omega
  outFifo := by
    have h := Config.openOutDepth.isLt
    have h2 := Config.openChannels.isLt
    simp only [Config.machine]
    omega
  aligned := by simp [Config.machine]

end Sys2Proof
end

