-- ==== Sys2Proof/Machine/HostProgram.lean ====
section
/-! DEFINITION. Running a host program (30_encoding.md R127): one agent's lines become its accesses as it
goes, WAITIDLE repeats its STATUS read until the core is drained (20_memory.md R95), and the run ends
when its command stream is exhausted and the engine idle (70_reset_and_hazards.md R317). The host is
outside the core: `step` uses nothing of this file. -/

namespace Sys2Proof.Machine

/-- What a host agent does next: one access, or WAITIDLE (30_encoding.md R127). -/
inductive HostOp where
  | access (a : Access)
  | waitIdle
  deriving DecidableEq, Repr

/-- The operations of one line. -/
def HostLine.ops (c : Config) (l : HostLine) : Except AsmError (List HostOp) :=
  match l with
  | .waitIdle => .ok [.waitIdle]
  | .wr r v => ((HostLine.wr r v).accesses c).map fun as => as.map .access
  | .rd r => ((HostLine.rd r).accesses c).map fun as => as.map .access
  | .command a => ((HostLine.command a).accesses c).map fun as => as.map .access
  | .pseudo p => ((HostLine.pseudo p).accesses c).map fun as => as.map .access

/-- The operations of a program, in order. -/
def programOps (c : Config) : List HostLine → Except AsmError (List HostOp)
  | [] => .ok []
  | l :: rest =>
    match l.ops c, programOps c rest with
    | .ok os, .ok more => .ok (os ++ more)
    | .error e, _ => .error e
    | .ok _, .error e => .error e

/-- One agent running a program beside the machine: the operations left, and whether the access under way
is WAITIDLE's STATUS read, and the words popped from OUT_FIFO so far, oldest first. The other agents'
accesses are data of the machine. -/
structure HostRun where
  agent : Agent
  ops : List HostOp
  polling : Bool
  machine : State
  popped : List Word
  deriving DecidableEq, Repr

/-- An agent about to run a program. -/
def HostRun.start (a : Agent) (ops : List HostOp) (s : State) : HostRun where
  agent := a
  ops := ops
  polling := false
  machine := s
  popped := []

/-- The word that an agent's last completed read returned. -/
def State.lastReply (s : State) (a : Agent) : Option Word :=
  ((s.replies.filter fun r => r.agent = a).getLast?).map fun r => r.data

/-- Whether the agent must read STATUS again: it is in WAITIDLE, and the word it last read does not say
CMD_EMPTY = 1 and BUSY = 0 (30_encoding.md R127). -/
def HostRun.mustRepeat (r : HostRun) : Bool :=
  r.polling && !((r.machine.lastReply r.agent).any statusDrained)

/-- The agent makes one access next. -/
def HostRun.put (r : HostRun) (a : Access) : HostRun :=
  { r with machine := { r.machine with pending := r.machine.pending.put r.agent [a] } }

/-- The agent's next access, once its last one has completed: WAITIDLE's STATUS read again while the core
is not drained, else the next operation's (30_encoding.md R127). -/
def HostRun.issue (c : Config) (r : HostRun) : HostRun :=
  if r.machine.pending.of r.agent ≠ [] then r
  else if r.mustRepeat then r.put (readAccess c 0x04)
  else
    match r.ops with
    | [] => { r with polling := false }
    | .access a :: rest => HostRun.put { r with ops := rest, polling := false } a
    | .waitIdle :: rest => HostRun.put { r with ops := rest, polling := true } (readAccess c 0x04)

/-- The word a turn from `s` to `t` popped from OUT_FIFO, if it did: only a host's read pops, and a read
that finds the FIFO empty does not (45_commands.md R253). -/
def poppedBy (s t : State) : List Word :=
  match s.schedule with
  | .host _ :: _ => if t.outQ.length < s.outQ.length then s.outQ.take 1 else []
  | .engine :: _ => []
  | .reset :: _ => []
  | [] => []

/-- The agent issues an access if it can, and the machine takes its next turn. -/
def HostRun.step (c : Config) (ex : Instr → State → Host.Outcome State Fault Refusal) (r : HostRun) :
    Host.Outcome HostRun Fault Refusal :=
  match scheduledTurn c ex (r.issue c).machine with
  | .next s =>
    .next { r.issue c with machine := s, popped := r.popped ++ poppedBy (r.issue c).machine s }
  | .fault f => .fault f
  | .refused f => .refused f

/-- An access that pushes a command word when it is served (20_memory.md R86). -/
def Access.pushesCommand (c : Config) (acc : Access) : Bool :=
  inWindow c acc.addr && legalAccess (acc.addr - c.base) acc.size &&
    regAt (acc.addr - c.base) == .cmdFifo && acc.op != .read

/-- The command stream is exhausted: no agent has a command word still to push. -/
def State.streamExhausted (c : Config) (s : State) : Bool :=
  [Agent.commandWriter, .controlWriter, .outputReader, .monitor].all fun a =>
    !(s.pending.of a).any (Access.pushesCommand c)

/-- The run of a machine is over: its command stream is exhausted and the drain condition holds
(70_reset_and_hazards.md R317). -/
def State.runEnded (c : Config) (s : State) : Bool := s.streamExhausted c && s.drained

/-- The program's run is over: its agent has nothing left to issue or to complete, the command stream is
exhausted, the command FIFO empty and the engine idle (70_reset_and_hazards.md R317). -/
def HostRun.finished (c : Config) (r : HostRun) : Bool :=
  r.ops.isEmpty && !r.mustRepeat && (r.machine.pending.of r.agent).isEmpty && r.machine.runEnded c

/-- The result of a run: the state, the words popped from OUT_FIFO, and those left in it
(70_reset_and_hazards.md R317). -/
structure RunResult where
  state : State
  popped : List Word
  left : List Word
  deriving DecidableEq, Repr

/-- The result of a run that is over, or none while it is not (70_reset_and_hazards.md R317). -/
def HostRun.result (c : Config) (r : HostRun) : Option RunResult :=
  if r.finished c then some ⟨r.machine, r.popped, r.machine.outQ⟩ else none

/-- At most `n` steps of a program's run, stopping where it is over or at a fault. -/
def HostRun.run (c : Config) (ex : Instr → State → Host.Outcome State Fault Refusal) :
    Nat → HostRun → Host.Outcome HostRun Fault Refusal
  | 0, r => .next r
  | n + 1, r =>
    if r.finished c then .next r
    else
      match r.step c ex with
      | .next r' => HostRun.run c ex n r'
      | .fault f => .fault f
      | .refused f => .refused f

end Sys2Proof.Machine
end

