-- ==== Sys2Proof/Laws/HostProgram.lean ====
section
/-! SUPPORT. What a host agent running a program can do next, that WAITIDLE waits, and when a run is
over. -/

namespace Sys2Proof.Machine

/-- Pushing an access leaves the rest of a run. -/
@[simp] theorem HostRun.put_ops (r : HostRun) (a : Access) : (r.put a).ops = r.ops := rfl
@[simp] theorem HostRun.put_polling (r : HostRun) (a : Access) : (r.put a).polling = r.polling := rfl
@[simp] theorem HostRun.put_agent (r : HostRun) (a : Access) : (r.put a).agent = r.agent := rfl
@[simp] theorem Pending.of_put (p : Pending) (a : Agent) (l : List Access) : (p.put a l).of a = l := by
  cases a <;> rfl
@[simp] theorem HostRun.put_pending (r : HostRun) (a : Access) :
    (r.put a).machine.pending.of r.agent = [a] := by
  simp [HostRun.put]

/-- The four things an agent does: wait for its access, read STATUS again, go on, or be done. -/
theorem HostRun.issue_cases (c : Config) (r : HostRun) :
    (r.machine.pending.of r.agent ≠ [] ∧ r.issue c = r) ∨
    (r.machine.pending.of r.agent = [] ∧ r.mustRepeat = true ∧
      r.issue c = r.put (readAccess c 0x04)) ∨
    (r.machine.pending.of r.agent = [] ∧ r.mustRepeat = false ∧
      ((r.ops = [] ∧ r.issue c = { r with polling := false }) ∨
       (∃ a rest, r.ops = .access a :: rest ∧
          r.issue c = HostRun.put { r with ops := rest, polling := false } a) ∨
       (∃ rest, r.ops = .waitIdle :: rest ∧
          r.issue c = HostRun.put { r with ops := rest, polling := true } (readAccess c 0x04)))) := by
  unfold HostRun.issue
  by_cases hp : r.machine.pending.of r.agent = []
  · cases hm : r.mustRepeat with
    | true => exact .inr (.inl ⟨hp, rfl, by simp [hp]⟩)
    | false =>
      refine .inr (.inr ⟨hp, rfl, ?_⟩)
      rcases ho : r.ops with _ | ⟨_ | _, rest⟩ <;> simp [hp]
  · exact .inl ⟨hp, by simp [hp]⟩

/-- WAITIDLE holds the program: until the agent has read a drained STATUS, no later operation starts
(30_encoding.md R127). -/
theorem HostRun.waitIdle_holds (c : Config) {r : HostRun} (h : r.mustRepeat = true) :
    (r.issue c).ops = r.ops ∧ (r.issue c).polling = true := by
  have hp : r.polling = true := by
    unfold HostRun.mustRepeat at h
    simp_all
  rcases r.issue_cases c with ⟨-, he⟩ | ⟨-, -, he⟩ | ⟨-, hm, -⟩
  · rw [he]; exact ⟨rfl, hp⟩
  · rw [he]; exact ⟨rfl, hp⟩
  · simp [h] at hm

/-- The drain condition is an empty command FIFO and an idle engine (70_reset_and_hazards.md R317). -/
theorem State.drained_iff (s : State) : s.drained = true ↔ s.cmdQ = [] ∧ s.seqMode = .idle := by
  simp [State.drained, State.busy]

/-- WAITIDLE's condition on a STATUS word is the drain condition of the state read (20_memory.md R95). -/
theorem statusDrained_statusWord (s : State) : statusDrained s.statusWord = s.drained := by
  simp only [statusDrained, State.statusWord, State.drained, BitVec.getLsbD_append]
  simp

/-- A run that is over has nothing left to do anywhere: no operation, no pending access of its agent, no
command word to push, an empty command FIFO and an idle engine (70_reset_and_hazards.md R317). -/
theorem HostRun.finished_iff (c : Config) (r : HostRun) :
    r.finished c = true ↔ r.ops = [] ∧ r.mustRepeat = false ∧ r.machine.pending.of r.agent = [] ∧
      r.machine.streamExhausted c = true ∧ r.machine.cmdQ = [] ∧ r.machine.seqMode = .idle := by
  simp [HostRun.finished, State.runEnded, State.drained_iff, and_assoc]

/-- Only a run that is over has a result: its state, the words popped, and those left. -/
theorem HostRun.result_eq_some (c : Config) (r : HostRun) (q : RunResult) :
    r.result c = some q ↔
      r.finished c = true ∧ q = ⟨r.machine, r.popped, r.machine.outQ⟩ := by
  unfold HostRun.result
  by_cases h : r.finished c = true
  · simp only [h, if_true, Option.some.injEq, true_and]
    exact eq_comm
  · simp [h]

/-- The engine has nothing to do in a drained core, so a run that is over stays as it is. -/
theorem engineTurn_drained (c : Config) (ex : Instr → State → Host.Outcome State Fault Refusal)
    {s : State} (h : s.drained = true) : engineTurn c ex s = .next s := by
  obtain ⟨hq, hm⟩ := (State.drained_iff s).1 h
  simp [engineTurn, headerStep, decode, hq, hm]

end Sys2Proof.Machine
end

