-- ==== Sys2Proof/Laws/State.lean ====
section
/-! SUPPORT. What each named update of the state does to each field, so that no proof unfolds a record
update. -/

namespace Sys2Proof.Machine

section
variable (s : State)


@[simp] theorem State.setVoice_voices (i : Fin 16) (v : Voice) :
    (s.setVoice i v).voices = s.voices.set i v := rfl
@[simp] theorem State.setVoice_sampleRate (i : Fin 16) (v : Voice) :
    (s.setVoice i v).sampleRate = s.sampleRate := rfl
@[simp] theorem State.setVoice_rateValid (i : Fin 16) (v : Voice) :
    (s.setVoice i v).rateValid = s.rateValid := rfl
@[simp] theorem State.setVoice_smoothCoeff (i : Fin 16) (v : Voice) :
    (s.setVoice i v).smoothCoeff = s.smoothCoeff := rfl
@[simp] theorem State.setVoice_curScale (i : Fin 16) (v : Voice) :
    (s.setVoice i v).curScale = s.curScale := rfl
@[simp] theorem State.setVoice_tgtScale (i : Fin 16) (v : Voice) :
    (s.setVoice i v).tgtScale = s.tgtScale := rfl
@[simp] theorem State.setVoice_blkH (i : Fin 16) (v : Voice) : (s.setVoice i v).blkH = s.blkH := rfl
@[simp] theorem State.setVoice_blkAmp (i : Fin 16) (v : Voice) :
    (s.setVoice i v).blkAmp = s.blkAmp := rfl
@[simp] theorem State.setVoice_blkRel (i : Fin 16) (v : Voice) :
    (s.setVoice i v).blkRel = s.blkRel := rfl
@[simp] theorem State.setVoice_lastAlloc (i : Fin 16) (v : Voice) :
    (s.setVoice i v).lastAlloc = s.lastAlloc := rfl
@[simp] theorem State.setVoice_errBits (i : Fin 16) (v : Voice) :
    (s.setVoice i v).errBits = s.errBits := rfl
@[simp] theorem State.setVoice_errInfo (i : Fin 16) (v : Voice) :
    (s.setVoice i v).errInfo = s.errInfo := rfl
@[simp] theorem State.setVoice_cmdQ (i : Fin 16) (v : Voice) : (s.setVoice i v).cmdQ = s.cmdQ := rfl
@[simp] theorem State.setVoice_outQ (i : Fin 16) (v : Voice) : (s.setVoice i v).outQ = s.outQ := rfl
@[simp] theorem State.setVoice_regMasterAmp (i : Fin 16) (v : Voice) :
    (s.setVoice i v).regMasterAmp = s.regMasterAmp := rfl
@[simp] theorem State.setVoice_regHarmonicCount (i : Fin 16) (v : Voice) :
    (s.setVoice i v).regHarmonicCount = s.regHarmonicCount := rfl
@[simp] theorem State.setVoice_regReleaseTime (i : Fin 16) (v : Voice) :
    (s.setVoice i v).regReleaseTime = s.regReleaseTime := rfl
@[simp] theorem State.setVoice_seqMode (i : Fin 16) (v : Voice) :
    (s.setVoice i v).seqMode = s.seqMode := rfl
@[simp] theorem State.setVoice_evLeft (i : Fin 16) (v : Voice) :
    (s.setVoice i v).evLeft = s.evLeft := rfl
@[simp] theorem State.setVoice_smpLeft (i : Fin 16) (v : Voice) :
    (s.setVoice i v).smpLeft = s.smpLeft := rfl
@[simp] theorem State.setVoice_pending (i : Fin 16) (v : Voice) :
    (s.setVoice i v).pending = s.pending := rfl
@[simp] theorem State.setVoice_schedule (i : Fin 16) (v : Voice) :
    (s.setVoice i v).schedule = s.schedule := rfl
@[simp] theorem State.setVoice_replies (i : Fin 16) (v : Voice) :
    (s.setVoice i v).replies = s.replies := rfl

@[simp] theorem State.mapVoices_voices (f : Voice → Voice) :
    (s.mapVoices f).voices = Vector.ofFn fun i => f (s.voice i) := rfl
@[simp] theorem State.mapVoices_sampleRate (f : Voice → Voice) :
    (s.mapVoices f).sampleRate = s.sampleRate := rfl
@[simp] theorem State.mapVoices_rateValid (f : Voice → Voice) :
    (s.mapVoices f).rateValid = s.rateValid := rfl
@[simp] theorem State.mapVoices_smoothCoeff (f : Voice → Voice) :
    (s.mapVoices f).smoothCoeff = s.smoothCoeff := rfl
@[simp] theorem State.mapVoices_curScale (f : Voice → Voice) :
    (s.mapVoices f).curScale = s.curScale := rfl
@[simp] theorem State.mapVoices_tgtScale (f : Voice → Voice) :
    (s.mapVoices f).tgtScale = s.tgtScale := rfl
@[simp] theorem State.mapVoices_blkH (f : Voice → Voice) : (s.mapVoices f).blkH = s.blkH := rfl
@[simp] theorem State.mapVoices_blkAmp (f : Voice → Voice) :
    (s.mapVoices f).blkAmp = s.blkAmp := rfl
@[simp] theorem State.mapVoices_blkRel (f : Voice → Voice) :
    (s.mapVoices f).blkRel = s.blkRel := rfl
@[simp] theorem State.mapVoices_lastAlloc (f : Voice → Voice) :
    (s.mapVoices f).lastAlloc = s.lastAlloc := rfl
@[simp] theorem State.mapVoices_errBits (f : Voice → Voice) :
    (s.mapVoices f).errBits = s.errBits := rfl
@[simp] theorem State.mapVoices_errInfo (f : Voice → Voice) :
    (s.mapVoices f).errInfo = s.errInfo := rfl
@[simp] theorem State.mapVoices_cmdQ (f : Voice → Voice) : (s.mapVoices f).cmdQ = s.cmdQ := rfl
@[simp] theorem State.mapVoices_outQ (f : Voice → Voice) : (s.mapVoices f).outQ = s.outQ := rfl
@[simp] theorem State.mapVoices_regMasterAmp (f : Voice → Voice) :
    (s.mapVoices f).regMasterAmp = s.regMasterAmp := rfl
@[simp] theorem State.mapVoices_regHarmonicCount (f : Voice → Voice) :
    (s.mapVoices f).regHarmonicCount = s.regHarmonicCount := rfl
@[simp] theorem State.mapVoices_regReleaseTime (f : Voice → Voice) :
    (s.mapVoices f).regReleaseTime = s.regReleaseTime := rfl
@[simp] theorem State.mapVoices_seqMode (f : Voice → Voice) :
    (s.mapVoices f).seqMode = s.seqMode := rfl
@[simp] theorem State.mapVoices_evLeft (f : Voice → Voice) :
    (s.mapVoices f).evLeft = s.evLeft := rfl
@[simp] theorem State.mapVoices_smpLeft (f : Voice → Voice) :
    (s.mapVoices f).smpLeft = s.smpLeft := rfl
@[simp] theorem State.mapVoices_pending (f : Voice → Voice) :
    (s.mapVoices f).pending = s.pending := rfl
@[simp] theorem State.mapVoices_schedule (f : Voice → Voice) :
    (s.mapVoices f).schedule = s.schedule := rfl
@[simp] theorem State.mapVoices_replies (f : Voice → Voice) :
    (s.mapVoices f).replies = s.replies := rfl

@[simp] theorem State.raise_voices (e : ErrCode) (w : Word) : (s.raise e w).voices = s.voices := rfl
@[simp] theorem State.raise_sampleRate (e : ErrCode) (w : Word) :
    (s.raise e w).sampleRate = s.sampleRate := rfl
@[simp] theorem State.raise_rateValid (e : ErrCode) (w : Word) :
    (s.raise e w).rateValid = s.rateValid := rfl
@[simp] theorem State.raise_smoothCoeff (e : ErrCode) (w : Word) :
    (s.raise e w).smoothCoeff = s.smoothCoeff := rfl
@[simp] theorem State.raise_curScale (e : ErrCode) (w : Word) :
    (s.raise e w).curScale = s.curScale := rfl
@[simp] theorem State.raise_tgtScale (e : ErrCode) (w : Word) :
    (s.raise e w).tgtScale = s.tgtScale := rfl
@[simp] theorem State.raise_blkH (e : ErrCode) (w : Word) : (s.raise e w).blkH = s.blkH := rfl
@[simp] theorem State.raise_blkAmp (e : ErrCode) (w : Word) : (s.raise e w).blkAmp = s.blkAmp := rfl
@[simp] theorem State.raise_blkRel (e : ErrCode) (w : Word) : (s.raise e w).blkRel = s.blkRel := rfl
@[simp] theorem State.raise_lastAlloc (e : ErrCode) (w : Word) :
    (s.raise e w).lastAlloc = s.lastAlloc := rfl
@[simp] theorem State.raise_errBits (e : ErrCode) (w : Word) :
    (s.raise e w).errBits = errBitsRaised s.errBits e := rfl
@[simp] theorem State.raise_errInfo (e : ErrCode) (w : Word) :
    (s.raise e w).errInfo = errInfoRaised s.errBits s.errInfo w := rfl
@[simp] theorem State.raise_cmdQ (e : ErrCode) (w : Word) : (s.raise e w).cmdQ = s.cmdQ := rfl
@[simp] theorem State.raise_outQ (e : ErrCode) (w : Word) : (s.raise e w).outQ = s.outQ := rfl
@[simp] theorem State.raise_regMasterAmp (e : ErrCode) (w : Word) :
    (s.raise e w).regMasterAmp = s.regMasterAmp := rfl
@[simp] theorem State.raise_regHarmonicCount (e : ErrCode) (w : Word) :
    (s.raise e w).regHarmonicCount = s.regHarmonicCount := rfl
@[simp] theorem State.raise_regReleaseTime (e : ErrCode) (w : Word) :
    (s.raise e w).regReleaseTime = s.regReleaseTime := rfl
@[simp] theorem State.raise_seqMode (e : ErrCode) (w : Word) :
    (s.raise e w).seqMode = s.seqMode := rfl
@[simp] theorem State.raise_evLeft (e : ErrCode) (w : Word) : (s.raise e w).evLeft = s.evLeft := rfl
@[simp] theorem State.raise_smpLeft (e : ErrCode) (w : Word) :
    (s.raise e w).smpLeft = s.smpLeft := rfl
@[simp] theorem State.raise_pending (e : ErrCode) (w : Word) :
    (s.raise e w).pending = s.pending := rfl
@[simp] theorem State.raise_schedule (e : ErrCode) (w : Word) :
    (s.raise e w).schedule = s.schedule := rfl
@[simp] theorem State.raise_replies (e : ErrCode) (w : Word) :
    (s.raise e w).replies = s.replies := rfl

@[simp] theorem State.acknowledge_voices (w : Word) : (s.acknowledge w).voices = s.voices := rfl
@[simp] theorem State.acknowledge_sampleRate (w : Word) :
    (s.acknowledge w).sampleRate = s.sampleRate := rfl
@[simp] theorem State.acknowledge_rateValid (w : Word) :
    (s.acknowledge w).rateValid = s.rateValid := rfl
@[simp] theorem State.acknowledge_smoothCoeff (w : Word) :
    (s.acknowledge w).smoothCoeff = s.smoothCoeff := rfl
@[simp] theorem State.acknowledge_curScale (w : Word) :
    (s.acknowledge w).curScale = s.curScale := rfl
@[simp] theorem State.acknowledge_tgtScale (w : Word) :
    (s.acknowledge w).tgtScale = s.tgtScale := rfl
@[simp] theorem State.acknowledge_blkH (w : Word) : (s.acknowledge w).blkH = s.blkH := rfl
@[simp] theorem State.acknowledge_blkAmp (w : Word) : (s.acknowledge w).blkAmp = s.blkAmp := rfl
@[simp] theorem State.acknowledge_blkRel (w : Word) : (s.acknowledge w).blkRel = s.blkRel := rfl
@[simp] theorem State.acknowledge_lastAlloc (w : Word) :
    (s.acknowledge w).lastAlloc = s.lastAlloc := rfl
@[simp] theorem State.acknowledge_errBits (w : Word) :
    (s.acknowledge w).errBits = errBitsCleared s.errBits w := rfl
@[simp] theorem State.acknowledge_errInfo (w : Word) :
    (s.acknowledge w).errInfo = errInfoCleared (errBitsCleared s.errBits w) s.errInfo := rfl
@[simp] theorem State.acknowledge_cmdQ (w : Word) : (s.acknowledge w).cmdQ = s.cmdQ := rfl
@[simp] theorem State.acknowledge_outQ (w : Word) : (s.acknowledge w).outQ = s.outQ := rfl
@[simp] theorem State.acknowledge_regMasterAmp (w : Word) :
    (s.acknowledge w).regMasterAmp = s.regMasterAmp := rfl
@[simp] theorem State.acknowledge_regHarmonicCount (w : Word) :
    (s.acknowledge w).regHarmonicCount = s.regHarmonicCount := rfl
@[simp] theorem State.acknowledge_regReleaseTime (w : Word) :
    (s.acknowledge w).regReleaseTime = s.regReleaseTime := rfl
@[simp] theorem State.acknowledge_seqMode (w : Word) : (s.acknowledge w).seqMode = s.seqMode := rfl
@[simp] theorem State.acknowledge_evLeft (w : Word) : (s.acknowledge w).evLeft = s.evLeft := rfl
@[simp] theorem State.acknowledge_smpLeft (w : Word) : (s.acknowledge w).smpLeft = s.smpLeft := rfl
@[simp] theorem State.acknowledge_pending (w : Word) : (s.acknowledge w).pending = s.pending := rfl
@[simp] theorem State.acknowledge_schedule (w : Word) :
    (s.acknowledge w).schedule = s.schedule := rfl
@[simp] theorem State.acknowledge_replies (w : Word) : (s.acknowledge w).replies = s.replies := rfl

@[simp] theorem State.withCmdQ_voices (l : List Word) : (s.withCmdQ l).voices = s.voices := rfl
@[simp] theorem State.withCmdQ_sampleRate (l : List Word) :
    (s.withCmdQ l).sampleRate = s.sampleRate := rfl
@[simp] theorem State.withCmdQ_rateValid (l : List Word) :
    (s.withCmdQ l).rateValid = s.rateValid := rfl
@[simp] theorem State.withCmdQ_smoothCoeff (l : List Word) :
    (s.withCmdQ l).smoothCoeff = s.smoothCoeff := rfl
@[simp] theorem State.withCmdQ_curScale (l : List Word) :
    (s.withCmdQ l).curScale = s.curScale := rfl
@[simp] theorem State.withCmdQ_tgtScale (l : List Word) :
    (s.withCmdQ l).tgtScale = s.tgtScale := rfl
@[simp] theorem State.withCmdQ_blkH (l : List Word) : (s.withCmdQ l).blkH = s.blkH := rfl
@[simp] theorem State.withCmdQ_blkAmp (l : List Word) : (s.withCmdQ l).blkAmp = s.blkAmp := rfl
@[simp] theorem State.withCmdQ_blkRel (l : List Word) : (s.withCmdQ l).blkRel = s.blkRel := rfl
@[simp] theorem State.withCmdQ_lastAlloc (l : List Word) :
    (s.withCmdQ l).lastAlloc = s.lastAlloc := rfl
@[simp] theorem State.withCmdQ_errBits (l : List Word) : (s.withCmdQ l).errBits = s.errBits := rfl
@[simp] theorem State.withCmdQ_errInfo (l : List Word) : (s.withCmdQ l).errInfo = s.errInfo := rfl
@[simp] theorem State.withCmdQ_cmdQ (l : List Word) : (s.withCmdQ l).cmdQ = l := rfl
@[simp] theorem State.withCmdQ_outQ (l : List Word) : (s.withCmdQ l).outQ = s.outQ := rfl
@[simp] theorem State.withCmdQ_regMasterAmp (l : List Word) :
    (s.withCmdQ l).regMasterAmp = s.regMasterAmp := rfl
@[simp] theorem State.withCmdQ_regHarmonicCount (l : List Word) :
    (s.withCmdQ l).regHarmonicCount = s.regHarmonicCount := rfl
@[simp] theorem State.withCmdQ_regReleaseTime (l : List Word) :
    (s.withCmdQ l).regReleaseTime = s.regReleaseTime := rfl
@[simp] theorem State.withCmdQ_seqMode (l : List Word) : (s.withCmdQ l).seqMode = s.seqMode := rfl
@[simp] theorem State.withCmdQ_evLeft (l : List Word) : (s.withCmdQ l).evLeft = s.evLeft := rfl
@[simp] theorem State.withCmdQ_smpLeft (l : List Word) : (s.withCmdQ l).smpLeft = s.smpLeft := rfl
@[simp] theorem State.withCmdQ_pending (l : List Word) : (s.withCmdQ l).pending = s.pending := rfl
@[simp] theorem State.withCmdQ_schedule (l : List Word) :
    (s.withCmdQ l).schedule = s.schedule := rfl
@[simp] theorem State.withCmdQ_replies (l : List Word) : (s.withCmdQ l).replies = s.replies := rfl

@[simp] theorem State.pushFrame_voices (n : Nat) (w : Word) :
    (s.pushFrame n w).voices = s.voices := rfl
@[simp] theorem State.pushFrame_sampleRate (n : Nat) (w : Word) :
    (s.pushFrame n w).sampleRate = s.sampleRate := rfl
@[simp] theorem State.pushFrame_rateValid (n : Nat) (w : Word) :
    (s.pushFrame n w).rateValid = s.rateValid := rfl
@[simp] theorem State.pushFrame_smoothCoeff (n : Nat) (w : Word) :
    (s.pushFrame n w).smoothCoeff = s.smoothCoeff := rfl
@[simp] theorem State.pushFrame_curScale (n : Nat) (w : Word) :
    (s.pushFrame n w).curScale = s.curScale := rfl
@[simp] theorem State.pushFrame_tgtScale (n : Nat) (w : Word) :
    (s.pushFrame n w).tgtScale = s.tgtScale := rfl
@[simp] theorem State.pushFrame_blkH (n : Nat) (w : Word) : (s.pushFrame n w).blkH = s.blkH := rfl
@[simp] theorem State.pushFrame_blkAmp (n : Nat) (w : Word) :
    (s.pushFrame n w).blkAmp = s.blkAmp := rfl
@[simp] theorem State.pushFrame_blkRel (n : Nat) (w : Word) :
    (s.pushFrame n w).blkRel = s.blkRel := rfl
@[simp] theorem State.pushFrame_lastAlloc (n : Nat) (w : Word) :
    (s.pushFrame n w).lastAlloc = s.lastAlloc := rfl
@[simp] theorem State.pushFrame_errBits (n : Nat) (w : Word) :
    (s.pushFrame n w).errBits = s.errBits := rfl
@[simp] theorem State.pushFrame_errInfo (n : Nat) (w : Word) :
    (s.pushFrame n w).errInfo = s.errInfo := rfl
@[simp] theorem State.pushFrame_cmdQ (n : Nat) (w : Word) : (s.pushFrame n w).cmdQ = s.cmdQ := rfl
@[simp] theorem State.pushFrame_outQ (n : Nat) (w : Word) :
    (s.pushFrame n w).outQ = s.outQ ++ List.replicate n w := rfl
@[simp] theorem State.pushFrame_regMasterAmp (n : Nat) (w : Word) :
    (s.pushFrame n w).regMasterAmp = s.regMasterAmp := rfl
@[simp] theorem State.pushFrame_regHarmonicCount (n : Nat) (w : Word) :
    (s.pushFrame n w).regHarmonicCount = s.regHarmonicCount := rfl
@[simp] theorem State.pushFrame_regReleaseTime (n : Nat) (w : Word) :
    (s.pushFrame n w).regReleaseTime = s.regReleaseTime := rfl
@[simp] theorem State.pushFrame_seqMode (n : Nat) (w : Word) :
    (s.pushFrame n w).seqMode = s.seqMode := rfl
@[simp] theorem State.pushFrame_evLeft (n : Nat) (w : Word) :
    (s.pushFrame n w).evLeft = s.evLeft := rfl
@[simp] theorem State.pushFrame_smpLeft (n : Nat) (w : Word) :
    (s.pushFrame n w).smpLeft = s.smpLeft := rfl
@[simp] theorem State.pushFrame_pending (n : Nat) (w : Word) :
    (s.pushFrame n w).pending = s.pending := rfl
@[simp] theorem State.pushFrame_schedule (n : Nat) (w : Word) :
    (s.pushFrame n w).schedule = s.schedule := rfl
@[simp] theorem State.pushFrame_replies (n : Nat) (w : Word) :
    (s.pushFrame n w).replies = s.replies := rfl

@[simp] theorem State.endRecord_voices : (s.endRecord).voices = s.voices := rfl
@[simp] theorem State.endRecord_sampleRate : (s.endRecord).sampleRate = s.sampleRate := rfl
@[simp] theorem State.endRecord_rateValid : (s.endRecord).rateValid = s.rateValid := rfl
@[simp] theorem State.endRecord_smoothCoeff : (s.endRecord).smoothCoeff = s.smoothCoeff := rfl
@[simp] theorem State.endRecord_curScale : (s.endRecord).curScale = s.curScale := rfl
@[simp] theorem State.endRecord_tgtScale : (s.endRecord).tgtScale = s.tgtScale := rfl
@[simp] theorem State.endRecord_blkH : (s.endRecord).blkH = s.blkH := rfl
@[simp] theorem State.endRecord_blkAmp : (s.endRecord).blkAmp = s.blkAmp := rfl
@[simp] theorem State.endRecord_blkRel : (s.endRecord).blkRel = s.blkRel := rfl
@[simp] theorem State.endRecord_lastAlloc : (s.endRecord).lastAlloc = s.lastAlloc := rfl
@[simp] theorem State.endRecord_errBits : (s.endRecord).errBits = s.errBits := rfl
@[simp] theorem State.endRecord_errInfo : (s.endRecord).errInfo = s.errInfo := rfl
@[simp] theorem State.endRecord_cmdQ : (s.endRecord).cmdQ = s.cmdQ := rfl
@[simp] theorem State.endRecord_outQ : (s.endRecord).outQ = s.outQ := rfl
@[simp] theorem State.endRecord_regMasterAmp : (s.endRecord).regMasterAmp = s.regMasterAmp := rfl
@[simp] theorem State.endRecord_regHarmonicCount :
    (s.endRecord).regHarmonicCount = s.regHarmonicCount := rfl
@[simp] theorem State.endRecord_regReleaseTime :
    (s.endRecord).regReleaseTime = s.regReleaseTime := rfl
@[simp] theorem State.endRecord_seqMode :
    (s.endRecord).seqMode = if s.evLeft - 1 = 0 then (if s.smpLeft = 0 then .idle else .samples) else s.seqMode := rfl
@[simp] theorem State.endRecord_evLeft : (s.endRecord).evLeft = s.evLeft - 1 := rfl
@[simp] theorem State.endRecord_smpLeft : (s.endRecord).smpLeft = s.smpLeft := rfl
@[simp] theorem State.endRecord_pending : (s.endRecord).pending = s.pending := rfl
@[simp] theorem State.endRecord_schedule : (s.endRecord).schedule = s.schedule := rfl
@[simp] theorem State.endRecord_replies : (s.endRecord).replies = s.replies := rfl

@[simp] theorem State.endSkip_voices : (s.endSkip).voices = s.voices := rfl
@[simp] theorem State.endSkip_sampleRate : (s.endSkip).sampleRate = s.sampleRate := rfl
@[simp] theorem State.endSkip_rateValid : (s.endSkip).rateValid = s.rateValid := rfl
@[simp] theorem State.endSkip_smoothCoeff : (s.endSkip).smoothCoeff = s.smoothCoeff := rfl
@[simp] theorem State.endSkip_curScale : (s.endSkip).curScale = s.curScale := rfl
@[simp] theorem State.endSkip_tgtScale : (s.endSkip).tgtScale = s.tgtScale := rfl
@[simp] theorem State.endSkip_blkH : (s.endSkip).blkH = s.blkH := rfl
@[simp] theorem State.endSkip_blkAmp : (s.endSkip).blkAmp = s.blkAmp := rfl
@[simp] theorem State.endSkip_blkRel : (s.endSkip).blkRel = s.blkRel := rfl
@[simp] theorem State.endSkip_lastAlloc : (s.endSkip).lastAlloc = s.lastAlloc := rfl
@[simp] theorem State.endSkip_errBits : (s.endSkip).errBits = s.errBits := rfl
@[simp] theorem State.endSkip_errInfo : (s.endSkip).errInfo = s.errInfo := rfl
@[simp] theorem State.endSkip_cmdQ : (s.endSkip).cmdQ = s.cmdQ := rfl
@[simp] theorem State.endSkip_outQ : (s.endSkip).outQ = s.outQ := rfl
@[simp] theorem State.endSkip_regMasterAmp : (s.endSkip).regMasterAmp = s.regMasterAmp := rfl
@[simp] theorem State.endSkip_regHarmonicCount :
    (s.endSkip).regHarmonicCount = s.regHarmonicCount := rfl
@[simp] theorem State.endSkip_regReleaseTime : (s.endSkip).regReleaseTime = s.regReleaseTime := rfl
@[simp] theorem State.endSkip_seqMode :
    (s.endSkip).seqMode = if s.evLeft - 1 = 0 then .idle else s.seqMode := rfl
@[simp] theorem State.endSkip_evLeft : (s.endSkip).evLeft = s.evLeft - 1 := rfl
@[simp] theorem State.endSkip_smpLeft : (s.endSkip).smpLeft = s.smpLeft := rfl
@[simp] theorem State.endSkip_pending : (s.endSkip).pending = s.pending := rfl
@[simp] theorem State.endSkip_schedule : (s.endSkip).schedule = s.schedule := rfl
@[simp] theorem State.endSkip_replies : (s.endSkip).replies = s.replies := rfl

@[simp] theorem State.endSample_voices : (s.endSample).voices = s.voices := rfl
@[simp] theorem State.endSample_sampleRate : (s.endSample).sampleRate = s.sampleRate := rfl
@[simp] theorem State.endSample_rateValid : (s.endSample).rateValid = s.rateValid := rfl
@[simp] theorem State.endSample_smoothCoeff : (s.endSample).smoothCoeff = s.smoothCoeff := rfl
@[simp] theorem State.endSample_curScale : (s.endSample).curScale = s.curScale := rfl
@[simp] theorem State.endSample_tgtScale : (s.endSample).tgtScale = s.tgtScale := rfl
@[simp] theorem State.endSample_blkH : (s.endSample).blkH = s.blkH := rfl
@[simp] theorem State.endSample_blkAmp : (s.endSample).blkAmp = s.blkAmp := rfl
@[simp] theorem State.endSample_blkRel : (s.endSample).blkRel = s.blkRel := rfl
@[simp] theorem State.endSample_lastAlloc : (s.endSample).lastAlloc = s.lastAlloc := rfl
@[simp] theorem State.endSample_errBits : (s.endSample).errBits = s.errBits := rfl
@[simp] theorem State.endSample_errInfo : (s.endSample).errInfo = s.errInfo := rfl
@[simp] theorem State.endSample_cmdQ : (s.endSample).cmdQ = s.cmdQ := rfl
@[simp] theorem State.endSample_outQ : (s.endSample).outQ = s.outQ := rfl
@[simp] theorem State.endSample_regMasterAmp : (s.endSample).regMasterAmp = s.regMasterAmp := rfl
@[simp] theorem State.endSample_regHarmonicCount :
    (s.endSample).regHarmonicCount = s.regHarmonicCount := rfl
@[simp] theorem State.endSample_regReleaseTime :
    (s.endSample).regReleaseTime = s.regReleaseTime := rfl
@[simp] theorem State.endSample_seqMode :
    (s.endSample).seqMode = if s.smpLeft - 1 = 0 then .idle else s.seqMode := rfl
@[simp] theorem State.endSample_evLeft : (s.endSample).evLeft = s.evLeft := rfl
@[simp] theorem State.endSample_smpLeft : (s.endSample).smpLeft = s.smpLeft - 1 := rfl
@[simp] theorem State.endSample_pending : (s.endSample).pending = s.pending := rfl
@[simp] theorem State.endSample_schedule : (s.endSample).schedule = s.schedule := rfl
@[simp] theorem State.endSample_replies : (s.endSample).replies = s.replies := rfl

@[simp] theorem State.blockLatch_voices : (s.blockLatch).voices = s.voices := rfl
@[simp] theorem State.blockLatch_sampleRate : (s.blockLatch).sampleRate = s.sampleRate := rfl
@[simp] theorem State.blockLatch_rateValid : (s.blockLatch).rateValid = s.rateValid := rfl
@[simp] theorem State.blockLatch_smoothCoeff : (s.blockLatch).smoothCoeff = s.smoothCoeff := rfl
@[simp] theorem State.blockLatch_curScale : (s.blockLatch).curScale = s.curScale := rfl
@[simp] theorem State.blockLatch_tgtScale : (s.blockLatch).tgtScale = s.tgtScale := rfl
@[simp] theorem State.blockLatch_blkH :
    (s.blockLatch).blkH = clampHarmonics s.regHarmonicCount := rfl
@[simp] theorem State.blockLatch_blkAmp : (s.blockLatch).blkAmp = s.regMasterAmp := rfl
@[simp] theorem State.blockLatch_blkRel : (s.blockLatch).blkRel = s.regReleaseTime := rfl
@[simp] theorem State.blockLatch_lastAlloc : (s.blockLatch).lastAlloc = s.lastAlloc := rfl
@[simp] theorem State.blockLatch_errBits : (s.blockLatch).errBits = s.errBits := rfl
@[simp] theorem State.blockLatch_errInfo : (s.blockLatch).errInfo = s.errInfo := rfl
@[simp] theorem State.blockLatch_cmdQ : (s.blockLatch).cmdQ = s.cmdQ := rfl
@[simp] theorem State.blockLatch_outQ : (s.blockLatch).outQ = s.outQ := rfl
@[simp] theorem State.blockLatch_regMasterAmp : (s.blockLatch).regMasterAmp = s.regMasterAmp := rfl
@[simp] theorem State.blockLatch_regHarmonicCount :
    (s.blockLatch).regHarmonicCount = s.regHarmonicCount := rfl
@[simp] theorem State.blockLatch_regReleaseTime :
    (s.blockLatch).regReleaseTime = s.regReleaseTime := rfl
@[simp] theorem State.blockLatch_seqMode : (s.blockLatch).seqMode = s.seqMode := rfl
@[simp] theorem State.blockLatch_evLeft : (s.blockLatch).evLeft = s.evLeft := rfl
@[simp] theorem State.blockLatch_smpLeft : (s.blockLatch).smpLeft = s.smpLeft := rfl
@[simp] theorem State.blockLatch_pending : (s.blockLatch).pending = s.pending := rfl
@[simp] theorem State.blockLatch_schedule : (s.blockLatch).schedule = s.schedule := rfl
@[simp] theorem State.blockLatch_replies : (s.blockLatch).replies = s.replies := rfl

@[simp] theorem State.turnTaken_voices : (s.turnTaken).voices = s.voices := rfl
@[simp] theorem State.turnTaken_sampleRate : (s.turnTaken).sampleRate = s.sampleRate := rfl
@[simp] theorem State.turnTaken_rateValid : (s.turnTaken).rateValid = s.rateValid := rfl
@[simp] theorem State.turnTaken_smoothCoeff : (s.turnTaken).smoothCoeff = s.smoothCoeff := rfl
@[simp] theorem State.turnTaken_curScale : (s.turnTaken).curScale = s.curScale := rfl
@[simp] theorem State.turnTaken_tgtScale : (s.turnTaken).tgtScale = s.tgtScale := rfl
@[simp] theorem State.turnTaken_blkH : (s.turnTaken).blkH = s.blkH := rfl
@[simp] theorem State.turnTaken_blkAmp : (s.turnTaken).blkAmp = s.blkAmp := rfl
@[simp] theorem State.turnTaken_blkRel : (s.turnTaken).blkRel = s.blkRel := rfl
@[simp] theorem State.turnTaken_lastAlloc : (s.turnTaken).lastAlloc = s.lastAlloc := rfl
@[simp] theorem State.turnTaken_errBits : (s.turnTaken).errBits = s.errBits := rfl
@[simp] theorem State.turnTaken_errInfo : (s.turnTaken).errInfo = s.errInfo := rfl
@[simp] theorem State.turnTaken_cmdQ : (s.turnTaken).cmdQ = s.cmdQ := rfl
@[simp] theorem State.turnTaken_outQ : (s.turnTaken).outQ = s.outQ := rfl
@[simp] theorem State.turnTaken_regMasterAmp : (s.turnTaken).regMasterAmp = s.regMasterAmp := rfl
@[simp] theorem State.turnTaken_regHarmonicCount :
    (s.turnTaken).regHarmonicCount = s.regHarmonicCount := rfl
@[simp] theorem State.turnTaken_regReleaseTime :
    (s.turnTaken).regReleaseTime = s.regReleaseTime := rfl
@[simp] theorem State.turnTaken_seqMode : (s.turnTaken).seqMode = s.seqMode := rfl
@[simp] theorem State.turnTaken_evLeft : (s.turnTaken).evLeft = s.evLeft := rfl
@[simp] theorem State.turnTaken_smpLeft : (s.turnTaken).smpLeft = s.smpLeft := rfl
@[simp] theorem State.turnTaken_pending : (s.turnTaken).pending = s.pending := rfl
@[simp] theorem State.turnTaken_schedule : (s.turnTaken).schedule = s.schedule.tail := rfl
@[simp] theorem State.turnTaken_replies : (s.turnTaken).replies = s.replies := rfl

@[simp] theorem State.setVoice_voice_same (i : Fin 16) (v : Voice) : (s.setVoice i v).voice i = v := by
  simp [State.setVoice, State.voice]

theorem State.setVoice_voice_ne {i j : Fin 16} (v : Voice) (h : j ≠ i) :
    (s.setVoice i v).voice j = s.voice j := by
  simp [State.setVoice, State.voice, Fin.val_ne_of_ne (Ne.symm h)]

@[simp] theorem State.mapVoices_voice (f : Voice → Voice) (i : Fin 16) :
    (s.mapVoices f).voice i = f (s.voice i) := by
  simp [State.mapVoices, State.voice]

/-- Voices are read through `voice` alone, so updates of other fields leave them. -/
theorem State.voice_congr {t : State} (h : t.voices = s.voices) (i : Fin 16) : t.voice i = s.voice i := by
  simp [State.voice, h]

/-- Two pools are equal when every voice is. -/
theorem State.voices_ext {t : State} (h : ∀ i, t.voice i = s.voice i) : t.voices = s.voices := by
  apply Vector.ext
  intro i hi
  exact h ⟨i, hi⟩

end

end Sys2Proof.Machine
end

