-- ==== Sys2Proof/Laws/Ops.lean ====
section
/-! SUPPORT. One lemma per shared operation, saying once all it can do: the contexts a header is met in,
the engine's turn, a host's turn and a step. -/

namespace Sys2Proof.Machine

section inContext
variable (s : State) (top event : State → State)

theorem State.inContext_idle (h : s.seqMode = .idle) : s.inContext top event = top s := by
  simp [State.inContext, h]

theorem State.inContext_events (h : s.seqMode = .events) :
    s.inContext top event = (event s).endRecord := by
  simp [State.inContext, h]

theorem State.inContext_skip (h : s.seqMode = .skip) : s.inContext top event = s.endSkip := by
  simp [State.inContext, h]

theorem State.inContext_samples (h : s.seqMode = .samples) : s.inContext top event = s := by
  simp [State.inContext, h]

/-- A property of a state that the top-level effect, the event effect with the record counted, the end
of a skipped record and standing still all have, is had in whatever mode a header is met. -/
theorem State.inContext_cases {P : State → Prop} (hidle : s.seqMode = .idle → P (top s))
    (hevents : s.seqMode = .events → P (event s).endRecord) (hskip : s.seqMode = .skip → P s.endSkip)
    (hsamples : s.seqMode = .samples → P s) : P (s.inContext top event) := by
  unfold State.inContext
  split <;> rename_i h <;> simp_all

end inContext

section effects
variable (c : Config) (s : State)

/-- An accepted BLOCK as one update of the state. -/
theorem State.blockAccepted_eq (evCount : BitVec 12) (nSamp : BitVec 16) :
    s.blockAccepted c evCount nSamp = { s with
      blkH := clampHarmonics s.regHarmonicCount
      blkAmp := s.regMasterAmp
      blkRel := s.regReleaseTime
      voices := Vector.ofFn fun i =>
        (s.voice i).push c.num s.sampleRate c.attackTime s.regReleaseTime
          (clampHarmonics s.regHarmonicCount)
      evLeft := evCount
      smpLeft := nSamp
      seqMode := modeAfterBlock evCount nSamp } := by
  unfold State.blockAccepted State.blockPush State.blockLatch State.mapVoices; rfl

/-- A refused BLOCK as one update of the state. -/
theorem State.blockRefused_eq (evCount : BitVec 12) (nSamp : BitVec 16) :
    s.blockRefused evCount nSamp = { s with
      errBits := errBitsRaised s.errBits .noRate
      errInfo := errInfoRaised s.errBits s.errInfo (Instr.block evCount nSamp).header
      evLeft := evCount
      smpLeft := 0
      seqMode := if evCount ≠ 0 then .skip else .idle } := rfl

/-- An accepted RATE as one update of the state. -/
theorem State.rateAccept_eq (r : F32) :
    s.rateAccept c r = { s with
      sampleRate := r
      rateValid := true
      smoothCoeff := smoothCoeffOf c.num r
      voices := Vector.ofFn fun i => (s.voice i).configure c.num r } := rfl

/-- A NOTEON event as one update of the state. -/
theorem State.noteOnEvent_eq (n : BitVec 8) (x : Word) :
    s.noteOnEvent c n x = { s with
      voices := s.voices.set s.findFree.1
        ((s.voice s.findFree.1).start c.num s.sampleRate n (scaledVelocity x))
      lastAlloc := ⟨s.findFree.1, s.findFree.2, true⟩ } := rfl

/-- A sample step as one update of the state. -/
theorem State.sampleStep_eq :
    s.sampleStep c = { s with
      tgtScale := s.nextTarget c.num
      curScale := s.nextScale c.num
      outQ := s.outQ ++ List.replicate c.numChannels (s.outputWord c.num (s.nextScale c.num))
      voices := Vector.ofFn fun i => (s.voice i).advance
      smpLeft := s.smpLeft - 1
      seqMode := if s.smpLeft - 1 = 0 then .idle else s.seqMode } := by
  unfold State.sampleStep State.endSample State.mapVoices State.pushFrame; rfl

end effects

/-- `exec` is `runWith` at the machine's own parameters. -/
theorem exec_eq_runWith (i : Instr) (s : State) : exec i s = .next (runWith Config.machine i s) := by
  cases i <;> rfl

/-- The engine at a header: it runs a whole command, reports a reserved one, or waits. -/
theorem headerStep_cases {ex : Instr → State → Host.Outcome State Fault Refusal} {s : State}
    {o : Host.Outcome State Fault Refusal} (h : headerStep ex s = o) :
    (∃ i rest, decode s.cmdQ = .ok (i, rest) ∧ o = ex i (s.withCmdQ rest)) ∨
    (∃ w, decode s.cmdQ = .error (.reserved w) ∧
      o = .next ((s.withCmdQ (s.cmdQ.drop (headerLen w))).badHeader w)) ∨
    ((decode s.cmdQ = .error .empty ∨ ∃ w, decode s.cmdQ = .error (.missingOperand w)) ∧
      o = .next s) := by
  subst h
  unfold headerStep
  split <;> rename_i hd <;> simp [hd]

/-- The engine's turn: at a header, or a sample step when a frame fits. -/
theorem engineTurn_cases (c : Config) (ex : Instr → State → Host.Outcome State Fault Refusal)
    (s : State) :
    (s.seqMode ≠ .samples ∧ engineTurn c ex s = headerStep ex s) ∨
    (s.seqMode = .samples ∧ s.frameFits c = true ∧ engineTurn c ex s = .next (s.sampleStep c)) ∨
    (s.seqMode = .samples ∧ s.frameFits c = false ∧ engineTurn c ex s = .next s) := by
  unfold engineTurn
  cases hm : s.seqMode <;> simp
  cases hf : s.frameFits c <;> simp

/-- A host agent's turn: nothing to do, an address outside the window, a held write, or its next
access served. -/
theorem hostTurn_cases (c : Config) (a : Agent) (s : State) :
    (s.pending.of a = [] ∧ hostTurn c a s = .next s) ∨
    (∃ acc rest, s.pending.of a = acc :: rest ∧
      ((inWindow c acc.addr = false ∧ hostTurn c a s = .fault .outsideWindow) ∨
       (inWindow c acc.addr = true ∧
          s.hostAccess c (acc.addr - c.base) acc.size acc.op = none ∧ hostTurn c a s = .next s) ∨
       (inWindow c acc.addr = true ∧ ∃ data s',
          s.hostAccess c (acc.addr - c.base) acc.size acc.op = some (data, s') ∧
          hostTurn c a s = .next (s'.served a rest acc.addr data)))) := by
  unfold hostTurn
  cases hp : s.pending.of a with
  | nil => simp
  | cons acc rest =>
    right
    refine ⟨acc, rest, rfl, ?_⟩
    cases hw : inWindow c acc.addr with
    | false => left; simp [hw]
    | true =>
      right
      cases ha : s.hostAccess c (acc.addr - c.base) acc.size acc.op with
      | none => left; simp [hw, ha]
      | some r => right; exact ⟨by simp, r.1, r.2, by simp, by simp [hw, ha]⟩

/-- A step is the engine's turn when the engine is next. -/
theorem step_engine {s : State} (h : s.engineNext) :
    step s = engineTurn Config.machine exec s.turnTaken := by
  unfold step scheduledTurn
  rcases h with h | h
  · cases s; simp_all [State.turnTaken]
  · cases hs : s.schedule with
    | nil => simp [hs] at h
    | cons t rest => simp_all [State.turnTaken, takeTurn]

/-- A step is a host agent's turn when it is next. -/
theorem step_host {s : State} {a : Agent} (h : s.schedule.head? = some (.host a)) :
    step s = hostTurn Config.machine a s.turnTaken := by
  unfold step scheduledTurn
  cases hs : s.schedule with
  | nil => simp [hs] at h
  | cons t rest => simp_all [State.turnTaken, takeTurn]

/-- A step is a reset when reset is next. -/
theorem step_reset {s : State} (h : s.schedule.head? = some .reset) :
    step s = .next (s.turnTaken.afterReset Config.machine) := by
  unfold step scheduledTurn
  cases hs : s.schedule with
  | nil => simp [hs] at h
  | cons t rest => simp_all [State.turnTaken, takeTurn]

/-- Every step is one of the three turns. -/
theorem step_cases (s : State) :
    (s.engineNext ∧ step s = engineTurn Config.machine exec s.turnTaken) ∨
    (∃ a, s.schedule.head? = some (.host a) ∧ step s = hostTurn Config.machine a s.turnTaken) ∨
    (s.schedule.head? = some .reset ∧ step s = .next (s.turnTaken.afterReset Config.machine)) := by
  cases hs : s.schedule with
  | nil => exact .inl ⟨.inl hs, step_engine (.inl hs)⟩
  | cons t rest =>
    cases t with
    | engine =>
      have h : s.schedule.head? = some .engine := by simp [hs]
      exact .inl ⟨.inr h, step_engine (.inr h)⟩
    | host a =>
      have h : s.schedule.head? = some (.host a) := by simp [hs]
      exact .inr (.inl ⟨a, by simp, step_host h⟩)
    | reset =>
      have h : s.schedule.head? = some .reset := by simp [hs]
      exact .inr (.inr ⟨by simp, step_reset h⟩)

end Sys2Proof.Machine
end

