-- ==== Sys2Proof/Laws/PerInstr.lean ====
section
/-! SUPPORT. Facts about every instruction as syntax, one lemma per constructor: the words it is encoded
in and the one row of the opcode table its header matches (30_encoding.md R110, R112, R123, R124). -/

namespace Sys2Proof.Laws

/-- Concatenation is a sum. -/
theorem append_toNat {m n : Nat} (x : BitVec m) (y : BitVec n) :
    (x ++ y).toNat = x.toNat * 2 ^ n + y.toNat := by
  rw [BitVec.toNat_append, ← Nat.shiftLeft_add_eq_or_of_lt y.isLt, Nat.shiftLeft_eq]

/-- A bit field is a quotient and a remainder. -/
theorem field_toNat {w : Nat} (x : BitVec w) (s n : Nat) :
    (x.extractLsb' s n).toNat = x.toNat / 2 ^ s % 2 ^ n := by
  rw [BitVec.extractLsb'_toNat, Nat.shiftRight_eq_div_pow]

/-- The opcode of a header is its first field (30_encoding.md R111). -/
theorem opcode_append (op : BitVec 4) (r : BitVec 28) : opcode (op ++ r) = op := by
  apply BitVec.eq_of_toNat_eq
  have h := r.isLt
  have h2 := op.isLt
  rw [opcode, field_toNat, append_toNat]
  omega

/-- The opcode of a header written as three fields. -/
theorem opcode_append₂ {m n : Nat} (h : 4 + m + n = 32) (op : BitVec 4) (a : BitVec m) (b : BitVec n) :
    opcode ((op ++ a ++ b).cast h) = op := by
  have hmn : m + n = 28 := by omega
  have : (op ++ a ++ b).cast h = op ++ (a ++ b).cast hmn := by
    apply BitVec.eq_of_toNat_eq
    simp only [BitVec.toNat_cast, append_toNat]
    have : 2 ^ 28 = 2 ^ m * 2 ^ n := by rw [← pow_add, hmn]
    rw [this]; ring
  rw [this, opcode_append]

/-- Masking a header leaves its opcode (30_encoding.md R124). -/
theorem header_mask (w : Word) : w &&& 0xF0000000#32 = opcode w ++ 0#28 := by
  apply BitVec.eq_of_getLsbD_eq
  intro i hi
  have hm : (0xF0000000#32).getLsbD i = decide (28 ≤ i) := by
    revert i; decide
  simp only [BitVec.getLsbD_and, hm, opcode, BitVec.getLsbD_append, BitVec.getLsbD_extractLsb']
  by_cases h : 28 ≤ i
  · have h1 : ¬i < 28 := by omega
    have h2 : i - 28 < 4 := by omega
    have h3 : 28 + (i - 28) = i := by omega
    simp [h, h1, h2, h3]
  · have h1 : i < 28 := by omega
    simp [h, h1]

/-- A row of the table matches a header exactly when its pattern's opcode is the header's. -/
theorem row_matches (w : Word) (m : String) (p : Word) (f : Format) (a b : Bool)
    (hp : p = opcode p ++ 0#28) :
    (OpcodeRow.mk m p 0xF0000000 f a b).matchesWord w = (opcode w == opcode p) := by
  have key : (w &&& 0xF0000000#32 = p) ↔ opcode w = opcode p := by
    rw [header_mask]
    constructor
    · intro h; rw [← h, opcode_append]
    · intro h; rw [h, ← hp]
  have : (w &&& 0xF0000000#32 == p) = (opcode w == opcode p) := by
    rw [Bool.eq_iff_iff]; simpa using key
  exact this

/-- The rows of the table that match a header (30_encoding.md R124). -/
def rowsOf (w : Word) : List String := (opcodeRows.filter fun r => r.matchesWord w).map (·.mnemonic)

/-- The rows that match a header, by its opcode alone. -/
theorem rowsOf_eq (w : Word) :
    rowsOf w = (([("NOP", 0x0#4), ("BLOCK", 0x1#4), ("RATE", 0x2#4), ("NOTEON", 0x8#4),
      ("NOTEOFF", 0x9#4), ("ALLOFF", 0xB#4)] : List (String × BitVec 4)).filter
        fun p => opcode w == p.2).map Prod.fst := by
  simp only [rowsOf, opcodeRows, List.filter_cons, List.filter_nil,
    row_matches w _ 0x00000000 _ _ _ (by decide), row_matches w _ 0x10000000 _ _ _ (by decide),
    row_matches w _ 0x20000000 _ _ _ (by decide), row_matches w _ 0x80000000 _ _ _ (by decide),
    row_matches w _ 0x90000000 _ _ _ (by decide), row_matches w _ 0xB0000000 _ _ _ (by decide)]
  generalize opcode w = op
  revert op
  decide

namespace EncodesAsOneRow

/-- The instruction's words are its header and the operand words of its format; the header's length is
the format's; and the header matches the instruction's own row and no other. -/
def Statement (i : Instr) : Prop :=
  (encode i).head? = some i.header ∧
  (encode i).length = i.format.words ∧
  headerLen i.header = i.format.words ∧
  rowsOf i.header = [i.mnemonic]

theorem nop (ign : BitVec 28) : Statement (.nop ign) := by
  have h : opcode (Instr.nop ign).header = 0x0#4 := opcode_append _ _
  refine ⟨rfl, rfl, ?_, ?_⟩
  · simp [headerLen, h, Instr.format, Format.words]
  · rw [rowsOf_eq, h]; rfl

theorem block (evCount : BitVec 12) (nSamp : BitVec 16) : Statement (.block evCount nSamp) := by
  have h : opcode (Instr.block evCount nSamp).header = 0x1#4 := opcode_append₂ rfl _ _ _
  refine ⟨rfl, rfl, ?_, ?_⟩
  · simp [headerLen, h, Instr.format, Format.words]
  · rw [rowsOf_eq, h]; rfl

theorem rate (ign : BitVec 28) (x : Word) : Statement (.rate ign x) := by
  have h : opcode (Instr.rate ign x).header = 0x2#4 := opcode_append _ _
  refine ⟨rfl, rfl, ?_, ?_⟩
  · simp [headerLen, h, Instr.format, Format.words]
  · rw [rowsOf_eq, h]; rfl

theorem noteOn (ign : BitVec 20) (note : BitVec 8) (x : Word) : Statement (.noteOn ign note x) := by
  have h : opcode (Instr.noteOn ign note x).header = 0x8#4 := opcode_append₂ rfl _ _ _
  refine ⟨rfl, rfl, ?_, ?_⟩
  · simp [headerLen, h, Instr.format, Format.words]
  · rw [rowsOf_eq, h]; rfl

theorem noteOff (ign : BitVec 20) (note : BitVec 8) : Statement (.noteOff ign note) := by
  have h : opcode (Instr.noteOff ign note).header = 0x9#4 := opcode_append₂ rfl _ _ _
  refine ⟨rfl, rfl, ?_, ?_⟩
  · simp [headerLen, h, Instr.format, Format.words]
  · rw [rowsOf_eq, h]; rfl

theorem allOff (ign : BitVec 28) : Statement (.allOff ign) := by
  have h : opcode (Instr.allOff ign).header = 0xB#4 := opcode_append _ _
  refine ⟨rfl, rfl, ?_, ?_⟩
  · simp [headerLen, h, Instr.format, Format.words]
  · rw [rowsOf_eq, h]; rfl

end EncodesAsOneRow

end Sys2Proof.Laws
end

