-- ==== Sys2Proof/Laws/Voice.lean ====
section
/-! SUPPORT. What each operation on a voice leaves unchanged, field by field, so that no proof unfolds a
record update. -/

namespace Sys2Proof.Machine

section
variable (v : Voice)

@[simp] theorem Voice.configure_active (N : Num) (sr : F32) :
    (v.configure N sr).active = v.active := rfl
@[simp] theorem Voice.configure_note (N : Num) (sr : F32) : (v.configure N sr).note = v.note := rfl
@[simp] theorem Voice.configure_velocity (N : Num) (sr : F32) :
    (v.configure N sr).velocity = v.velocity := rfl
@[simp] theorem Voice.configure_baseFreq (N : Num) (sr : F32) :
    (v.configure N sr).baseFreq = v.baseFreq := rfl
@[simp] theorem Voice.configure_hc (N : Num) (sr : F32) : (v.configure N sr).hc = v.hc := rfl
@[simp] theorem Voice.configure_attackTime (N : Num) (sr : F32) :
    (v.configure N sr).attackTime = v.attackTime := rfl
@[simp] theorem Voice.configure_releaseTime (N : Num) (sr : F32) :
    (v.configure N sr).releaseTime = v.releaseTime := rfl
@[simp] theorem Voice.configure_stage (N : Num) (sr : F32) :
    (v.configure N sr).stage = v.stage := rfl
@[simp] theorem Voice.configure_attackLevel (N : Num) (sr : F32) :
    (v.configure N sr).attackLevel = v.attackLevel := rfl
@[simp] theorem Voice.configure_releaseLevel (N : Num) (sr : F32) :
    (v.configure N sr).releaseLevel = v.releaseLevel := rfl
@[simp] theorem Voice.configure_releaseStart (N : Num) (sr : F32) :
    (v.configure N sr).releaseStart = v.releaseStart := rfl
@[simp] theorem Voice.configure_attackTotal (N : Num) (sr : F32) :
    (v.configure N sr).attackTotal = v.attackTotal := rfl
@[simp] theorem Voice.configure_attackRem (N : Num) (sr : F32) :
    (v.configure N sr).attackRem = v.attackRem := rfl
@[simp] theorem Voice.configure_releaseTotal (N : Num) (sr : F32) :
    (v.configure N sr).releaseTotal = v.releaseTotal := rfl
@[simp] theorem Voice.configure_releaseRem (N : Num) (sr : F32) :
    (v.configure N sr).releaseRem = v.releaseRem := rfl

@[simp] theorem Voice.bankAdvance_active :
    (v.bankAdvance).active = v.active := by unfold Voice.bankAdvance; rfl
@[simp] theorem Voice.bankAdvance_note :
    (v.bankAdvance).note = v.note := by unfold Voice.bankAdvance; rfl
@[simp] theorem Voice.bankAdvance_velocity :
    (v.bankAdvance).velocity = v.velocity := by unfold Voice.bankAdvance; rfl
@[simp] theorem Voice.bankAdvance_baseFreq :
    (v.bankAdvance).baseFreq = v.baseFreq := by unfold Voice.bankAdvance; rfl
@[simp] theorem Voice.bankAdvance_hc : (v.bankAdvance).hc = v.hc := by unfold Voice.bankAdvance; rfl
@[simp] theorem Voice.bankAdvance_attackTime :
    (v.bankAdvance).attackTime = v.attackTime := by unfold Voice.bankAdvance; rfl
@[simp] theorem Voice.bankAdvance_releaseTime :
    (v.bankAdvance).releaseTime = v.releaseTime := by unfold Voice.bankAdvance; rfl
@[simp] theorem Voice.bankAdvance_stage :
    (v.bankAdvance).stage = v.stage := by unfold Voice.bankAdvance; rfl
@[simp] theorem Voice.bankAdvance_attackLevel :
    (v.bankAdvance).attackLevel = v.attackLevel := by unfold Voice.bankAdvance; rfl
@[simp] theorem Voice.bankAdvance_releaseLevel :
    (v.bankAdvance).releaseLevel = v.releaseLevel := by unfold Voice.bankAdvance; rfl
@[simp] theorem Voice.bankAdvance_releaseStart :
    (v.bankAdvance).releaseStart = v.releaseStart := by unfold Voice.bankAdvance; rfl
@[simp] theorem Voice.bankAdvance_attackTotal :
    (v.bankAdvance).attackTotal = v.attackTotal := by unfold Voice.bankAdvance; rfl
@[simp] theorem Voice.bankAdvance_attackRem :
    (v.bankAdvance).attackRem = v.attackRem := by unfold Voice.bankAdvance; rfl
@[simp] theorem Voice.bankAdvance_releaseTotal :
    (v.bankAdvance).releaseTotal = v.releaseTotal := by unfold Voice.bankAdvance; rfl
@[simp] theorem Voice.bankAdvance_releaseRem :
    (v.bankAdvance).releaseRem = v.releaseRem := by unfold Voice.bankAdvance; rfl
@[simp] theorem Voice.bankAdvance_inc :
    (v.bankAdvance).inc = v.inc := by unfold Voice.bankAdvance; rfl
@[simp] theorem Voice.bankAdvance_gain :
    (v.bankAdvance).gain = v.gain := by unfold Voice.bankAdvance; rfl

@[simp] theorem Voice.envStart_active (sr : F32) : (v.envStart sr).active = v.active := rfl
@[simp] theorem Voice.envStart_note (sr : F32) : (v.envStart sr).note = v.note := rfl
@[simp] theorem Voice.envStart_velocity (sr : F32) : (v.envStart sr).velocity = v.velocity := rfl
@[simp] theorem Voice.envStart_baseFreq (sr : F32) : (v.envStart sr).baseFreq = v.baseFreq := rfl
@[simp] theorem Voice.envStart_hc (sr : F32) : (v.envStart sr).hc = v.hc := rfl
@[simp] theorem Voice.envStart_attackTime (sr : F32) :
    (v.envStart sr).attackTime = v.attackTime := rfl
@[simp] theorem Voice.envStart_releaseTime (sr : F32) :
    (v.envStart sr).releaseTime = v.releaseTime := rfl
@[simp] theorem Voice.envStart_phase (sr : F32) : (v.envStart sr).phase = v.phase := rfl
@[simp] theorem Voice.envStart_inc (sr : F32) : (v.envStart sr).inc = v.inc := rfl
@[simp] theorem Voice.envStart_gain (sr : F32) : (v.envStart sr).gain = v.gain := rfl

@[simp] theorem Voice.stop_active :
    (v.stop).active = v.active := by unfold Voice.stop Voice.envStop; split <;> rfl
@[simp] theorem Voice.stop_note :
    (v.stop).note = v.note := by unfold Voice.stop Voice.envStop; split <;> rfl
@[simp] theorem Voice.stop_velocity :
    (v.stop).velocity = v.velocity := by unfold Voice.stop Voice.envStop; split <;> rfl
@[simp] theorem Voice.stop_baseFreq :
    (v.stop).baseFreq = v.baseFreq := by unfold Voice.stop Voice.envStop; split <;> rfl
@[simp] theorem Voice.stop_hc :
    (v.stop).hc = v.hc := by unfold Voice.stop Voice.envStop; split <;> rfl
@[simp] theorem Voice.stop_attackTime :
    (v.stop).attackTime = v.attackTime := by unfold Voice.stop Voice.envStop; split <;> rfl
@[simp] theorem Voice.stop_releaseTime :
    (v.stop).releaseTime = v.releaseTime := by unfold Voice.stop Voice.envStop; split <;> rfl
@[simp] theorem Voice.stop_attackLevel :
    (v.stop).attackLevel = v.attackLevel := by unfold Voice.stop Voice.envStop; split <;> rfl
@[simp] theorem Voice.stop_attackTotal :
    (v.stop).attackTotal = v.attackTotal := by unfold Voice.stop Voice.envStop; split <;> rfl
@[simp] theorem Voice.stop_attackRem :
    (v.stop).attackRem = v.attackRem := by unfold Voice.stop Voice.envStop; split <;> rfl
@[simp] theorem Voice.stop_releaseTotal :
    (v.stop).releaseTotal = v.releaseTotal := by unfold Voice.stop Voice.envStop; split <;> rfl
@[simp] theorem Voice.stop_phase :
    (v.stop).phase = v.phase := by unfold Voice.stop Voice.envStop; split <;> rfl
@[simp] theorem Voice.stop_inc :
    (v.stop).inc = v.inc := by unfold Voice.stop Voice.envStop; split <;> rfl
@[simp] theorem Voice.stop_gain :
    (v.stop).gain = v.gain := by unfold Voice.stop Voice.envStop; split <;> rfl

@[simp] theorem Voice.envAdvance_note :
    (v.envAdvance).note = v.note := by unfold Voice.envAdvance; split <;> rfl
@[simp] theorem Voice.envAdvance_velocity :
    (v.envAdvance).velocity = v.velocity := by unfold Voice.envAdvance; split <;> rfl
@[simp] theorem Voice.envAdvance_baseFreq :
    (v.envAdvance).baseFreq = v.baseFreq := by unfold Voice.envAdvance; split <;> rfl
@[simp] theorem Voice.envAdvance_hc :
    (v.envAdvance).hc = v.hc := by unfold Voice.envAdvance; split <;> rfl
@[simp] theorem Voice.envAdvance_attackTime :
    (v.envAdvance).attackTime = v.attackTime := by unfold Voice.envAdvance; split <;> rfl
@[simp] theorem Voice.envAdvance_releaseTime :
    (v.envAdvance).releaseTime = v.releaseTime := by unfold Voice.envAdvance; split <;> rfl
@[simp] theorem Voice.envAdvance_releaseStart :
    (v.envAdvance).releaseStart = v.releaseStart := by unfold Voice.envAdvance; split <;> rfl
@[simp] theorem Voice.envAdvance_attackTotal :
    (v.envAdvance).attackTotal = v.attackTotal := by unfold Voice.envAdvance; split <;> rfl
@[simp] theorem Voice.envAdvance_releaseTotal :
    (v.envAdvance).releaseTotal = v.releaseTotal := by unfold Voice.envAdvance; split <;> rfl
@[simp] theorem Voice.envAdvance_phase :
    (v.envAdvance).phase = v.phase := by unfold Voice.envAdvance; split <;> rfl
@[simp] theorem Voice.envAdvance_inc :
    (v.envAdvance).inc = v.inc := by unfold Voice.envAdvance; split <;> rfl
@[simp] theorem Voice.envAdvance_gain :
    (v.envAdvance).gain = v.gain := by unfold Voice.envAdvance; split <;> rfl

@[simp] theorem Voice.advance_note : (v.advance).note = v.note := by simp [Voice.advance]
@[simp] theorem Voice.advance_velocity :
    (v.advance).velocity = v.velocity := by simp [Voice.advance]
@[simp] theorem Voice.advance_baseFreq :
    (v.advance).baseFreq = v.baseFreq := by simp [Voice.advance]
@[simp] theorem Voice.advance_hc : (v.advance).hc = v.hc := by simp [Voice.advance]
@[simp] theorem Voice.advance_attackTime :
    (v.advance).attackTime = v.attackTime := by simp [Voice.advance]
@[simp] theorem Voice.advance_releaseTime :
    (v.advance).releaseTime = v.releaseTime := by simp [Voice.advance]
@[simp] theorem Voice.advance_releaseStart :
    (v.advance).releaseStart = v.releaseStart := by simp [Voice.advance]
@[simp] theorem Voice.advance_attackTotal :
    (v.advance).attackTotal = v.attackTotal := by simp [Voice.advance]
@[simp] theorem Voice.advance_releaseTotal :
    (v.advance).releaseTotal = v.releaseTotal := by simp [Voice.advance]
@[simp] theorem Voice.advance_inc : (v.advance).inc = v.inc := by simp [Voice.advance]
@[simp] theorem Voice.advance_gain : (v.advance).gain = v.gain := by simp [Voice.advance]

@[simp] theorem Voice.start_hc (N : Num) (sr : F32) (n : BitVec 8) (vel : F32) :
    (v.start N sr n vel).hc = v.hc := rfl
@[simp] theorem Voice.start_attackTime (N : Num) (sr : F32) (n : BitVec 8) (vel : F32) :
    (v.start N sr n vel).attackTime = v.attackTime := rfl
@[simp] theorem Voice.start_releaseTime (N : Num) (sr : F32) (n : BitVec 8) (vel : F32) :
    (v.start N sr n vel).releaseTime = v.releaseTime := rfl

end

end Sys2Proof.Machine
end

