-- ==== Sys2Proof/Tests/Slice0.lean ====
section
/-! SUPPORT. Tests: words from the spec decode to what they stand for, ill-formed terms are refused, and
instructions and vectors give the values of 95_test_vectors.md. Expected values are the spec's. -/

namespace Sys2Proof.Tests

open Sys2Proof.Machine

/-! ## Decoding, bit by bit from 30_encoding.md R114-R119 -/

theorem test_decode_nop : decode [0b0000_0000000000000000000000000000#32] = .ok (.nop 0, []) := by
  decide
/-- V6.2: ignored bits set. -/
theorem test_decode_nop_ignored_bits : decode [0x0ABCDEF0] = .ok (.nop 0xABCDEF0, []) := by decide
/-- R115: EVCOUNT 2 in [27:16], NSAMP 4409 in [15:0] (V6.1). -/
theorem test_decode_block :
    decode [0b0001_000000000010_0001000100111001#32] = .ok (.block 2 4409, []) := by decide
/-- R115: every EVCOUNT and NSAMP bit, the word behind it left. -/
theorem test_decode_block_all_ones : decode [0x1FFFFFFF, 7] = .ok (.block 4095 65535, [7]) := by decide
/-- R116: the operand word is taken whole. -/
theorem test_decode_rate :
    decode [0b0010_0001001000111010101111001101#32, 0x44DC0000, 9] =
      .ok (.rate 0x123ABCD 0x44DC0000, [9]) := by decide
/-- R117: NOTE in [7:0]. -/
theorem test_decode_noteOn :
    decode [0b1000_00000000000000000000_01000101#32, 0x3F800000] =
      .ok (.noteOn 0 69 0x3F800000, []) := by decide
/-- R118, V6.2. -/
theorem test_decode_noteOff :
    decode [0b1001_11111111111111111111_00111100#32] = .ok (.noteOff 0xFFFFF 60, []) := by decide
/-- R119. -/
theorem test_decode_allOff : decode [0b1011_0000000000000000000000000000#32] = .ok (.allOff 0, []) := by
  decide
/-- R121: the ten reserved opcodes, one word each. -/
theorem test_decode_reserved :
    ∀ op ∈ [3, 4, 5, 6, 7, 10, 12, 13, 14, 15],
      decode [BitVec.ofNat 32 (op * 2 ^ 28), 1] =
        .error (.reserved (BitVec.ofNat 32 (op * 2 ^ 28))) := by decide
/-- R112, R309: an operand word that has not arrived. -/
theorem test_decode_missing_operand :
    decode [0x80000045] = .error (.missingOperand 0x80000045) ∧
      decode [0x20000000] = .error (.missingOperand 0x20000000) ∧ decode [] = .error .empty := by decide

/-! ## Well-formedness: one ill-formed term for each check -/

theorem test_legalIn_refuses :
    (Instr.block 1 8).legalIn .eventList = false ∧
    (Instr.rate 0 0x44DC0000).legalIn .eventList = false ∧
    (Instr.noteOn 0 69 0).legalIn .topLevel = false ∧
    (Instr.noteOff 0 69).legalIn .topLevel = false ∧
    (Instr.allOff 0).legalIn .topLevel = false := by decide
theorem test_canonical_refuses :
    (Instr.nop 1).canonical = false ∧ (Instr.rate 1 0).canonical = false ∧
    (Instr.noteOn 1 69 0).canonical = false ∧ (Instr.noteOff 1 69).canonical = false ∧
    (Instr.allOff 1).canonical = false := by decide
/-- A block with a record missing, with a record that is no event, and an event at top level. -/
theorem test_stream_refuses :
    streamWellFormed 0 [.block 2 8, .noteOn 0 69 0] = false ∧
    streamWellFormed 0 [.block 1 8, .rate 0 0x44DC0000] = false ∧
    streamWellFormed 0 [.rate 0 0x44DC0000, .allOff 0] = false := by decide
theorem test_stream_accepts :
    streamWellFormed 0 [.rate 0 0x44DC0000, .block 2 8, .noteOn 0 69 0, .nop 0, .nop 0] = true := by
  decide
/-- R8: more channels than 15, a FIFO of one word, an unaligned base. -/
theorem test_config_refuses :
    ¬({ testConfig 1 with numChannels := 16 } : Config).Legal ∧
    ¬({ testConfig 1 with cmdDepth := 1 } : Config).Legal ∧
    ¬({ testConfig 3 with outDepth := 2 } : Config).Legal ∧
    ¬({ testConfig 1 with base := 4 } : Config).Legal :=
  ⟨fun h => absurd h.channels.2 (by decide), fun h => absurd h.cmdFifo.1 (by decide),
   fun h => absurd h.outFifo.1 (by decide), fun h => absurd h.aligned (by decide)⟩
/-- R125: out-of-range operands are assembly errors, never truncated. -/
theorem test_assemble_refuses :
    (AsmLine.block 65536 0).assemble = .error .nsampRange ∧
    (AsmLine.block 0 4096).assemble = .error .evcountRange ∧
    (AsmLine.noteOff 256).assemble = .error .noteRange ∧
    (AsmLine.rate (.pattern (2 ^ 32))).assemble = .error .patternRange := by decide
/-- V6.1, from text. -/
theorem test_assemble_text :
    (parseLine "  NOTEON 60, 0.5 ; a note".toList) =
      .ok (some (.command (.noteOn 60 (.decimal false 5 10)))) ∧
    assembleAll [.block 4409 2, .rate (.decimal false 441000 10), .noteOn 60 (.decimal false 5 10)] =
      .ok [0x10021139, 0x20000000, 0x472C4400, 0x8000003C, 0x3F000000] := by
  decide +kernel

/-- R126, R128: `PANIC`, `SILENCE 4`, and `PLAY 8` with the records of P1 between braces, from text. -/
theorem test_pseudo_text :
    (parseProgram ("PANIC\nSILENCE 4 ; quiet\nPLAY 8 ".toList ++ openBrace ::
        " NOTEON 69, 1.0;\n NOP ".toList ++ closeBrace :: " ; done\nWAITIDLE".toList)) =
      .ok [.pseudo .panic, .pseudo (.silence 4),
        .pseudo (.play 8 [.noteOn 69 (.decimal false 10 10), .nop]), .waitIdle] ∧
    Pseudo.panic.assemble = .ok [0x10010000, 0xB0000000] ∧
    (Pseudo.play 8 [.noteOn 69 (.decimal false 10 10)]).assemble =
      .ok [0x10010008, 0x80000045, 0x3F800000] := by decide +kernel

/-- R127: WAITIDLE reads STATUS twice, busy before the engine has taken the NOP and drained after, and
only then does the last read start. -/
theorem test_waitIdle_repeats :
    let s : State := { State.resetWith (testConfig 1) with
      schedule := [.host .monitor, .host .monitor, .engine, .host .monitor, .host .monitor] }
    let ops := [HostOp.access (writeAccess (testConfig 1) 0x40 0), .waitIdle,
      .access (readAccess (testConfig 1) 0x14)]
    (match HostRun.run (testConfig 1) (fun i t => .next (runWith (testConfig 1) i t)) 5
        (.start .monitor ops s) with
      | .next r => (r.finished (testConfig 1), r.machine.replies.map fun p => p.data)
      | .fault _ => (false, [])
      | .refused _ => (false, [])) = (true, [0x8, 0xC, 0x1]) := by decide +kernel

/-- R317: a program without a last WAITIDLE is not over while its word is in the FIFO, and is over once the
engine has taken it; the result holds the word popped and the one left, not the 0 of an empty read. -/
theorem test_run_ends_drained :
    let c := testConfig 1
    let s : State := { State.resetWith c with
      outQ := [5, 6]
      pending := ⟨[], [], [readAccess c 0x44], []⟩
      schedule := [.host .commandWriter, .host .outputReader, .engine] }
    let start : HostRun := .start .commandWriter [.access (writeAccess c 0x40 0)] s
    let after (n : Nat) : Option (List Word × List Word) :=
      match HostRun.run c (fun i t => .next (runWith c i t)) n start with
      | .next r => (r.result c).map fun q => (q.popped, q.left)
      | .fault _ => none
      | .refused _ => none
    after 2 = none ∧ after 3 = some ([5], [6]) ∧ after 9 = some ([5], [6]) := by decide +kernel

/-! ## The host's two questions -/

theorem test_decodeTableWord :
    decodeTableWord 32 0x10010008 = some (.block 1 8) ∧
    decodeTableWord 64 0x3F80000080000045 = some (.noteOn 0 69 0x3F800000) ∧
    decodeTableWord 32 0x20000000 = some (.rate 0 0) ∧
    decodeTableWord 32 0x30000000 = none := by decide
/-- The first step after reset runs the instruction placed: a NOTEON is recorded as an allocation. -/
theorem test_step_runs_placed_word :
    step (State.reset.withFetchWord 64 0x3F80000080000045) =
      exec (.noteOn 0 69 0x3F800000)
        { State.reset with seqMode := .events, evLeft := 1 } := by rfl
/-- The same for a BLOCK, which is refused because no rate was set (R275). -/
theorem test_step_runs_placed_block :
    step (State.reset.withFetchWord 32 0x10010008) =
      .next { State.reset with
        errBits := 4, errInfo := 0x10010008, evLeft := 1, seqMode := .skip } := by rfl

/-! ## Instructions, under the test configuration of 95_test_vectors.md section 0 -/

/-- The reset state of the test configuration, in a mode and with a rate of 1760 Hz. -/
def at1760 (m : SeqMode) : State :=
  { State.resetWith (testConfig 1) with
    sampleRate := 0x44DC0000, rateValid := true, seqMode := m, evLeft := 2, smpLeft := 3 }

/-- One instruction under the test configuration. -/
def run (i : Instr) (s : State) : State := runWith (testConfig 1) i s

theorem test_nop_top_level : run (.nop 5) (at1760 .idle) = at1760 .idle := by decide +kernel
theorem test_nop_counts :
    run (.nop 5) { at1760 .events with evLeft := 1 } = { at1760 .samples with evLeft := 0 } := by
  decide +kernel
/-- V5.6: HARMONIC_COUNT 100 is latched as 32; R211: every voice gets it. -/
theorem test_block_latch :
    let t := run (.block 1 8) { at1760 .idle with regHarmonicCount := 100, regReleaseTime := 5 }
    (t.blkH, t.blkRel, t.seqMode, t.evLeft, t.smpLeft) = (32, 5, .events, 1, 8) ∧
      (t.voice 15).hc = 32 ∧ (t.voice 0).releaseTime = 5 := by decide +kernel
/-- P4: a BLOCK before any rate. -/
theorem test_block_no_rate :
    let t := run (.block 1 4) { at1760 .idle with rateValid := false }
    (t.errBits, t.errInfo, t.seqMode, t.evLeft, t.smpLeft) = (4, 0x10010004, .skip, 1, 0) := by
  decide +kernel
/-- V5.2 at 44100 Hz. -/
theorem test_rate :
    let t := run (.rate 0 0x472C4400) (State.resetWith (testConfig 1))
    (t.sampleRate, t.rateValid, t.smoothCoeff) = (0x472C4400, true, 0x3A948600) := by decide +kernel
/-- V7: RATE -1.0. -/
theorem test_rate_bad :
    let t := run (.rate 0 0xBF800000) (at1760 .idle)
    (t.errBits, t.errInfo, t.sampleRate) = (2, 0xBF800000, 0x44DC0000) := by decide +kernel
/-- V2.2, V2.4, V3.1, V4.4: note 69 at 1760 Hz on the first free voice. -/
theorem test_noteOn :
    let t := run (.noteOn 0 69 0x3F800000) (at1760 .events)
    let v := t.voice 0
    (v.baseFreq, v.inc[0], v.gain[0], v.velocity) =
      (0x43DC0000, 0x3FC90FDB, 0x3F666666, 0x3F4CCCCD) ∧
    (v.stage, v.attackRem, v.releaseTotal, t.lastAlloc.word, t.evLeft) = (.attack, 3, 1, 0x100, 1) := by
  decide +kernel
/-- V4.1: voices 3 and 7 releasing with 5 and 4 samples left, the others sustaining. -/
theorem test_noteOn_steals_nearest_release :
    let sustaining : Voice := { Voice.reset (testConfig 1) with
      active := true, stage := .sustain, velocity := 0x3F4CCCCD, attackTotal := 3, releaseTotal := 6 }
    let s : State := { at1760 .events with
      voices := ((Vector.replicate 16 sustaining).set 3
        { sustaining with stage := .release, releaseRem := 5 }).set 7
        { sustaining with stage := .release, releaseRem := 4 } }
    (run (.noteOn 0 60 0) s).lastAlloc.word = 0x117 := by decide +kernel
/-- V3.5: a stop right after a start releases from +0.0. -/
theorem test_noteOff :
    let v := (run (.noteOff 0 69) (run (.noteOn 0 69 0x3F800000) (at1760 .events))).voice 0
    (v.stage, v.releaseStart, v.releaseRem, v.active) = (.release, 0, 1, true) := by decide +kernel
/-- R246: no voice has the note. -/
theorem test_noteOff_unmatched :
    run (.noteOff 0 69) (at1760 .events) = { at1760 .events with evLeft := 1 } := by decide +kernel
/-- R247, R174: a sustaining voice releases from 1.0, an inactive one is left alone. -/
theorem test_allOff :
    let on : Voice := { Voice.reset (testConfig 1) with
      active := true, stage := .sustain, attackTotal := 3, releaseTotal := 6 }
    let s : State := { at1760 .events with voices := (at1760 .events).voices.set 4 on }
    let t := run (.allOff 0) s
    ((t.voice 4).stage, (t.voice 4).releaseStart, (t.voice 4).releaseRem) = (.release, 0x3F800000, 6) ∧
      t.voice 3 = s.voice 3 := by decide +kernel
/-- R249: an event at top level. -/
theorem test_event_at_top_level :
    let t := run (.allOff 0) (at1760 .idle)
    (t.errBits, t.errInfo, t.voices) = (1, 0xB0000000, (at1760 .idle).voices) := by decide +kernel

/-! ## Vectors -/

/-- V1.3, V1.5. -/
theorem test_waveLookup :
    waveLookup refNum 0x3A490FDB = 0x3A490FD5 ∧ waveLookup refNum 0xBFC90FDB = 0xBF800000 ∧
    waveLookup refNum 0x7F800000 = 0x7FC00000 := by decide +kernel
/-- V2.1, V2.3. -/
theorem test_pitch_and_gain :
    pitch refNum 60 = 0x4382D012 ∧ harmonicGain refNum 2 2 = 0x3EA6F4DF := by decide +kernel
/-- V3.1. -/
theorem test_samplesOf :
    samplesOf 0x44DC0000 0x3B000000 = 3 ∧ samplesOf 0x472C4400 0x7FC00000 = 1 ∧
    samplesOf 0x4F7FFFFF 0x3F800000 = 0xFFFFFF00 ∧ samplesOf 0x7149F2CA 0x7149F2CA = 0xFFFFFFFF := by
  decide +kernel
/-- V3.2: the last attack step before SUSTAIN. -/
theorem test_envAdvance :
    ({ Voice.reset (testConfig 1) with stage := .attack, attackTotal := 3, attackRem := 2 }
      : Voice).envAdvance.attackLevel = 0x3EAAAAAA := by decide +kernel
/-- V4.4. -/
theorem test_scaledVelocity :
    scaledVelocity 0x3F7FFFFF = 0x3F4CCCCC ∧ scaledVelocity 1 = 1 ∧ scaledVelocity 0x7FC00000 = 0 := by
  decide +kernel
/-- V5.1, V5.3. -/
theorem test_loudness :
    loudnessTarget refNum 3 2 = 0x3F446502 ∧ smoothed 0x3A948600 kOne 0x3F000000 = 0x3F7FDADE := by
  decide +kernel
/-- V5.4. -/
theorem test_softClip :
    softClip refNum 0x3F333333 = 0x3F333333 ∧ softClip refNum 0xBF800000 = 0xBF6DB0C0 ∧
    softClip refNum 0x404A5BE4 = 0x3F800000 := by decide +kernel
/-- V6.4, V7: acknowledging errors, and the descriptors of illegal accesses. -/
theorem test_errors :
    let s : State := { at1760 .idle with errBits := 6, errInfo := 9 }
    ((s.acknowledge 0x200).errBits, (s.acknowledge 0x200).errInfo) = (4, 9) ∧
    (s.acknowledge 0x600).errInfo = 0 ∧
    busDescriptor 0x45 .byte .read = 0x45 ∧ busDescriptor 0x10 .half (.write 5) = 0x310 := by
  decide +kernel
/-- V8: what the registers read after reset. -/
theorem test_reset_reads :
    let c := testConfig 2
    let s := State.resetWith c
    (s.readReg c .config, s.readReg c .status, s.readReg c .fifoStatus, s.readReg c .loudnessScale) =
      (0x012C2010, 0xC, 0x100, 0x3F800000) := by decide +kernel

/-! ## Witnesses: a concrete state and operands meeting the hypotheses of each statement -/

/-- A voice sustaining note 60, as a block at the reset controls leaves it. -/
def sustaining : Voice :=
  { Voice.reset Config.machine with
    active := true, note := 60, velocity := 0x3F4CCCCD, stage := .sustain, attackLevel := 0x3F800000
    attackTotal := 3, releaseTotal := 6 }

/-- All voices sustaining, in a mode, with an error recorded. -/
def playing (m : SeqMode) : State :=
  { State.reset with
    voices := Vector.replicate 16 sustaining
    seqMode := m
    evLeft := if m = .events ∨ m = .skip then 1 else 0
    smpLeft := if m = .samples then 2 else 0
    errBits := 0x10, errInfo := 0x45, sampleRate := 0x44DC0000, rateValid := true }

theorem playing_voice (m : SeqMode) (i : Fin 16) : (playing m).voice i = sustaining := by
  simp [State.voice, playing]

theorem reset_voice (i : Fin 16) : State.reset.voice i = Voice.reset Config.machine := by
  simp [State.voice, State.reset, State.resetWith]

theorem sustaining_inv : sustaining.Inv := by constructor <;> decide

theorem sustaining_levels : sustaining.LevelInv := by constructor <;> decide

theorem playing_inv (m : SeqMode) : (playing m).Inv Config.machine where
  voices i := by rw [playing_voice]; exact sustaining_inv
  seq := by cases m <;> constructor <;> simp [playing]
  cmdBound := by simp [playing, State.reset, State.resetWith]
  outBound := by simp [playing, State.reset, State.resetWith]
  blkH := by cases m <;> exact ⟨by decide, by decide⟩
  pushed i := by rw [playing_voice]; exact ⟨rfl, rfl, rfl⟩
  errInfo := by cases m <;> decide
  rate := by cases m <;> exact ⟨fun _ => by decide, by decide⟩
  tier := by cases m <;> decide

theorem playing_levels (m : SeqMode) : (playing m).LevelInv := fun i => by
  rw [playing_voice]; exact sustaining_levels

/-- A host agent's turn with one access to make. -/
def withAccess (s : State) (a : Agent) (off : Nat) (op : AccessOp) : State :=
  { s with
    schedule := [.host a]
    pending := s.pending.put a [⟨Config.machine.base + off, .word, op⟩] }

theorem witness_EncodeOfDecodeGivesWords :
    decode [0x80000045, 0x3F800000, 5] = .ok (.noteOn 0 69 0x3F800000, [5]) := by decide
theorem witness_LengthFollowsOpcodeAlone :
    decode [0x20000000, 0x44DC0000] = .ok (.rate 0 0x44DC0000, []) ∧
    decode [0x80000045] = .error (.missingOperand 0x80000045) ∧
    decode [0xF0000000] = .error (.reserved 0xF0000000) := by decide
theorem witness_MatchAndMaskSelectOneRow :
    opcode 0xB0000000 ∉ [0x3#4, 0x4#4, 0x5#4, 0x6#4, 0x7#4, 0xA#4, 0xC#4, 0xD#4, 0xE#4, 0xF#4] ∧
    opcode 0xA0000000 ∈ [0x3#4, 0x4#4, 0x5#4, 0x6#4, 0x7#4, 0xA#4, 0xC#4, 0xD#4, 0xE#4, 0xF#4] := by
  decide
/-- The modes of NopOnlyCounts, IgnoredBitsChangeNothing and AllOffStopsEveryVoice, and a run of samples. -/
theorem witness_modes :
    State.reset.seqMode = .idle ∧ (playing .events).seqMode = .events ∧
    (playing .samples).seqMode = .samples ∧ (playing .skip).seqMode = .skip ∧
    (playing .samples).smpLeft ≠ 0 ∧ (playing .samples).schedule = [] := by decide
theorem witness_StepRunsDecodedInstruction :
    let s : State := { playing .events with cmdQ := [0x9000003C, 0] }
    s.engineNext ∧ s.seqMode ≠ .samples ∧ decode s.cmdQ = .ok (.noteOff 0 60, [0]) :=
  ⟨.inl rfl, by decide, by decide⟩
theorem witness_EngineWaitsForWholeCommand :
    State.reset.engineNext ∧ State.reset.seqMode ≠ .samples ∧ State.reset.cmdQ = [] ∧
    opcode 0x20000000 = 0x2#4 ∧ opcode 0x80000045 = 0x8#4 :=
  ⟨.inl rfl, by decide, rfl, by decide, by decide⟩
theorem witness_BadTopLevelHeaderReported :
    let s : State := { State.reset with cmdQ := [0x80000045, 0] }
    s.engineNext ∧ s.seqMode = .idle ∧ opcode 0x80000045 ∉ [0x0#4, 0x1#4, 0x2#4] ∧
      opcode 0x30000000 ∉ [0x0#4, 0x1#4, 0x2#4] ∧ headerLen 0x80000045 ≤ s.cmdQ.length :=
  ⟨.inl rfl, rfl, by decide, by decide, by decide⟩
theorem witness_BadRecordReportedAndCounted :
    let s : State := { playing .events with cmdQ := [0x20000000, 0] }
    s.engineNext ∧ s.seqMode = .events ∧ opcode 0x20000000 ∉ [0x0#4, 0x8#4, 0x9#4, 0xB#4] ∧
      opcode 0xA0000000 ∉ [0x0#4, 0x8#4, 0x9#4, 0xB#4] ∧ headerLen 0x20000000 ≤ s.cmdQ.length :=
  ⟨.inl rfl, rfl, by decide, by decide, by decide⟩
theorem witness_SkippedRecordDiscarded :
    let s : State := { playing .skip with cmdQ := [0x30000000] }
    s.engineNext ∧ s.seqMode = .skip ∧ headerLen 0x30000000 ≤ s.cmdQ.length ∧ s.evLeft = 1 :=
  ⟨.inl rfl, rfl, by decide, by decide⟩
theorem witness_BlockStatements :
    (playing .idle).seqMode = .idle ∧ (playing .idle).rateValid = true ∧
    State.reset.seqMode = .idle ∧ State.reset.rateValid = false := by decide
/-- The smallest subnormal, an ordinary rate and the largest finite one. -/
theorem witness_RateSetsRateAndReconfigures :
    (isFinite 0x00000001 = true ∧ signBit 0x00000001 = false ∧ isZero 0x00000001 = false) ∧
    (isFinite 0x44DC0000 = true ∧ signBit 0x44DC0000 = false ∧ isZero 0x44DC0000 = false) ∧
    (isFinite 0x7F7FFFFF = true ∧ signBit 0x7F7FFFFF = false ∧ isZero 0x7F7FFFFF = false) := by decide
theorem witness_BadRateRefused :
    isNaN 0x7F800001 = true ∧ isInf 0x7F800000 = true ∧ isZero 0x80000000 = true ∧
    isZero 0x00000000 = true ∧ signBit 0x80000001 = true := by decide
theorem witness_NoteOnAllocatesAndStarts :
    (playing .events).seqMode = .events ∧ (playing .events).LevelInv :=
  ⟨rfl, playing_levels .events⟩
/-- The clauses at their boundaries: NaN, -0.0, 1.0, the smallest subnormal and the last below 1. -/
theorem witness_VelocityClampedAndScaled :
    isNaN 0x7F800001 = true ∧ fle 0x80000000 posZero = true ∧ fge 0x3F800000 kOne = true ∧
    fgt 0x00000001 posZero = true ∧ flt 0x3F7FFFFF kOne = true ∧ fgt 0x3F7FFFFF posZero = true := by
  decide
/-- Note 60 is first held by voice 0; no voice holds note 61. -/
theorem witness_NoteOffStopsFirstMatch :
    let s := playing .events
    ((s.voice 0).active = true ∧ (s.voice 0).note = 60) ∧
    (∀ j < (0 : Fin 16), ¬((s.voice j).active = true ∧ (s.voice j).note = 60)) ∧
    ∀ i, ¬((s.voice i).active = true ∧ (s.voice i).note = 61) := by
  simp only [playing_voice]
  decide
theorem witness_SampleStepWritesThenAdvances :
    (playing .samples).engineNext ∧
    (playing .samples).outQ.length + Config.machine.numChannels ≤ Config.machine.outDepth :=
  ⟨.inl rfl, by
    have h := Config.openOutDepth.isLt
    simp [playing, State.reset, State.resetWith, Config.machine]⟩
theorem witness_FullOutputFifoHoldsEngine :
    let s : State :=
      { playing .samples with outQ := List.replicate Config.machine.outDepth 0 }
    s.engineNext ∧ s.seqMode = .samples ∧
      Config.machine.outDepth < s.outQ.length + Config.machine.numChannels :=
  ⟨.inl rfl, rfl, by simp [Config.machine]⟩
/-- Each stage, the attack's last advance and one before it, the release's last and one before it. -/
theorem witness_VoiceAdvanceFollowsSpec :
    let v (m : Stage) (n : BitVec 32) : Voice :=
      { sustaining with stage := m, attackRem := n, releaseRem := n }
    (v .idle 0).stage = .idle ∧ sustaining.stage = .sustain ∧ (v .attack 1).attackRem = 1 ∧
    (v .attack 2).attackRem ≠ 1 ∧ (v .release 1).releaseRem = 1 ∧ (v .release 2).releaseRem ≠ 1 := by
  decide
/-- One sample left and room for its frame. -/
theorem witness_BlockSamplesRunToIdle :
    let s : State := { playing .samples with smpLeft := 1 }
    s.schedule = [] ∧ s.seqMode = .samples ∧ s.smpLeft ≠ 0 ∧
      s.outQ.length + s.smpLeft.toNat * Config.machine.numChannels ≤ Config.machine.outDepth :=
  ⟨rfl, rfl, by decide, by simp [playing, State.reset, State.resetWith, Config.machine]⟩
theorem witness_StepKeepsMachineInvariant :
    ∃ t, (playing .idle).Inv Config.machine ∧ step (playing .idle) = .next t :=
  ⟨_, playing_inv .idle, rfl⟩
/-- For StepKeepsLevelBounds and StagesMoveOnlyAsListed. -/
theorem witness_StepKeepsLevelBounds :
    ∃ t, (∀ i, ((playing .idle).voice i).Inv) ∧ (playing .idle).LevelInv ∧
      (playing .idle).noResetNext ∧ step (playing .idle) = .next t :=
  ⟨_, (playing_inv .idle).voices, playing_levels .idle, by simp [State.noResetNext, playing, State.reset, State.resetWith], rfl⟩
/-- For EnvelopeTimelines and EnvelopeGainsMonotone. -/
theorem witness_EnvelopeTimelines :
    sustaining.Inv ∧ sustaining.LevelInv ∧ sustaining.active = true ∧ sustaining.stage ≠ .release ∧
      4 + 1 < sustaining.releaseTotal.toNat :=
  ⟨sustaining_inv, sustaining_levels, rfl, by decide, by decide⟩
/-- The last operands in range and the first out of it, and literals of both kinds. -/
theorem witness_AssemblerEncodesFieldsOrRefuses :
    (65535 < 65536 ∧ 4095 < 4096) ∧ ¬(65536 < 65536 ∧ 0 < 4096) ∧ ¬(0 < 65536 ∧ 4096 < 4096) ∧
    255 < 256 ∧ ¬256 < 256 ∧ (FloatLit.decimal true 5 10).InRange ∧
    (FloatLit.pattern (2 ^ 32 - 1)).InRange ∧ ¬(FloatLit.pattern (2 ^ 32)).InRange :=
  ⟨by decide, by decide, by decide, by decide, by decide, by simp [FloatLit.InRange],
    by simp [FloatLit.InRange], by simp [FloatLit.InRange]⟩
/-- NaN, just below 1, exactly 1, just below 2^32, and 2^32. -/
theorem witness_SamplesOfCountsAtLeastOne :
    isNaN (fmul 0x7F800001 0x3F800000) = true ∧ flt (fmul 0x3F7FFFFF 0x3F800000) kOne = true ∧
    fge (fmul 0x3F800000 0x3F800000) kOne = true ∧
    flt (fmul 0x4F7FFFFF 0x3F800000) k2to32 = true ∧
    fge (fmul 0x4F800000 0x3F800000) k2to32 = true := by decide +kernel
theorem witness_SeventeenthNoteTakesSmallestVelocity :
    let s := playing .events
    s.seqMode = .events ∧ s.LevelInv ∧
    (∀ j, (s.voice j).active = true ∧ (s.voice j).stage = .sustain) ∧
    (∀ j, (s.voice 0).velocity.toNat ≤ (s.voice j).velocity.toNat) ∧
    ∀ j < (0 : Fin 16), (s.voice 0).velocity.toNat < (s.voice j).velocity.toNat := by
  refine ⟨rfl, playing_levels .events, ?_, ?_, fun j hj => absurd hj (Fin.not_lt_zero j)⟩ <;>
    simp only [playing_voice] <;> decide
/-- The largest phase and increment the hypothesis admits. -/
theorem witness_PhasesStayBelowTwoPi :
    let v : Voice := { sustaining with
      phase := Vector.replicate 32 0x40C90FDA, inc := Vector.replicate 32 0x40C90FDA }
    ∀ k : Fin 32, k.val < v.hc → v.phase[k].toNat < 0x40C90FDB ∧ v.inc[k].toNat < 0x40C90FDB := by
  intro v k _
  simp [v]
/-- A phase that is not finite, a finite phase whose position overflows, and the largest below 2π. -/
theorem witness_WaveLookupInterpolatesOrIsNaN :
    isFinite 0x7F800000 = false ∧ isFinite 0xFFC00000 = false ∧ isFinite 0x7F7FFFFF = true ∧
    isFinite (fmul (fdiv 0x7F7FFFFF 0x40C90FDB) 0x45800000) = false ∧
    isFinite (fmul (fdiv 0x40C90FDA 0x40C90FDB) 0x45800000) = true := by decide +kernel
theorem witness_SoftClipStatements :
    fle (fabs 0xBF333333) k0_7 = true ∧ isNaN 0xBF800000 = false ∧
    TanhBounded { refNum with tanh := fun _ => kOne } :=
  ⟨by decide, by decide, ⟨fun _ _ => ⟨by change fle posZero kOne = true; decide, by change fle kOne kOne = true; decide⟩, rfl⟩⟩
/-- Opposite infinities, zero times infinity, zero by zero, the root of -1. -/
theorem witness_EveryProducedNaNIsCanonical :
    isNaN (fadd posInf (fneg posInf)) = true ∧ isNaN (fmul posZero posInf) = true ∧
    isNaN (fdiv posZero posZero) = true ∧ isNaN (fsqrt 0xBF800000) = true := by decide
theorem witness_ArithmeticStatements :
    isFinite 0x7F7FFFFF = true ∧ isFinite 0x00000001 = true ∧ isZero 0x00000001 = false ∧
    signBit 0x7F7FFFFF = false := by decide

/-- The step of a single scheduled access that completes. -/
theorem step_withAccess (s : State) (a : Agent) (off : Nat) (op : AccessOp) (h : off < 256)
    {d : Option Word} {u : State}
    (hu : ({ withAccess s a off op with schedule := [] } : State).hostAccess
      Config.machine off .word op = some (d, u)) :
    step (withAccess s a off op) = .next (u.served a [] (Config.machine.base + off) d) := by
  have hp : ({ withAccess s a off op with schedule := [] } : State).pending.of a =
      [⟨Config.machine.base + off, .word, op⟩] := by cases a <;> rfl
  have hw : inWindow Config.machine (Config.machine.base + off) = true := by
    simp [inWindow, h]
  change hostTurn Config.machine a { withAccess s a off op with schedule := [] } = _
  simp [hostTurn, hp, hw, hu]

/-- A STATUS write of 1 to a set error bit clears it; the other set bit stays. -/
theorem witness_ErrorBitStatements :
    ∃ s t, s.noResetNext ∧ step s = .next t ∧ s.errBits.getLsbD ErrCode.badCmd.code = true ∧
      t.errBits.getLsbD ErrCode.badCmd.code = false ∧ s.errBits ≠ 0 ∧ t.errBits ≠ 0 :=
  ⟨withAccess { State.reset with errBits := 3, errInfo := 7 } .monitor 4 (.write 0x100), _,
    by simp [State.noResetNext, withAccess], step_withAccess _ _ _ _ (by decide) rfl,
    by decide, by decide, by decide, by decide⟩
theorem witness_IllegalAccessOnlyRaisesBusError :
    ¬(AccessSize.byte = .word ∧ 0 % 4 = 0) ∧ ¬(AccessSize.half = .word ∧ 252 % 4 = 0) ∧
    ¬(AccessSize.word = .word ∧ 255 % 4 = 0) := by decide
/-- The offsets at which the clauses meet; 0x34, 0x3C, 0x48 and 0xFC are ResetRegistersRead's reserved ones. -/
theorem witness_LegalReadsHaveNoSideEffect :
    ∀ off ∈ [0x00, 0x30, 0x34, 0x3C, 0x40, 0x48, 0xFC], off < 256 ∧ off % 4 = 0 ∧ off ≠ 0x44 := by
  decide
theorem witness_OutFifoReadPopsOrUnderflows :
    ({ State.reset with outQ := [1, 2] } : State).outQ = 1 :: [2] ∧ State.reset.outQ = [] := ⟨rfl, rfl⟩
/-- Room for a word, and a full FIFO with the write pending. -/
theorem witness_CmdFifoWriteAppendsOrIsHeld :
    State.reset.cmdQ.length < Config.machine.cmdDepth ∧
    let s : State := withAccess
      { State.reset with cmdQ := List.replicate Config.machine.cmdDepth 0 } .commandWriter 0x40 (.write 1)
    s.cmdQ.length = Config.machine.cmdDepth ∧ s.schedule.head? = some (.host .commandWriter) ∧
      s.pending.of .commandWriter = ⟨Config.machine.base + 0x40, .word, .write 1⟩ :: [] :=
  ⟨by simp [State.reset, State.resetWith, Config.machine], by simp [withAccess], rfl, rfl⟩
theorem witness_ControlWritesReplaceOthersIgnored :
    ∀ off ∈ [0x00, 0x08, 0x0C, 0x1C, 0x3C, 0x44, 0xFC],
      off < 256 ∧ off % 4 = 0 ∧ off ∉ [0x04, 0x10, 0x14, 0x18, 0x40] := by decide
/-- A control register write, about to be served at the last address of the window. -/
theorem witness_HostTurnServesNextAccess :
    let s := withAccess State.reset .controlWriter 0xFC (.write 5)
    s.schedule.head? = some (.host .controlWriter) ∧
    s.pending.of .controlWriter = ⟨Config.machine.base + 0xFC, .word, .write 5⟩ :: [] ∧
    Config.machine.base + 0xFC < Config.machine.base + 256 ∧
    State.hostAccess Config.machine { s with schedule := s.schedule.tail }
      (Config.machine.base + 0xFC - Config.machine.base) .word (.write 5) =
        some (none, { s with schedule := s.schedule.tail }) :=
  ⟨rfl, rfl, by omega, by rw [Nat.add_sub_cancel_left]; rfl⟩
/-- An engine's step and a host's step, neither a reset: for CommandFifoKeepsOrder, OutputFifoKeepsOrder,
BlockLatchesHeldDuringBlock, HostTurnsLeaveEngineState and EngineLeavesControlRegisters. -/
theorem witness_WholeMachineStatements :
    (∃ t, (playing .events).noResetNext ∧ (playing .events).engineNext ∧
      step (playing .events) = .next t ∧ (playing .events).seqMode ≠ .idle) ∧
    ∃ s t, s.noResetNext ∧ s.schedule.head? = some (.host .outputReader) ∧ step s = .next t :=
  ⟨⟨_, by simp [State.noResetNext, playing, State.reset, State.resetWith], .inl rfl, rfl, by decide⟩,
    ⟨withAccess State.reset .outputReader 0x44 .read, _, by simp [State.noResetNext, withAccess], rfl,
      step_withAccess _ _ _ _ (by decide) rfl⟩⟩
theorem witness_ResetDiscardsEverything :
    ({ playing .samples with schedule := [.reset] } : State).schedule.head? = some .reset := rfl

end Sys2Proof.Tests
end

section
/-! PROOFS. The arithmetic of Machine/Binary32.lean: the only NaN it makes is the canonical one, and
its one rounding is to nearest, ties to even. -/

namespace Sys2Proof.Machine

/-! ## Canonical NaNs (00_scope.md R15) -/

/-- `r` is the canonical NaN if it is a NaN at all. -/
def CanonicalNaN (r : F32) : Prop := isNaN r = true → r = qNaN

theorem CanonicalNaN.of_not_isNaN {r : F32} (h : ¬ isNaN r = true) : CanonicalNaN r :=
  fun hr => absurd hr h

theorem canonicalNaN_qNaN : CanonicalNaN qNaN := fun _ => rfl

/-- A packed magnitude up to that of infinity is no NaN. -/
theorem canonicalNaN_pack {neg : Bool} {m : Nat} (h : m ≤ 0x7F800000) : CanonicalNaN (pack neg m) :=
  .of_not_isNaN (by simp [isNaN_pack h])

theorem canonicalNaN_pack_roundUnits (neg : Bool) (num den : Nat) :
    CanonicalNaN (pack neg (roundUnits num den)) :=
  canonicalNaN_pack (roundUnits_le num den)

theorem canonicalNaN_canon (x : F32) : CanonicalNaN (canon x) := by
  unfold canon
  split_ifs with h
  · exact canonicalNaN_qNaN
  · exact .of_not_isNaN h

theorem canonicalNaN_fadd (a b : F32) : CanonicalNaN (fadd a b) := by
  unfold fadd
  dsimp only
  split_ifs with hnan
  · exact canonicalNaN_qNaN
  · exact canonicalNaN_qNaN
  · exact .of_not_isNaN fun ha => hnan (by simp [ha])
  · exact .of_not_isNaN fun hb => hnan (by simp [hb])
  · exact canonicalNaN_pack (by decide)
  · exact canonicalNaN_pack_roundUnits _ _ _

theorem canonicalNaN_fmul (a b : F32) : CanonicalNaN (fmul a b) := by
  unfold fmul
  split_ifs
  · exact canonicalNaN_qNaN
  · exact canonicalNaN_qNaN
  · exact canonicalNaN_pack le_rfl
  · exact canonicalNaN_pack_roundUnits _ _ _

theorem canonicalNaN_fdiv (a b : F32) : CanonicalNaN (fdiv a b) := by
  unfold fdiv
  split_ifs
  · exact canonicalNaN_qNaN
  · exact canonicalNaN_qNaN
  · exact canonicalNaN_pack le_rfl
  · exact canonicalNaN_pack (by decide)
  · exact canonicalNaN_qNaN
  · exact canonicalNaN_pack le_rfl
  · exact canonicalNaN_pack_roundUnits _ _ _

theorem canonicalNaN_fsqrt (x : F32) : CanonicalNaN (fsqrt x) := by
  unfold fsqrt
  split_ifs with hnan
  · exact canonicalNaN_qNaN
  · exact .of_not_isNaN hnan
  · exact canonicalNaN_qNaN
  · exact .of_not_isNaN hnan
  · exact canonicalNaN_pack_roundUnits _ _ _

/-- A lookup answers the canonical NaN outright, or what its last addition answers. -/
theorem canonicalNaN_waveLookup (N : Num) (ph : F32) : CanonicalNaN (waveLookup N ph) := by
  unfold waveLookup
  dsimp only
  split_ifs
  · exact canonicalNaN_qNaN
  · exact canonicalNaN_fadd _ _

/-- Settles O39: every branch of every operation answers the canonical NaN, a packed magnitude up to
infinity's, a value made canonical, or an operand that is no NaN. -/
theorem everyProducedNaNIsCanonical : Obligations.EveryProducedNaNIsCanonical := by
  intro N a b k i n
  simp only [List.forall_mem_cons]
  exact ⟨canonicalNaN_fadd a b, canonicalNaN_fadd a (fneg b), canonicalNaN_fmul a b,
    canonicalNaN_fdiv a b, canonicalNaN_fsqrt a, canonicalNaN_pack_roundUnits _ _ _,
    canonicalNaN_canon _, canonicalNaN_canon _, canonicalNaN_canon _, canonicalNaN_canon _,
    canonicalNaN_canon _, canonicalNaN_canon _, canonicalNaN_waveLookup N a, by simp⟩

/-! ## The line of magnitude patterns

A pattern `m` below infinity's stands for `patternUnits m` units. Read so, the pattern of infinity
stands for the value at which the overflow threshold is the midpoint, so that overflow is one more
rounding. -/

/-- The units of a magnitude pattern; the patterns of one exponent are `2 ^ q` units apart. -/
def patternUnits (m : Nat) : Nat := (m - (m / 2 ^ 23 - 1) * 2 ^ 23) * 2 ^ (m / 2 ^ 23 - 1)

theorem units_eq_patternUnits (x : F32) : units x = patternUnits (magnitude x) := by
  have hf := fracField_lt x
  have he : magnitude x / 2 ^ 23 = expField x := by rw [magnitude_eq_fields]; omega
  unfold units patternUnits
  rw [he, magnitude_eq_fields]
  rcases Nat.eq_zero_or_pos (expField x) with h0 | hpos
  · simp [h0]
  · rw [if_neg (by omega), Nat.max_eq_left hpos]
    congr 1
    omega

/-- The pattern of the significand `k` at the scale `2 ^ q`. -/
theorem patternUnits_significand {q k : Nat} (hk : k < 2 ^ 24) (hq : q ≠ 0 → 2 ^ 23 ≤ k) :
    patternUnits (q * 2 ^ 23 + k) = k * 2 ^ q := by
  have he : (q * 2 ^ 23 + k) / 2 ^ 23 - 1 = q := by omega
  unfold patternUnits
  rw [he, Nat.add_sub_cancel_left]

theorem patternUnits_succ (m : Nat) :
    patternUnits (m + 1) = patternUnits m + 2 ^ (m / 2 ^ 23 - 1) := by
  unfold patternUnits
  rcases Nat.lt_or_ge ((m + 1) / 2 ^ 23 - 1) (m / 2 ^ 23 - 1 + 1) with hsame | hnext
  · have hq : (m + 1) / 2 ^ 23 - 1 = m / 2 ^ 23 - 1 := by omega
    rw [hq, Nat.sub_add_comm (by omega), Nat.add_mul, Nat.one_mul]
  · have hq : (m + 1) / 2 ^ 23 - 1 = m / 2 ^ 23 - 1 + 1 := by omega
    have hlast : m - (m / 2 ^ 23 - 1) * 2 ^ 23 = 2 ^ 24 - 1 := by omega
    have hfirst : m + 1 - (m / 2 ^ 23 - 1 + 1) * 2 ^ 23 = 2 ^ 23 := by omega
    rw [hq, hlast, hfirst, pow_succ]
    ring

theorem patternUnits_strictMono : StrictMono patternUnits :=
  strictMono_nat_of_lt_succ fun m => by
    rw [patternUnits_succ]
    exact Nat.lt_add_of_pos_right (Nat.two_pow_pos _)

theorem patternUnits_zero : patternUnits 0 = 0 := rfl

/-- Twice the midpoint between a pattern and its successor, in units. -/
def midpointTwice (m : Nat) : Nat := patternUnits m + patternUnits (m + 1)

theorem midpointTwice_strictMono : StrictMono midpointTwice := fun _ _ h =>
  Nat.add_lt_add (patternUnits_strictMono h) (patternUnits_strictMono (Nat.succ_lt_succ h))

theorem midpointTwice_eq (m : Nat) :
    midpointTwice m = 2 * patternUnits m + 2 ^ (m / 2 ^ 23 - 1) := by
  rw [midpointTwice, patternUnits_succ]
  ring

theorem midpointTwice_lt_of_lt {j p : Nat} (h : j < p) : midpointTwice j < 2 * patternUnits p := by
  have hj := patternUnits_strictMono h
  have hsucc : patternUnits (j + 1) ≤ patternUnits p := patternUnits_strictMono.monotone h
  rw [midpointTwice]
  omega

theorem lt_midpointTwice_of_lt {j p : Nat} (h : p < j) :
    2 * patternUnits (p + 1) < midpointTwice j := by
  have hj : patternUnits (p + 1) ≤ patternUnits j := patternUnits_strictMono.monotone h
  have hsucc : patternUnits j < patternUnits (j + 1) := patternUnits_strictMono j.lt_add_one
  rw [midpointTwice]
  omega

/-- Between the largest finite pattern and infinity's lies the overflow threshold. -/
theorem cast_midpointTwice_last :
    (midpointTwice 0x7F7FFFFF : ℝ) = (2 ^ 128 - 2 ^ 103) * 2 ^ 149 * 2 := by
  have h : midpointTwice 0x7F7FFFFF = (2 ^ 128 - 2 ^ 103) * 2 ^ 149 * 2 := by decide +kernel
  rw [h]
  norm_num

/-- Above the smallest exponents twice a midpoint is even. -/
theorem midpointTwice_even_or_lt (m : Nat) : midpointTwice m % 2 = 0 ∨ midpointTwice m < 2 ^ 25 := by
  rcases Nat.eq_zero_or_pos (m / 2 ^ 23 - 1) with h0 | hpos
  · right
    rw [midpointTwice_eq, patternUnits, h0]
    omega
  · left
    rw [midpointTwice_eq, ← Nat.succ_pred_eq_of_pos hpos, pow_succ]
    omega

/-! ## Rounding to nearest, ties to even -/

/-- `m` is the magnitude pattern nearest to `x` units, ties to even, up to infinity's pattern. -/
structure RoundsTo (x : ℝ) (m : Nat) : Prop where
  le_inf : m ≤ 0x7F800000
  below : ∀ j < m, (midpointTwice j : ℝ) ≤ 2 * x
  above : ∀ j, m ≤ j → j < 0x7F800000 → 2 * x ≤ midpointTwice j
  tie : ∀ j < 0x7F800000, (midpointTwice j : ℝ) = 2 * x → m % 2 = 0

/-- `roundUnits` takes a significand `k` and a remainder `r` at a scale `2 ^ q`, and rounds half to
even. -/
theorem roundUnits_eq (num : Nat) {den : Nat} (hd : 0 < den) :
    ∃ q k r, num = den * 2 ^ q * k + r ∧ r < den * 2 ^ q ∧ k < 2 ^ 24 ∧ (q ≠ 0 → 2 ^ 23 ≤ k) ∧
      roundUnits num den = min (q * 2 ^ 23 + k +
        if 2 * r > den * 2 ^ q ∨ (2 * r = den * 2 ^ q ∧ k % 2 = 1) then 1 else 0) 0x7F800000 := by
  obtain ⟨hlt, hge⟩ := roundUnits_scale (num := num) hd
  have hD (q : Nat) : 0 < den * 2 ^ q := Nat.mul_pos hd (Nat.two_pow_pos q)
  refine ⟨_, _, _, (Nat.div_add_mod _ _).symm, Nat.mod_lt _ (hD _), ?_, fun hq => ?_, rfl⟩
  · rw [Nat.div_lt_iff_lt_mul (hD _), Nat.mul_left_comm, ← pow_add]
    exact hlt
  · rw [Nat.le_div_iff_mul_le (hD _), Nat.mul_left_comm, ← pow_add]
    exact hge hq

/-- Against `num / den`, which lies between the patterns `p` and `p + 1`, the midpoint of these two
decides the rounding. The bound of infinity is not applied to `c` yet. -/
theorem roundUnits_midpoints (num : Nat) {den : Nat} (hd : 0 < den) :
    ∃ c, roundUnits num den = min c 0x7F800000 ∧
      (∀ j < c, midpointTwice j * den ≤ 2 * num) ∧
      (∀ j, c ≤ j → 2 * num ≤ midpointTwice j * den) ∧
      ∀ j, midpointTwice j * den = 2 * num → c % 2 = 0 := by
  obtain ⟨q, k, r, hnum, hr, hk, hk', hround⟩ := roundUnits_eq num hd
  obtain ⟨p, hp⟩ : ∃ p, p = q * 2 ^ 23 + k := ⟨_, rfl⟩
  have hexp : p / 2 ^ 23 - 1 = q := by omega
  have hunits : patternUnits p = k * 2 ^ q := by rw [hp, patternUnits_significand hk hk']
  have hmid : midpointTwice p * den = 2 * (den * 2 ^ q * k) + den * 2 ^ q := by
    rw [midpointTwice_eq, hexp, hunits]
    ring
  have hbelow (j : Nat) (hj : j < p) : midpointTwice j * den < 2 * num :=
    calc midpointTwice j * den < 2 * patternUnits p * den :=
          Nat.mul_lt_mul_of_pos_right (midpointTwice_lt_of_lt hj) hd
      _ = 2 * (den * 2 ^ q * k) := by rw [hunits]; ring
      _ ≤ 2 * num := by omega
  have habove (j : Nat) (hj : p < j) : 2 * num < midpointTwice j * den :=
    calc 2 * num < 2 * (den * 2 ^ q * k + den * 2 ^ q) := by omega
      _ = 2 * patternUnits (p + 1) * den := by rw [patternUnits_succ, hexp, hunits]; ring
      _ < midpointTwice j * den := Nat.mul_lt_mul_of_pos_right (lt_midpointTwice_of_lt hj) hd
  rw [← hp] at hround
  refine ⟨_, hround, fun j hj => ?_, fun j hj => ?_, fun j hj => ?_⟩ <;>
    rcases lt_trichotomy j p with hlt | rfl | hgt
  · exact (hbelow j hlt).le
  · split_ifs at hj <;> omega
  · split_ifs at hj <;> omega
  · omega
  · split_ifs at hj <;> omega
  · exact (habove j hgt).le
  · exact absurd hj (hbelow j hlt).ne
  · split_ifs <;> omega
  · exact absurd hj (habove j hgt).ne'

/-- `roundUnits` rounds its fraction to nearest, ties to even. -/
theorem roundsTo_roundUnits (num : Nat) {den : Nat} (hd : 0 < den) :
    RoundsTo ((num : ℝ) / den) (roundUnits num den) := by
  obtain ⟨c, hc, hbelow, habove, htie⟩ := roundUnits_midpoints num hd
  have hd' : (0 : ℝ) < den := by exact_mod_cast hd
  have htwice : 2 * ((num : ℝ) / den) = (2 * num : ℕ) / den := by push_cast; ring
  rw [hc]
  constructor
  · exact Nat.min_le_right _ _
  · intro j hj
    rw [htwice, le_div_iff₀ hd']
    exact_mod_cast hbelow j (by omega)
  · intro j hj hinf
    rw [htwice, div_le_iff₀ hd']
    exact_mod_cast habove j (by omega)
  · intro j _ hj
    rw [htwice, eq_div_iff hd'.ne'] at hj
    have := htie j (by exact_mod_cast hj)
    omega

/-- Two values on the same side of every midpoint round alike. -/
theorem RoundsTo.congr {x y : ℝ} {m : Nat} (h : RoundsTo x m)
    (hle : ∀ j, (midpointTwice j : ℝ) ≤ 2 * x → (midpointTwice j : ℝ) ≤ 2 * y)
    (hge : ∀ j, 2 * x ≤ (midpointTwice j : ℝ) → 2 * y ≤ (midpointTwice j : ℝ))
    (heq : ∀ j, (midpointTwice j : ℝ) = 2 * y → (midpointTwice j : ℝ) = 2 * x) :
    RoundsTo y m where
  le_inf := h.le_inf
  below j hj := hle j (h.below j hj)
  above j hj hinf := hge j (h.above j hj hinf)
  tie j hinf hj := h.tie j hinf (heq j hj)

/-- What rounds to a finite pattern lies below the overflow threshold. -/
theorem RoundsTo.lt_threshold {x : ℝ} {m : Nat} (h : RoundsTo x m) (hm : m < 0x7F800000) :
    2 * x < midpointTwice 0x7F7FFFFF := by
  refine lt_of_le_of_ne (h.above _ (by omega) (by decide)) fun heq => ?_
  have heven := h.tie _ (by decide) heq.symm
  have hprev : (midpointTwice 0x7F7FFFFE : ℝ) < midpointTwice 0x7F7FFFFF := by
    exact_mod_cast midpointTwice_strictMono (by decide)
  have := h.above 0x7F7FFFFE (by omega) (by decide)
  linarith

/-- Any other signed pattern below the rounded one is at least as far off, a tie only if it is even. -/
theorem RoundsTo.le_of_lt {x : ℝ} {m n : Nat} (h : RoundsTo x m) (hx : 0 ≤ x) {w : ℤ}
    (hw : w.natAbs = patternUnits n) (hlt : w < patternUnits m) :
    (w : ℝ) + patternUnits m ≤ 2 * x ∧ ((w : ℝ) + patternUnits m = 2 * x → m % 2 = 0) := by
  cases m with
  | zero =>
    have hneg : (w : ℝ) < 0 := by exact_mod_cast hlt
    exact ⟨by rw [patternUnits_zero, Nat.cast_zero]; linarith, fun _ => rfl⟩
  | succ j =>
    have hwj : w ≤ patternUnits j := by
      have := patternUnits_strictMono.lt_iff_lt (a := n) (b := j + 1)
      have := patternUnits_strictMono.le_iff_le (a := n) (b := j)
      omega
    have hle : (w : ℝ) + patternUnits (j + 1) ≤ midpointTwice j := by
      have : (w : ℝ) ≤ patternUnits j := by exact_mod_cast hwj
      simp only [midpointTwice]
      push_cast
      linarith
    have hbelow := h.below j (Nat.lt_succ_self j)
    exact ⟨hle.trans hbelow, fun heq => h.tie j (by have := h.le_inf; omega) (by linarith)⟩

theorem RoundsTo.le_of_gt {x : ℝ} {m n : Nat} (h : RoundsTo x m) (hm : m < 0x7F800000) {w : ℤ}
    (hw : w.natAbs = patternUnits n) (hlt : patternUnits m < w) :
    2 * x ≤ (w : ℝ) + patternUnits m ∧ ((w : ℝ) + patternUnits m = 2 * x → m % 2 = 0) := by
  have hwm : patternUnits (m + 1) ≤ w := by
    have := patternUnits_strictMono.lt_iff_lt (a := m) (b := n)
    have := patternUnits_strictMono.le_iff_le (a := m + 1) (b := n)
    omega
  have hle : (midpointTwice m : ℝ) ≤ w + patternUnits m := by
    have : (patternUnits (m + 1) : ℝ) ≤ w := by exact_mod_cast hwm
    simp only [midpointTwice]
    push_cast
    linarith
  have habove := h.above m le_rfl hm
  exact ⟨habove.trans hle, fun heq => h.tie m hm (by linarith)⟩

/-- The rounded pattern is nearest among all signed patterns, and even where another is as near. -/
theorem RoundsTo.nearest {x : ℝ} {m n : Nat} (h : RoundsTo x m) (hx : 0 ≤ x) (hm : m < 0x7F800000)
    {w : ℤ} (hw : w.natAbs = patternUnits n) :
    |(patternUnits m : ℝ) - x| ≤ |(w : ℝ) - x| ∧
      ((w : ℝ) ≠ patternUnits m → |(patternUnits m : ℝ) - x| = |(w : ℝ) - x| → m % 2 = 0) := by
  rw [← sq_le_sq, ← sq_eq_sq_iff_abs_eq_abs]
  have hsq : ((w : ℝ) - x) ^ 2 - (patternUnits m - x) ^ 2 =
      (w - patternUnits m) * (w + patternUnits m - 2 * x) := by ring
  have htie (hne : (w : ℝ) ≠ patternUnits m)
      (heq : ((patternUnits m : ℝ) - x) ^ 2 = (w - x) ^ 2) : (w : ℝ) + patternUnits m = 2 * x := by
    rw [heq, sub_self, eq_comm, mul_eq_zero] at hsq
    exact sub_eq_zero.1 (hsq.resolve_left (sub_ne_zero.2 hne))
  rcases lt_trichotomy w (patternUnits m) with hlt | heq | hgt
  · obtain ⟨hle, heven⟩ := h.le_of_lt hx hw hlt
    have hlt' : (w : ℝ) < patternUnits m := by exact_mod_cast hlt
    exact ⟨by nlinarith, fun hne heq => heven (htie hne heq)⟩
  · have heq' : (w : ℝ) = patternUnits m := by exact_mod_cast heq
    exact ⟨by rw [heq'], fun hne => absurd heq' hne⟩
  · obtain ⟨hle, heven⟩ := h.le_of_gt hm hw hgt
    have hgt' : (patternUnits m : ℝ) < w := by exact_mod_cast hgt
    exact ⟨by nlinarith, fun hne heq => heven (htie hne heq)⟩

/-! ## From patterns to values -/

theorem natAbs_signedUnits (x : F32) : (signedUnits x).natAbs = patternUnits (magnitude x) := by
  rw [← units_eq_patternUnits, signedUnits]
  split_ifs <;> simp

theorem signedUnits_pack_false {m : Nat} (h : m < 2 ^ 31) :
    signedUnits (pack false m) = patternUnits m := by
  rw [signedUnits, signBit_pack h, units_eq_patternUnits, magnitude_pack h]
  rfl

theorem cast_value (x : F32) : (value x : ℝ) = signedUnits x / 2 ^ 149 := by
  unfold value
  push_cast
  rfl

/-- Distances between values are distances between units, scaled. -/
theorem abs_value_sub (b : F32) (x : ℝ) :
    |(value b : ℝ) - x / 2 ^ 149| = |signedUnits b - x| / 2 ^ 149 := by
  rw [cast_value, ← sub_div, abs_div, abs_of_pos (by positivity : (0 : ℝ) < 2 ^ 149)]

theorem RoundsTo.correctlyRounded_of_lt {x : ℝ} {m : Nat} (h : RoundsTo x m) (hx : 0 ≤ x)
    (hm : m < 0x7F800000) : CorrectlyRounded (x / 2 ^ 149) (pack false m) := by
  have hlt : m < 2 ^ 31 := hm.trans (by decide)
  have hunits : (signedUnits (pack false m) : ℝ) = patternUnits m := by
    rw [signedUnits_pack_false hlt, Int.cast_natCast]
  have hnear (b : F32) := h.nearest hx hm (natAbs_signedUnits b)
  refine .inr (.inr ⟨?_, ?_, fun b _ => ?_, fun b _ hne heq => ?_, fun _ _ => ?_⟩)
  · have hthreshold := h.lt_threshold hm
    rw [cast_midpointTwice_last] at hthreshold
    rw [abs_of_nonneg (by positivity), div_lt_iff₀ (by positivity)]
    linarith
  · rwa [isFinite_iff, magnitude_pack hlt]
  · rw [abs_value_sub, abs_value_sub, hunits]
    exact div_le_div_of_nonneg_right (hnear b).1 (by positivity)
  · rw [abs_value_sub, abs_value_sub, hunits, div_left_inj' (by positivity)] at heq
    rw [pack_toNat hlt]
    refine (hnear b).2 (fun hw => hne ?_) heq
    rw [← hunits, Int.cast_inj] at hw
    rw [value, value, hw]
  · simp only [signBit_pack hlt, Bool.false_eq_true, false_iff, not_lt]
    positivity

/-- A non-negative number of units rounds correctly to the pattern nearest to it. -/
theorem RoundsTo.correctlyRounded {x : ℝ} {m : Nat} (h : RoundsTo x m) (hx : 0 ≤ x) :
    CorrectlyRounded (x / 2 ^ 149) (pack false m) := by
  rcases h.le_inf.lt_or_eq with hm | rfl
  · exact h.correctlyRounded_of_lt hx hm
  · have hthreshold := h.below 0x7F7FFFFF (by decide)
    rw [cast_midpointTwice_last] at hthreshold
    refine .inl ⟨?_, rfl⟩
    rw [le_div_iff₀ (by positivity)]
    linarith

/-! ## Negation -/

theorem magnitude_fneg (x : F32) : magnitude (fneg x) = magnitude x := magnitude_pack (magnitude_lt x)

theorem signBit_fneg (x : F32) : signBit (fneg x) = !signBit x := signBit_pack (magnitude_lt x)

theorem fneg_fneg (x : F32) : fneg (fneg x) = x := by
  rw [fneg, magnitude_fneg, signBit_fneg, Bool.not_not, pack_fields]

theorem fneg_pack {neg : Bool} {m : Nat} (h : m < 2 ^ 31) : fneg (pack neg m) = pack (!neg) m := by
  rw [fneg, signBit_pack h, magnitude_pack h]

theorem isFinite_fneg (x : F32) : isFinite (fneg x) = isFinite x := by
  rw [Bool.eq_iff_iff, isFinite_iff, isFinite_iff, magnitude_fneg]

theorem isZero_fneg (x : F32) : isZero (fneg x) = isZero x := by rw [isZero, magnitude_fneg, isZero]

theorem signedUnits_fneg (x : F32) : signedUnits (fneg x) = -signedUnits x := by
  rw [signedUnits, signedUnits, signBit_fneg, units_eq_patternUnits, magnitude_fneg,
    ← units_eq_patternUnits]
  cases signBit x <;> simp

theorem value_fneg (x : F32) : value (fneg x) = -value x := by
  rw [value, signedUnits_fneg, Int.cast_neg, neg_div, value]

theorem toNat_fneg_mod_two (x : F32) : (fneg x).toNat % 2 = x.toNat % 2 := by
  rw [toNat_eq_fields (fneg x), toNat_eq_fields x, ← magnitude_eq_fields, ← magnitude_eq_fields,
    magnitude_fneg]
  split_ifs <;> omega

/-- Rounding to nearest, ties to even, is symmetric about zero. -/
theorem CorrectlyRounded.neg {r : ℝ} {b : F32} (h : CorrectlyRounded r b) :
    CorrectlyRounded (-r) (fneg b) := by
  -- a distance from `-r` is one from `r` of the negated value
  have hdist (b : F32) : |(value b : ℝ) - -r| = |(value (fneg b) : ℝ) - r| := by
    rw [value_fneg, Rat.cast_neg, ← abs_neg]
    congr 1
    ring
  rcases h with ⟨hr, rfl⟩ | ⟨hr, rfl⟩ | ⟨hr, hfin, hnear, htie, hsign⟩
  · exact .inr (.inl ⟨by linarith, rfl⟩)
  · exact .inl ⟨by linarith, fneg_fneg _⟩
  · refine .inr (.inr ⟨by rwa [abs_neg], by rwa [isFinite_fneg], fun b' hb' => ?_,
      fun b' hb' hne heq => ?_, fun hz hr0 => ?_⟩)
    · rw [hdist, hdist, fneg_fneg]
      exact hnear _ (by rwa [isFinite_fneg])
    · rw [hdist, hdist, fneg_fneg] at heq
      rw [toNat_fneg_mod_two]
      refine htie _ (by rwa [isFinite_fneg]) (fun hv => hne ?_) heq
      rw [value_fneg, ← hv, value_fneg, neg_neg]
    · have := hsign (by rwa [isZero_fneg] at hz) (neg_ne_zero.1 hr0)
      rw [signBit_fneg, Bool.not_eq_true', Bool.eq_false_iff, ne_eq, this, not_lt, neg_lt_zero]
      exact ⟨fun h => lt_of_le_of_ne h (neg_ne_zero.1 hr0).symm, le_of_lt⟩

/-- The sign bit as a factor. -/
def signFactor (neg : Bool) : ℝ := if neg then -1 else 1

@[simp] theorem signFactor_false : signFactor false = 1 := rfl

@[simp] theorem signFactor_true : signFactor true = -1 := rfl

theorem signFactor_mul (s t : Bool) : signFactor s * signFactor t = signFactor (s != t) := by
  cases s <;> cases t <;> simp

theorem signFactor_div (s t : Bool) : signFactor s / signFactor t = signFactor (s != t) := by
  cases s <;> cases t <;> simp

theorem cast_signedUnits (x : F32) : (signedUnits x : ℝ) = signFactor (signBit x) * units x := by
  unfold signedUnits
  cases signBit x <;> simp

/-- An integer is the factor of its sign times its absolute value. -/
theorem intCast_eq_signFactor_mul (s : ℤ) : (s : ℝ) = signFactor (decide (s < 0)) * s.natAbs := by
  rw [Nat.cast_natAbs]
  rcases lt_or_ge s 0 with hneg | hnonneg
  · simp [hneg, abs_of_neg hneg]
  · simp [hnonneg.not_gt, abs_of_nonneg hnonneg]

/-- A signed fraction of units rounds correctly to the sign packed with `roundUnits`. -/
theorem correctlyRounded_pack_roundUnits (neg : Bool) (num : Nat) {den : Nat} (hd : 0 < den) {r : ℝ}
    (hr : r = signFactor neg * (num / den) / 2 ^ 149) :
    CorrectlyRounded r (pack neg (roundUnits num den)) := by
  have hpos := (roundsTo_roundUnits num hd).correctlyRounded (by positivity)
  cases neg with
  | false => simpa [hr] using hpos
  | true => simpa [hr, neg_div, fneg_pack (roundUnits_lt num den)] using hpos.neg

/-! ## Finite operands -/

theorem isNaN_of_isFinite {x : F32} (h : isFinite x = true) : isNaN x = false := by
  have := (isFinite_iff x).1 h
  rw [Bool.eq_false_iff, ne_eq, isNaN_iff]
  omega

theorem isInf_of_isFinite {x : F32} (h : isFinite x = true) : isInf x = false := by
  have := (isFinite_iff x).1 h
  rw [Bool.eq_false_iff, ne_eq, isInf_iff]
  omega

theorem units_pos {x : F32} (hx : isFinite x = true) (hz : isZero x = false) : 0 < units x := by
  rw [Nat.pos_iff_ne_zero, ne_eq, units_eq_zero_iff hx]
  simpa [isZero] using hz

/-- An exact zero sum aside, whose sign is free, `fadd` rounds the sum of the signed units. -/
theorem fadd_correctlyRounded {a b : F32} (ha : isFinite a = true) (hb : isFinite b = true) :
    CorrectlyRounded ((value a + value b : ℚ) : ℝ) (fadd a b) := by
  have hsum : ((value a + value b : ℚ) : ℝ) =
      ((signedUnits a + signedUnits b : ℤ) : ℝ) / 2 ^ 149 := by
    push_cast
    rw [cast_value, cast_value, add_div]
  unfold fadd
  simp only [isNaN_of_isFinite ha, isNaN_of_isFinite hb, isInf_of_isFinite ha, isInf_of_isFinite hb,
    Bool.or_self, Bool.false_eq_true, if_false]
  rw [hsum]
  generalize signedUnits a + signedUnits b = s
  split_ifs with hs
  · exact correctlyRounded_pack_roundUnits _ 0 (den := 1) one_pos (by simp [hs])
  · exact correctlyRounded_pack_roundUnits _ _ one_pos
      (by rw [Nat.cast_one, div_one, ← intCast_eq_signFactor_mul])

theorem fsub_correctlyRounded {a b : F32} (ha : isFinite a = true) (hb : isFinite b = true) :
    CorrectlyRounded ((value a - value b : ℚ) : ℝ) (fsub a b) := by
  have h := fadd_correctlyRounded ha (b := fneg b) (by rwa [isFinite_fneg])
  rwa [value_fneg, ← sub_eq_add_neg] at h

theorem fmul_correctlyRounded {a b : F32} (ha : isFinite a = true) (hb : isFinite b = true) :
    CorrectlyRounded ((value a * value b : ℚ) : ℝ) (fmul a b) := by
  unfold fmul
  simp only [isNaN_of_isFinite ha, isNaN_of_isFinite hb, isInf_of_isFinite ha, isInf_of_isFinite hb,
    Bool.or_self, Bool.false_eq_true, if_false]
  refine correctlyRounded_pack_roundUnits _ _ (Nat.two_pow_pos 149) ?_
  rw [Rat.cast_mul, cast_value, cast_value, cast_signedUnits, cast_signedUnits, ← signFactor_mul]
  push_cast
  ring

theorem fdiv_correctlyRounded {a b : F32} (ha : isFinite a = true) (hb : isFinite b = true)
    (hz : isZero b = false) : CorrectlyRounded ((value a / value b : ℚ) : ℝ) (fdiv a b) := by
  have hu := units_pos hb hz
  unfold fdiv
  simp only [isNaN_of_isFinite ha, isNaN_of_isFinite hb, isInf_of_isFinite ha, isInf_of_isFinite hb,
    hz, Bool.or_self, Bool.false_eq_true, if_false]
  refine correctlyRounded_pack_roundUnits _ _ hu ?_
  have hu' : (units b : ℝ) ≠ 0 := by exact_mod_cast hu.ne'
  rw [Rat.cast_div, cast_value, cast_value, div_div_div_cancel_right₀ (by positivity),
    cast_signedUnits, cast_signedUnits, mul_div_mul_comm, signFactor_div, Nat.cast_mul, Nat.cast_pow,
    Nat.cast_ofNat]
  field_simp

/-- Settles O40: each operation rounds its exact result once, by `roundUnits`. -/
theorem arithmeticCorrectlyRounded : Obligations.ArithmeticCorrectlyRounded := fun _ _ ha hb =>
  ⟨fadd_correctlyRounded ha hb, fsub_correctlyRounded ha hb, fmul_correctlyRounded ha hb,
    fdiv_correctlyRounded ha hb⟩

/-! ## The square root -/

/-- The bits found so far and those still to try enclose the root. -/
theorem isqrtFrom_spec (n fuel root : Nat) (hlo : root * root ≤ n)
    (hhi : n < (root + 2 ^ fuel) * (root + 2 ^ fuel)) :
    isqrtFrom n fuel root * isqrtFrom n fuel root ≤ n ∧
      n < (isqrtFrom n fuel root + 1) * (isqrtFrom n fuel root + 1) := by
  induction fuel generalizing root with
  | zero => exact ⟨hlo, hhi⟩
  | succ fuel ih =>
    have hsplit : root + 2 ^ (fuel + 1) = root + 2 ^ fuel + 2 ^ fuel := by rw [pow_succ]; ring
    rw [isqrtFrom]
    split_ifs with htried
    · exact ih _ htried (by rwa [hsplit] at hhi)
    · exact ih _ hlo (Nat.lt_of_not_le htried)

theorem isqrt_eq_sqrt {n : Nat} (h : n < 2 ^ 256 * 2 ^ 256) : isqrt n = Nat.sqrt n := by
  obtain ⟨hlo, hhi⟩ := isqrtFrom_spec n 256 0 (Nat.zero_le _) (by rwa [Nat.zero_add])
  exact Nat.eq_sqrt.2 ⟨hlo, hhi⟩

theorem units_lt_of_isFinite {x : F32} (hx : isFinite x = true) : units x < 2 ^ 277 := by
  rw [units_eq_patternUnits]
  calc patternUnits (magnitude x) < patternUnits 0x7F800000 :=
        patternUnits_strictMono ((isFinite_iff x).1 hx)
    _ = 2 ^ 277 := by decide +kernel

/-- No midpoint lies strictly between the two integers around a large root that is not exact. -/
theorem midpointTwice_around_sqrt {n : Nat} (hn : 2 ^ 50 ≤ n) (hne : Nat.sqrt n * Nat.sqrt n ≠ n)
    (j : Nat) :
    (midpointTwice j ≤ 2 * Nat.sqrt n ∧ (midpointTwice j : ℝ) < 2 * √n) ∨
      (2 * (Nat.sqrt n + 1) ≤ midpointTwice j ∧ 2 * √n < midpointTwice j) := by
  have hlarge : 2 ^ 25 ≤ Nat.sqrt n := Nat.le_sqrt.2 hn
  have hcases : midpointTwice j ≤ 2 * Nat.sqrt n ∨ 2 * (Nat.sqrt n + 1) ≤ midpointTwice j := by
    have := midpointTwice_even_or_lt j
    omega
  have hlo : (Nat.sqrt n : ℝ) < √n := by
    refine Real.lt_sqrt_of_sq_lt ?_
    rw [sq]
    exact_mod_cast lt_of_le_of_ne (Nat.sqrt_le n) hne
  refine hcases.imp (fun hj => ⟨hj, ?_⟩) (fun hj => ⟨hj, ?_⟩)
  · have : (midpointTwice j : ℝ) ≤ 2 * Nat.sqrt n := by exact_mod_cast hj
    linarith
  · have : (2 * (Nat.sqrt n + 1) : ℝ) ≤ midpointTwice j := by exact_mod_cast hj
    linarith [Real.real_sqrt_lt_nat_sqrt_succ (a := n)]

/-- The floor of a large root, and half a unit more unless it is exact, round as the root does. -/
theorem roundsTo_sqrt {n : Nat} (hn : 2 ^ 50 ≤ n) :
    RoundsTo √n (roundUnits (2 * Nat.sqrt n + if Nat.sqrt n * Nat.sqrt n = n then 0 else 1) 2) := by
  have h := roundsTo_roundUnits (2 * Nat.sqrt n + if Nat.sqrt n * Nat.sqrt n = n then 0 else 1)
    (den := 2) two_pos
  split_ifs at h ⊢ with hexact
  · have hsqrt : √(n : ℝ) = Nat.sqrt n := by
      rw [Real.sqrt_eq_iff_mul_self_eq (Nat.cast_nonneg _) (Nat.cast_nonneg _)]
      exact_mod_cast hexact.symm
    simpa [hsqrt] using h
  · have hside := midpointTwice_around_sqrt hn hexact
    have htwice : 2 * (((2 * Nat.sqrt n + 1 : ℕ) : ℝ) / (2 : ℕ)) = (2 * Nat.sqrt n + 1 : ℕ) := by
      push_cast
      ring
    refine h.congr (fun j hj => ?_) (fun j hj => ?_) (fun j hj => ?_)
    · rw [htwice, Nat.cast_le] at hj
      rcases hside j with ⟨-, hlt⟩ | ⟨hge, -⟩
      · exact hlt.le
      · omega
    · rw [htwice, Nat.cast_le] at hj
      rcases hside j with ⟨hle, -⟩ | ⟨-, hgt⟩
      · omega
      · exact hgt.le
    · rcases hside j with ⟨-, hlt⟩ | ⟨-, hgt⟩
      · exact absurd hj hlt.ne
      · exact absurd hj hgt.ne'

theorem fsqrt_correctlyRounded {a : F32} (ha : isFinite a = true) (hs : signBit a = false) :
    CorrectlyRounded (Real.sqrt (value a)) (fsqrt a) := by
  have hsigned : signedUnits a = units a := by rw [signedUnits, hs]; rfl
  have hvalue : (value a : ℝ) = units a / 2 ^ 149 := by rw [cast_value, hsigned]; rfl
  unfold fsqrt
  simp only [isNaN_of_isFinite ha, isInf_of_isFinite ha, hs, Bool.false_eq_true, if_false]
  by_cases hz : isZero a = true
  · rw [if_pos hz]
    have hmag : magnitude a = 0 := by simpa [isZero] using hz
    have hzero : a = pack false (roundUnits 0 1) := by rw [← pack_fields a, hs, hmag]; rfl
    rw [hvalue, (units_eq_zero_iff ha).2 hmag, hzero]
    exact correctlyRounded_pack_roundUnits false 0 one_pos (by simp)
  · rw [if_neg hz]
    have hpos := units_pos ha (by simpa using hz)
    have hsmall : units a * 2 ^ 149 < 2 ^ 256 * 2 ^ 256 :=
      calc units a * 2 ^ 149 < 2 ^ 277 * 2 ^ 149 :=
            Nat.mul_lt_mul_of_pos_right (units_lt_of_isFinite ha) (Nat.two_pow_pos _)
        _ ≤ 2 ^ 256 * 2 ^ 256 := by decide +kernel
    have hroot : √(value a : ℝ) = √(units a * 2 ^ 149 : ℕ) / 2 ^ 149 := by
      rw [hvalue, eq_div_iff (by positivity), ← Real.sqrt_sq (by positivity : (0 : ℝ) ≤ 2 ^ 149),
        ← Real.sqrt_mul (by positivity)]
      congr 1
      push_cast
      ring
    rw [isqrt_eq_sqrt hsmall, hroot]
    exact (roundsTo_sqrt (by omega)).correctlyRounded (Real.sqrt_nonneg _)

/-- Settles O41: the floor of the root and whether it is exact decide the rounding. -/
theorem squareRootCorrectlyRounded : Obligations.SquareRootCorrectlyRounded := fun _ ha hs =>
  fsqrt_correctlyRounded ha hs

end Sys2Proof.Machine
end

section
/-! PROOFS. The voice invariant (10_state.md R35): sample counts are at least 1, and every operation on
a voice keeps the invariant and, but for a push, the controls it was pushed. -/

namespace Sys2Proof.Machine

/-! ## Sample counts (42_envelope.md R171) -/

/-- A pattern in [1.0, 2^32) has a floor of 1 to 2^32 - 1. -/
theorem floorInt_bounds {x : F32} (hlo : 0x3F800000 ≤ x.toNat) (hhi : x.toNat ≤ 0x4F7FFFFF) :
    1 ≤ floorInt x ∧ floorInt x < 2 ^ 32 := by
  have hx : NonNeg x := .of_le hhi (by decide)
  have hone : 2 ^ 149 ≤ units x := by
    rw [← units_kOne]
    exact NonNeg.units_mono (by unfold NonNeg; decide) hx hlo
  have htop : units x ≤ units 0x4F7FFFFF#32 := hx.units_mono (by unfold NonNeg; decide) hhi
  have hlast : units 0x4F7FFFFF#32 < 2 ^ 181 := by decide +kernel
  simp only [floorInt, signedUnits, hx.sign, Bool.false_eq_true, if_false]
  omega

/-- A number neither below 1.0 nor at least 2^32 has a pattern between theirs. -/
theorem toNat_bounds_of_not_flt_of_not_fge {x : F32} (hnan : isNaN x = false) (hlo : flt x kOne = false)
    (hhi : fge x k2to32 = false) : 0x3F800000 ≤ x.toNat ∧ x.toNat ≤ 0x4F7FFFFF := by
  have hone : isNaN kOne = false ∧ orderKey kOne = 0x3F800000 := by decide
  have htop : isNaN k2to32 = false ∧ orderKey k2to32 = 0x4F800000 := by decide
  simp only [flt, fge, fle, hnan, hone, htop, Bool.not_false, Bool.and_self, Bool.true_and,
    decide_eq_false_iff_not, not_lt, not_le] at hlo hhi
  cases hs : signBit x with
  | true => simp only [orderKey, hs, if_true] at hlo; omega
  | false =>
    have hm := pack_toNat (neg := false) (magnitude_lt x)
    rw [← hs, pack_fields, hs] at hm
    simp only [orderKey, hs, Bool.false_eq_true, if_false] at hlo hhi hm
    omega

theorem one_le_samplesOf (sr t : F32) : 1 ≤ (samplesOf sr t).toNat := by
  unfold samplesOf
  generalize fmul t sr = x
  dsimp only
  split
  · decide
  next hlow =>
    split
    · decide
    next hhigh =>
      simp only [Bool.or_eq_true, not_or, Bool.not_eq_true] at hlow hhigh
      obtain ⟨hlo, hhi⟩ := toNat_bounds_of_not_flt_of_not_fge hlow.1 hlow.2 hhigh
      have hfloor := floorInt_bounds hlo hhi
      rw [BitVec.toNat_ofNat]
      omega

/-! ## The voice invariant (10_state.md R35) -/

/-- The invariant is about the envelope's state and the harmonic count alone. -/
theorem Voice.Inv.congr {v u : Voice} (h : v.Inv) (hactive : u.active = v.active)
    (hstage : u.stage = v.stage) (hat : u.attackTotal = v.attackTotal)
    (har : u.attackRem = v.attackRem) (hrt : u.releaseTotal = v.releaseTotal)
    (hrr : u.releaseRem = v.releaseRem) (hhc : 1 ≤ u.hc ∧ u.hc ≤ 32) : u.Inv where
  activeStage := by rw [hactive, hstage]; exact h.activeStage
  attackRem := by rw [hstage, har, hat]; exact h.attackRem
  releaseRem := by rw [hstage, hrr, hrt]; exact h.releaseRem
  harmonics := hhc
  totals := by rw [hstage, hat, hrt]; exact h.totals

theorem Voice.Inv.configure {v : Voice} (h : v.Inv) (N : Num) (sr : F32) : (v.configure N sr).Inv :=
  h.congr rfl rfl rfl rfl rfl rfl h.harmonics

theorem Voice.Inv.bankAdvance {v : Voice} (h : v.Inv) : v.bankAdvance.Inv :=
  h.congr (by simp) (by simp) (by simp) (by simp) (by simp) (by simp) (by simpa using h.harmonics)

/-- A start gives both counters their totals, at least 1 each (42_envelope.md R172). -/
theorem Voice.Inv.start {v : Voice} (h : v.Inv) (N : Num) (sr : F32) (note : BitVec 8) (vel : F32) :
    (v.start N sr note vel).Inv where
  activeStage := by simp [Voice.start, Voice.envStart]
  attackRem := fun _ => ⟨one_le_samplesOf _ _, le_rfl⟩
  releaseRem := by simp [Voice.start, Voice.envStart]
  harmonics := h.harmonics
  totals := .inr ⟨one_le_samplesOf _ _, one_le_samplesOf _ _⟩

/-- A voice that is stopped was sounding, so its release total is at least 1 (42_envelope.md R174). -/
theorem Voice.Inv.stop {v : Voice} (h : v.Inv) : v.stop.Inv := by
  unfold Voice.stop Voice.envStop
  split
  next hs =>
    have hstage : v.stage ≠ .idle := h.activeStage.1 hs.1
    have htotals := h.totals.resolve_left fun hidle => hstage hidle.1
    exact {
      activeStage := by simp [hs.1]
      attackRem := by simp
      releaseRem := fun _ => ⟨htotals.2, le_rfl⟩
      harmonics := h.harmonics
      totals := .inr htotals }
  · exact h

/-- A counter that is not at its last sample stays in range when it counts down. -/
theorem counter_sub_one_bounds {rem total : BitVec 32}
    (h : 1 ≤ rem.toNat ∧ rem.toNat ≤ total.toNat) (hne : rem - 1 ≠ 0) :
    1 ≤ (rem - 1).toNat ∧ (rem - 1).toNat ≤ total.toNat := by
  bv_omega

/-- An advance counts down by one and leaves the stage when none is left (42_envelope.md R175). -/
theorem Voice.Inv.envAdvance {v : Voice} (h : v.Inv) : v.envAdvance.Inv := by
  have htotals := fun hne : v.stage ≠ .idle => h.totals.resolve_left fun hidle => hne hidle.1
  unfold Voice.envAdvance
  split
  next hs =>
    have hne : v.stage ≠ .idle := by simp [hs]
    have hactive := h.activeStage.2 hne
    by_cases hlast : v.attackRem - 1 = 0
    · simp only [if_pos hlast]
      constructor <;> simp [hactive, h.harmonics, htotals hne]
    · have hcount := counter_sub_one_bounds (h.attackRem hs) hlast
      simp only [if_neg hlast]
      generalize v.attackRem - 1 = rem at hcount ⊢
      constructor <;> simp [hactive, h.harmonics, htotals hne, hcount]
  next hs =>
    have hne : v.stage ≠ .idle := by simp [hs]
    have hactive := h.activeStage.2 hne
    by_cases hlast : v.releaseRem - 1 = 0
    · simp only [if_pos hlast]
      constructor <;> simp [h.harmonics, htotals hne]
    · have hcount := counter_sub_one_bounds (h.releaseRem hs) hlast
      simp only [if_neg hlast]
      generalize v.releaseRem - 1 = rem at hcount ⊢
      constructor <;> simp [hactive, h.harmonics, htotals hne, hcount]
  · exact h
  · exact h

theorem Voice.Inv.advance {v : Voice} (h : v.Inv) : v.advance.Inv := h.envAdvance.bankAdvance

section push
variable (N : Num) (sr attackTime releaseTime : F32) (hc : Nat) (v : Voice)

@[simp] theorem Voice.push_hc : (v.push N sr attackTime releaseTime hc).hc = hc := by
  unfold Voice.push; dsimp only; split <;> rfl

@[simp] theorem Voice.push_releaseTime :
    (v.push N sr attackTime releaseTime hc).releaseTime = releaseTime := by
  unfold Voice.push; dsimp only; split <;> rfl

@[simp] theorem Voice.push_attackTime :
    (v.push N sr attackTime releaseTime hc).attackTime = attackTime := by
  unfold Voice.push; dsimp only; split <;> rfl

end push

theorem Voice.Inv.push {v : Voice} (h : v.Inv) (N : Num) (sr attackTime releaseTime : F32) {hc : Nat}
    (hhc : 1 ≤ hc ∧ hc ≤ 32) : (v.push N sr attackTime releaseTime hc).Inv := by
  have hpushed : Voice.Inv { v with hc := hc, releaseTime := releaseTime, attackTime := attackTime } :=
    h.congr rfl rfl rfl rfl rfl rfl hhc
  unfold Voice.push
  dsimp only
  split
  · exact hpushed.configure N sr
  · exact hpushed

/-- A voice with the invariant that holds the controls last pushed: what `State.Inv` says of each voice
(10_state.md R35; 44_block_mixer.md R211). -/
structure Voice.PushedInv (c : Config) (hc : Nat) (releaseTime : F32) (v : Voice) : Prop where
  inv : v.Inv
  hc : v.hc = hc
  releaseTime : v.releaseTime = releaseTime
  attackTime : v.attackTime = c.attackTime

section PushedInv
variable {c : Config} {hc : Nat} {releaseTime : F32} {v : Voice}

theorem Voice.PushedInv.configure (h : v.PushedInv c hc releaseTime) (N : Num) (sr : F32) :
    (v.configure N sr).PushedInv c hc releaseTime :=
  ⟨h.inv.configure N sr, h.hc, h.releaseTime, h.attackTime⟩

theorem Voice.PushedInv.start (h : v.PushedInv c hc releaseTime) (N : Num) (sr : F32)
    (note : BitVec 8) (vel : F32) : (v.start N sr note vel).PushedInv c hc releaseTime :=
  ⟨h.inv.start N sr note vel, h.hc, h.releaseTime, h.attackTime⟩

theorem Voice.PushedInv.stop (h : v.PushedInv c hc releaseTime) : v.stop.PushedInv c hc releaseTime :=
  ⟨h.inv.stop, v.stop_hc.trans h.hc, v.stop_releaseTime.trans h.releaseTime,
    v.stop_attackTime.trans h.attackTime⟩

theorem Voice.PushedInv.advance (h : v.PushedInv c hc releaseTime) :
    v.advance.PushedInv c hc releaseTime :=
  ⟨h.inv.advance, v.advance_hc.trans h.hc, v.advance_releaseTime.trans h.releaseTime,
    v.advance_attackTime.trans h.attackTime⟩

/-- A push leaves the controls it pushes, whatever they were before. -/
theorem Voice.Inv.pushedInv_push (h : v.Inv) (hhc : 1 ≤ hc ∧ hc ≤ 32) (N : Num) (sr : F32) :
    (v.push N sr c.attackTime releaseTime hc).PushedInv c hc releaseTime :=
  ⟨h.push N sr _ _ hhc, v.push_hc .., v.push_releaseTime .., v.push_attackTime ..⟩

end PushedInv

end Sys2Proof.Machine
end

section
/-! PROOFS. The machine's invariant (10_state.md R35, R39, R41, R46; 44_block_mixer.md R211;
60_exceptions.md R272): reset has it and every step keeps it. -/

namespace Sys2Proof.Machine

/-! ## The sequencer's invariant (10_state.md R46) -/

theorem State.SeqInv.congr {s t : State} (h : s.SeqInv) (hmode : t.seqMode = s.seqMode)
    (hev : t.evLeft = s.evLeft) (hsmp : t.smpLeft = s.smpLeft) : t.SeqInv where
  events := by rw [hmode, hev]; exact h.events
  skip := by rw [hmode, hev, hsmp]; exact h.skip
  samples := by rw [hmode, hev, hsmp]; exact h.samples
  idle := by rw [hmode, hev, hsmp]; exact h.idle

section modes
variable {s : State}

theorem State.SeqInv.of_idle (hmode : s.seqMode = .idle) (hev : s.evLeft = 0) (hsmp : s.smpLeft = 0) :
    s.SeqInv := by
  constructor <;> simp [hmode, hev, hsmp]

theorem State.SeqInv.of_events (hmode : s.seqMode = .events) (hev : s.evLeft ≠ 0) : s.SeqInv := by
  constructor <;> simp_all

theorem State.SeqInv.of_skip (hmode : s.seqMode = .skip) (hev : s.evLeft ≠ 0) (hsmp : s.smpLeft = 0) :
    s.SeqInv := by
  constructor <;> simp_all

theorem State.SeqInv.of_samples (hmode : s.seqMode = .samples) (hev : s.evLeft = 0)
    (hsmp : s.smpLeft ≠ 0) : s.SeqInv := by
  constructor <;> simp_all

/-- After a record there are more, or samples, or nothing is left (45_commands.md R244). -/
theorem State.endRecord_seqInv (hmode : s.seqMode = .events) : s.endRecord.SeqInv := by
  by_cases hev : s.evLeft - 1 = 0
  · by_cases hsmp : s.smpLeft = 0
    · exact .of_idle (by rw [State.endRecord_seqMode, if_pos hev, if_pos hsmp]) hev hsmp
    · exact .of_samples (by rw [State.endRecord_seqMode, if_pos hev, if_neg hsmp]) hev hsmp
  · exact .of_events (by rw [State.endRecord_seqMode, if_neg hev, hmode]) hev

/-- After a skipped record there are more, or the refused block is over (45_commands.md R248). -/
theorem State.SeqInv.endSkip (h : s.SeqInv) (hmode : s.seqMode = .skip) : s.endSkip.SeqInv := by
  have hsmp := (h.skip hmode).2
  by_cases hev : s.evLeft - 1 = 0
  · exact .of_idle (by rw [State.endSkip_seqMode, if_pos hev]) hev hsmp
  · exact .of_skip (by rw [State.endSkip_seqMode, if_neg hev, hmode]) hev hsmp

/-- A sample step leaves samples to run or ends the block (44_block_mixer.md R213). -/
theorem State.SeqInv.sampleStep (h : s.SeqInv) (hmode : s.seqMode = .samples) (c : Config) :
    (s.sampleStep c).SeqInv := by
  have hev := (h.samples hmode).1
  rw [State.sampleStep_eq]
  by_cases hsmp : s.smpLeft - 1 = 0
  · exact .of_idle (if_pos hsmp) hev hsmp
  · exact .of_samples ((if_neg hsmp).trans hmode) hev hsmp

/-- A BLOCK enters the mode its counts call for (45_commands.md R241). -/
theorem State.blockAccepted_seqInv (c : Config) (s : State) (evCount : BitVec 12)
    (nSamp : BitVec 16) : (s.blockAccepted c evCount nSamp).SeqInv := by
  rw [State.blockAccepted_eq]
  by_cases hev : evCount = 0
  · by_cases hsmp : nSamp = 0
    · exact .of_idle (by simp [modeAfterBlock, hev, hsmp]) hev hsmp
    · exact .of_samples (by simp_all [modeAfterBlock]) hev hsmp
  · exact .of_events (if_pos hev) hev

/-- A refused BLOCK skips its records, or ends at once (60_exceptions.md R275). -/
theorem State.blockRefused_seqInv (s : State) (evCount : BitVec 12) (nSamp : BitVec 16) :
    (s.blockRefused evCount nSamp).SeqInv := by
  rw [State.blockRefused_eq]
  by_cases hev : evCount = 0
  · exact .of_idle (if_neg (not_not.2 hev)) hev rfl
  · exact .of_skip (if_pos hev) hev rfl

end modes

/-! ## The pieces of the machine's invariant -/

theorem clampHarmonics_bounds (w : Word) : 1 ≤ clampHarmonics w ∧ clampHarmonics w ≤ 32 := by
  unfold clampHarmonics
  dsimp only
  split
  · decide
  · split
    · decide
    · omega

theorem errBitsRaised_ne_zero (bits : BitVec 5) (e : ErrCode) : errBitsRaised bits e ≠ 0 := by
  cases e <;> revert bits <;> decide

theorem State.findFree_tier_ne_three (s : State) : s.findFree.2 ≠ 3 := by
  unfold State.findFree
  split
  · simp
  · split <;> simp

/-- A decoded command takes one or two words from the head (30_encoding.md R110). -/
theorem decode_rest_eq_drop {ws rest : List Word} {i : Instr} (h : decode ws = .ok (i, rest)) :
    ∃ n ≤ 2, rest = ws.drop n := by
  cases ws with
  | nil => cases h
  | cons w ws =>
    simp only [decode] at h
    split at h
    case h_3 | h_4 =>
      cases ws with
      | nil => cases h
      | cons x ws => cases h; exact ⟨2, le_rfl, rfl⟩
    case h_7 => cases h
    all_goals cases h; exact ⟨1, by decide, rfl⟩

section keeps
variable {c : Config} {s : State}

/-! ## Named updates keep the machine's invariant -/

theorem State.Inv.turnTaken (h : s.Inv c) : s.turnTaken.Inv c :=
  { h with seq := h.seq.congr rfl rfl rfl }

theorem State.Inv.raise (h : s.Inv c) (e : ErrCode) (info : Word) : (s.raise e info).Inv c :=
  { h with
    seq := h.seq.congr rfl rfl rfl
    errInfo := fun hz => absurd hz (errBitsRaised_ne_zero s.errBits e) }

theorem State.Inv.acknowledge (h : s.Inv c) (w : Word) : (s.acknowledge w).Inv c :=
  { h with
    seq := h.seq.congr rfl rfl rfl
    errInfo := fun hz => if_pos hz }

theorem State.Inv.withCmdQ (h : s.Inv c) {rest : List Word} (hlen : rest.length ≤ c.cmdDepth) :
    (s.withCmdQ rest).Inv c :=
  { h with seq := h.seq.congr rfl rfl rfl, cmdBound := hlen }

theorem State.Inv.voice (h : s.Inv c) (i : Fin 16) : (s.voice i).PushedInv c s.blkH s.blkRel := by
  obtain ⟨hhc, hrel, hatt⟩ := h.pushed i
  exact ⟨h.voices i, hhc, hrel, hatt⟩

/-- The block latches may change together with the controls every voice holds (44_block_mixer.md R211). -/
theorem State.Inv.withPushed (h : s.Inv c) {vs : Vector Voice 16} {hc : Nat} {amp rel : F32}
    (hhc : 1 ≤ hc ∧ hc ≤ 32) (hvs : ∀ i : Fin 16, vs[i].PushedInv c hc rel) :
    State.Inv c { s with voices := vs, blkH := hc, blkAmp := amp, blkRel := rel } :=
  { h with
    seq := h.seq.congr rfl rfl rfl
    voices := fun i => (hvs i).inv
    blkH := hhc
    pushed := fun i => ⟨(hvs i).hc, (hvs i).releaseTime, (hvs i).attackTime⟩ }

theorem State.Inv.withVoices (h : s.Inv c) {vs : Vector Voice 16}
    (hvs : ∀ i : Fin 16, vs[i].PushedInv c s.blkH s.blkRel) : State.Inv c { s with voices := vs } :=
  h.withPushed h.blkH hvs

theorem State.Inv.mapVoices (h : s.Inv c) {f : Voice → Voice}
    (hf : ∀ v : Voice, v.PushedInv c s.blkH s.blkRel → (f v).PushedInv c s.blkH s.blkRel) :
    (s.mapVoices f).Inv c :=
  h.withVoices fun i => by simpa using hf _ (h.voice i)

theorem State.Inv.setVoice (h : s.Inv c) (i : Fin 16) {v : Voice}
    (hv : v.PushedInv c s.blkH s.blkRel) : (s.setVoice i v).Inv c :=
  h.withVoices fun j => by
    rw [← State.setVoice_voices]
    change ((s.setVoice i v).voice j).PushedInv c s.blkH s.blkRel
    by_cases hj : j = i
    · rw [hj, State.setVoice_voice_same]; exact hv
    · rw [State.setVoice_voice_ne s v hj]; exact h.voice j

theorem State.Inv.endRecord (h : s.Inv c) (hmode : s.seqMode = .events) : s.endRecord.Inv c :=
  { h with seq := State.endRecord_seqInv hmode }

theorem State.Inv.endSkip (h : s.Inv c) (hmode : s.seqMode = .skip) : s.endSkip.Inv c :=
  { h with seq := h.seq.endSkip hmode }

/-- A header keeps the invariant when its top-level effect does and its event effect does too and stays
in the event list. -/
theorem State.Inv.inContext (h : s.Inv c) {top event : State → State} (htop : (top s).Inv c)
    (hevent : (event s).Inv c) (hmode : (event s).seqMode = s.seqMode) :
    (s.inContext top event).Inv c :=
  s.inContext_cases top event (fun _ => htop) (fun hm => hevent.endRecord (hmode.trans hm))
    (fun hm => h.endSkip hm) (fun _ => h)

theorem State.Inv.badHeader (h : s.Inv c) (w : Word) : (s.badHeader w).Inv c :=
  h.inContext (h.raise _ _) (h.raise _ _) rfl

/-! ## Commands and event records -/

/-- A BLOCK latches the controls it pushes to every voice (44_block_mixer.md R210, R211). -/
theorem State.Inv.blockAccepted (h : s.Inv c) (evCount : BitVec 12) (nSamp : BitVec 16) :
    (s.blockAccepted c evCount nSamp).Inv c := by
  have hclamp := clampHarmonics_bounds s.regHarmonicCount
  have hseq := s.blockAccepted_seqInv c evCount nSamp
  rw [State.blockAccepted_eq] at hseq ⊢
  have hlatched := h.withPushed (amp := s.regMasterAmp) (rel := s.regReleaseTime) hclamp
    (vs := Vector.ofFn fun i => (s.voice i).push c.num s.sampleRate c.attackTime s.regReleaseTime
      (clampHarmonics s.regHarmonicCount))
    fun i => by simpa using (h.voices i).pushedInv_push hclamp c.num s.sampleRate
  exact { hlatched with seq := hseq }

theorem State.Inv.blockRefused (h : s.Inv c) (evCount : BitVec 12) (nSamp : BitVec 16) :
    (s.blockRefused evCount nSamp).Inv c :=
  { h.raise .noRate (Instr.block evCount nSamp).header with
    seq := s.blockRefused_seqInv evCount nSamp }

theorem State.Inv.blockCommand (h : s.Inv c) (evCount : BitVec 12) (nSamp : BitVec 16) :
    (s.blockCommand c evCount nSamp).Inv c := by
  unfold State.blockCommand
  split
  · exact h.blockAccepted evCount nSamp
  · exact h.blockRefused evCount nSamp

/-- An accepted RATE makes the rate valid and reconfigures every voice (45_commands.md R242). -/
theorem State.Inv.rateAccept (h : s.Inv c) {r : F32} (hr : rateAccepted r = true) :
    (s.rateAccept c r).Inv c := by
  have hset : State.Inv c { s with
      sampleRate := r, rateValid := true, smoothCoeff := smoothCoeffOf c.num r } :=
    { h with
      seq := h.seq.congr rfl rfl rfl
      rate := ⟨fun _ => hr, by simp⟩ }
  exact hset.mapVoices fun _ hv => hv.configure _ _

theorem State.Inv.rateCommand (h : s.Inv c) (x : Word) : (s.rateCommand c x).Inv c := by
  unfold State.rateCommand
  split
  next hr => exact h.rateAccept hr
  · exact h.raise _ _

theorem State.Inv.noteOnEvent (h : s.Inv c) (n : BitVec 8) (x : Word) : (s.noteOnEvent c n x).Inv c :=
  { h.setVoice s.findFree.1
      ((h.voice s.findFree.1).start c.num s.sampleRate n (scaledVelocity x)) with
    seq := h.seq.congr rfl rfl rfl
    tier := s.findFree_tier_ne_three }

theorem State.Inv.noteOffEvent (h : s.Inv c) (n : BitVec 8) : (s.noteOffEvent n).Inv c := by
  unfold State.noteOffEvent
  split
  next i _ => exact h.setVoice i (h.voice i).stop
  · exact h

@[simp] theorem State.noteOffEvent_seqMode (s : State) (n : BitVec 8) :
    (s.noteOffEvent n).seqMode = s.seqMode := by
  unfold State.noteOffEvent
  split <;> rfl

theorem State.Inv.stopAll (h : s.Inv c) : (s.mapVoices Voice.stop).Inv c :=
  h.mapVoices fun _ hv => hv.stop

/-- Every command keeps the invariant, in every mode. -/
theorem State.Inv.runWith (h : s.Inv c) (i : Instr) : (runWith c i s).Inv c := by
  cases i with
  | nop _ =>
    unfold Machine.runWith nopMeaning
    exact h.inContext h h rfl
  | block evCount nSamp =>
    unfold Machine.runWith blockMeaning
    exact h.inContext (h.blockCommand evCount nSamp) (h.raise _ _) rfl
  | rate _ x =>
    unfold Machine.runWith rateMeaning
    exact h.inContext (h.rateCommand x) (h.raise _ _) rfl
  | noteOn _ note x =>
    unfold Machine.runWith noteOnMeaning
    exact h.inContext (h.raise _ _) (h.noteOnEvent note x) rfl
  | noteOff _ note =>
    unfold Machine.runWith noteOffMeaning
    exact h.inContext (h.raise _ _) (h.noteOffEvent note) (s.noteOffEvent_seqMode note)
  | allOff _ =>
    unfold Machine.runWith allOffMeaning
    exact h.inContext (h.raise _ _) h.stopAll rfl

/-! ## The three turns -/

/-- A sample step with room for its frame (44_block_mixer.md R213; 10_state.md R41). -/
theorem State.Inv.sampleStep (h : s.Inv c) (hmode : s.seqMode = .samples)
    (hfits : s.frameFits c = true) : (s.sampleStep c).Inv c := by
  have hadvanced := h.mapVoices fun _ hv => hv.advance
  have hroom : s.outQ.length + c.numChannels ≤ c.outDepth := of_decide_eq_true hfits
  have hseq := h.seq.sampleStep hmode c
  rw [State.sampleStep_eq] at hseq ⊢
  exact { hadvanced with
    seq := hseq
    outBound := by simpa using hroom }

theorem headerStep_keeps_inv {t : State} (h : s.Inv Config.machine)
    (ht : headerStep exec s = .next t) : t.Inv Config.machine := by
  have hpop : ∀ n, (s.withCmdQ (s.cmdQ.drop n)).Inv Config.machine := fun n =>
    h.withCmdQ ((List.drop_sublist n s.cmdQ).length_le.trans h.cmdBound)
  obtain ⟨i, rest, hd, ho⟩ | ⟨w, -, ho⟩ | ⟨-, ho⟩ := headerStep_cases ht
  · obtain ⟨n, -, rfl⟩ := decode_rest_eq_drop hd
    rw [exec_eq_runWith] at ho
    cases ho
    exact (hpop n).runWith i
  · cases ho
    exact (hpop _).badHeader w
  · cases ho
    exact h

theorem engineTurn_keeps_inv {t : State} (h : s.Inv Config.machine)
    (ht : engineTurn Config.machine exec s = .next t) : t.Inv Config.machine := by
  obtain ⟨-, he⟩ | ⟨hmode, hfits, he⟩ | ⟨-, -, he⟩ := engineTurn_cases Config.machine exec s
  · exact headerStep_keeps_inv h (he ▸ ht)
  · cases he.symm.trans ht
    exact h.sampleStep hmode hfits
  · cases he.symm.trans ht
    exact h

theorem State.Inv.afterRead (h : s.Inv c) (r : Reg) : (s.afterRead r).Inv c := by
  cases r with
  | outFifo =>
    unfold State.afterRead
    dsimp only
    split
    · exact h.raise _ _
    next hq =>
      have hlen := h.outBound
      rw [hq, List.length_cons] at hlen
      exact { h with
        seq := h.seq.congr rfl rfl rfl
        outBound := Nat.le_of_succ_le hlen }
  | _ => exact h

theorem State.Inv.writeReg (h : s.Inv c) {r : Reg} {w : Word} {t : State}
    (ht : s.writeReg c r w = some t) : t.Inv c := by
  cases r with
  | status => cases ht; exact h.acknowledge w
  | masterAmp | harmonicCount | releaseTime =>
    cases ht; exact { h with seq := h.seq.congr rfl rfl rfl }
  | cmdFifo =>
    unfold State.writeReg at ht
    dsimp only at ht
    split at ht
    next hroom =>
      cases ht
      exact h.withCmdQ (by simpa using hroom)
    · cases ht
  | _ => cases ht; exact h

theorem State.Inv.hostAccess (h : s.Inv c) {off : Nat} {size : AccessSize} {op : AccessOp}
    {data : Option Word} {t : State} (ht : s.hostAccess c off size op = some (data, t)) : t.Inv c := by
  unfold State.hostAccess at ht
  split at ht
  · cases op with
    | read => cases ht; exact h.afterRead _
    | write w =>
      obtain ⟨t, hwrite, hpair⟩ := Option.map_eq_some_iff.1 ht
      cases hpair
      exact h.writeReg hwrite
  · cases op <;> cases ht <;> exact h.raise _ _

theorem State.Inv.served (h : s.Inv c) (a : Agent) (rest : List Access) (addr : Nat)
    (data : Option Word) : (s.served a rest addr data).Inv c :=
  { h with seq := h.seq.congr rfl rfl rfl }

theorem hostTurn_keeps_inv {a : Agent} {t : State} (h : s.Inv c) (ht : hostTurn c a s = .next t) :
    t.Inv c := by
  obtain ⟨-, he⟩ | ⟨acc, rest, -, ⟨-, he⟩ | ⟨-, -, he⟩ | ⟨-, data, u, hu, he⟩⟩ := hostTurn_cases c a s
  · cases he.symm.trans ht; exact h
  · cases he.symm.trans ht
  · cases he.symm.trans ht; exact h
  · cases he.symm.trans ht
    exact (h.hostAccess hu).served ..

end keeps

theorem Voice.reset_pushedInv (c : Config) : (Voice.reset c).PushedInv c 1 0 where
  inv := by constructor <;> simp [Voice.reset]
  hc := rfl
  releaseTime := rfl
  attackTime := rfl

theorem State.resetWith_voice (c : Config) (i : Fin 16) :
    (State.resetWith c).voice i = Voice.reset c := by
  simp [State.voice, State.resetWith]

/-- The reset values have the invariant, whatever the world around the core holds. -/
theorem State.afterReset_inv (c : Config) (s : State) : (s.afterReset c).Inv c := by
  have hvoice : ∀ i, ((s.afterReset c).voice i).PushedInv c 1 0 := fun i => by
    rw [State.voice_congr (State.resetWith c) (t := s.afterReset c) rfl, State.resetWith_voice]
    exact Voice.reset_pushedInv c
  exact {
    voices := fun i => (hvoice i).inv
    seq := by constructor <;> simp [State.afterReset, State.resetWith]
    cmdBound := Nat.zero_le _
    outBound := Nat.zero_le _
    blkH := ⟨le_rfl, by simp [State.afterReset, State.resetWith]⟩
    pushed := fun i => ⟨(hvoice i).hc, (hvoice i).releaseTime, (hvoice i).attackTime⟩
    errInfo := fun _ => rfl
    rate := ⟨by simp [State.afterReset, State.resetWith], fun _ => rfl⟩
    tier := by simp [State.afterReset, State.resetWith] }

/-- Settles O26: each of the three turns keeps the invariant. -/
theorem stepKeepsMachineInvariant : Obligations.StepKeepsMachineInvariant := by
  intro s t h ht
  obtain ⟨-, he⟩ | ⟨a, -, he⟩ | ⟨-, he⟩ := step_cases s
  · exact engineTurn_keeps_inv h.turnTaken (he ▸ ht)
  · exact hostTurn_keeps_inv h.turnTaken (he ▸ ht)
  · cases he.symm.trans ht
    exact s.turnTaken.afterReset_inv _

theorem Voice.reset_levelInv (c : Config) : (Voice.reset c).LevelInv := by
  constructor <;> simp [Voice.reset]

/-- Settles O28: the reset values lie in every bound. -/
theorem resetHasInvariants : Obligations.ResetHasInvariants :=
  ⟨State.afterReset_inv Config.machine State.reset, fun i => by
    rw [State.reset, State.resetWith_voice]
    exact Voice.reset_levelInv _⟩

end Sys2Proof.Machine
end

section
/-! PROOFS. What legal reads of the register window return (10_state.md R50-R67). -/

namespace Sys2Proof.Machine

/-! ## A legal read -/

theorem State.hostAccess_read_word (c : Config) (s : State) {off : Nat} (h : off % 4 = 0) :
    s.hostAccess c off .word .read =
      some (some (s.readReg c (regAt off)), s.afterRead (regAt off)) := by
  simp [State.hostAccess, legalAccess, h]

/-- The word a legal read returns, alone. -/
theorem State.hostAccess_read_word_fst (c : Config) (s : State) {off : Nat} (h : off % 4 = 0) :
    (s.hostAccess c off .word .read).bind Prod.fst = some (s.readReg c (regAt off)) := by
  rw [State.hostAccess_read_word c s h]; rfl

/-! ## Packed register words -/

theorem configWord_eq {c : Config} (h : c.numChannels ≤ 15) :
    configWord c = BitVec.ofNat 32 (0x01000000 + c.numChannels * 2 ^ 20 + 0xC2010) := by
  apply BitVec.eq_of_toNat_eq
  simp only [configWord, Laws.append_toNat, BitVec.toNat_ofNat]
  omega

theorem AllocRecord.word_eq (a : AllocRecord) :
    a.word = BitVec.ofNat 32 (a.voice.val + 16 * a.tier.toNat + if a.valid then 256 else 0) := by
  apply BitVec.eq_of_toNat_eq
  have hvoice := a.voice.isLt
  have htier := a.tier.isLt
  simp only [AllocRecord.word, Laws.append_toNat, BitVec.toNat_ofNat]
  cases a.valid <;> simp <;> omega

/-! ## Counts and masks over the voices -/

theorem foldl_count_eq_countP {α : Type} (p : α → Bool) (l : List α) (n : Nat) :
    l.foldl (fun n i => if p i then n + 1 else n) n = n + l.countP p := by
  induction l generalizing n with
  | nil => rfl
  | cons x l ih =>
    rw [List.foldl_cons, ih, List.countP_cons]
    split <;> omega

theorem State.activeCount_eq_countP (s : State) :
    s.activeCount = (List.finRange 16).countP fun i => (s.voice i).active := by
  rw [State.activeCount, foldl_count_eq_countP, Nat.zero_add]

/-- A number is the sum of the powers of two at its set bits. -/
theorem sum_two_pow_eq_ofBits : ∀ {n : Nat} (f : Fin n → Bool),
    ∑ i, (if f i then 2 ^ i.val else 0) = Nat.ofBits f
  | 0, _ => rfl
  | n + 1, f => by
    rw [Fin.sum_univ_succ, Nat.ofBits_succ, ← sum_two_pow_eq_ofBits, Finset.mul_sum, Nat.add_comm]
    congr 1
    · refine Finset.sum_congr rfl fun i _ => ?_
      simp [pow_succ, mul_comm]
    · cases f 0 <;> rfl

theorem foldl_add_eq_sum {n : Nat} (f g : Fin n → Nat) :
    (List.finRange n).foldl (fun m i => m + f i + g i) 0 = ∑ i, f i + ∑ i, g i := by
  rw [← Finset.sum_add_distrib, Fin.sum_univ_def, List.sum_eq_foldl, List.foldl_map]
  simp only [Nat.add_assoc]

/-- VOICE_MASK is the number with the releasing bits above the active bits (10_state.md R62). -/
theorem State.voiceMaskWord_eq (s : State) :
    s.voiceMaskWord = BitVec.ofNat 32
      (2 ^ 16 * Nat.ofBits (fun i => decide ((s.voice i).stage = .release)) +
        Nat.ofBits fun i => (s.voice i).active) := by
  rw [State.voiceMaskWord, foldl_add_eq_sum, sum_two_pow_eq_ofBits, Nat.add_comm,
    ← sum_two_pow_eq_ofBits (fun i => decide ((s.voice i).stage = .release)), Finset.mul_sum]
  simp only [decide_eq_true_eq, mul_ite, mul_zero, pow_add]

theorem State.voiceMaskWord_bits (s : State) (i : Fin 16) :
    s.voiceMaskWord.getLsbD i.val = (s.voice i).active ∧
      s.voiceMaskWord.getLsbD (16 + i.val) = decide ((s.voice i).stage = .release) := by
  have hactive := Nat.ofBits_lt_two_pow fun i => (s.voice i).active
  have hi := i.isLt
  have hlow : i.val < 32 := by omega
  have hhigh : 16 + i.val < 32 := by omega
  simp only [State.voiceMaskWord_eq, BitVec.getLsbD_ofNat, Nat.testBit_two_pow_mul_add _ hactive, hlow,
    hhigh, hi, Nat.not_lt.2 (Nat.le_add_right 16 i.val), Nat.add_sub_cancel_left,
    Nat.testBit_ofBits_lt, if_true, if_false, decide_true, Bool.true_and, Fin.eta, and_self]

/-! ## STATUS -/

theorem State.busy_eq_decide (s : State) : s.busy = decide (s.seqMode ≠ .idle) := by
  rw [State.busy, bne, Bool.beq_eq_decide_eq, decide_not]

/-- The four flags of STATUS (10_state.md R53). -/
theorem State.statusWord_flags (s : State) :
    s.statusWord.getLsbD 0 = s.rateValid ∧ s.statusWord.getLsbD 1 = s.busy ∧
      s.statusWord.getLsbD 2 = s.cmdQ.isEmpty ∧ s.statusWord.getLsbD 3 = s.outQ.isEmpty := by
  simp only [State.statusWord, BitVec.getLsbD_append]
  simp

/-- Above the flags stand four zeros, the error bits and zeros to the end (10_state.md R53). -/
theorem State.statusWord_aboveFlags (s : State) {b : Nat} (h : 4 ≤ b) :
    s.statusWord.getLsbD b = (decide (8 ≤ b) && s.errBits.getLsbD (b - 8)) := by
  grind [State.statusWord]

/-- Settles O46, by the flags and the bits above them. -/
theorem statusReadReturnsFields : Obligations.StatusReadReturnsFields := by
  intro s
  refine ⟨s.statusWord, s.hostAccess_read_word _ rfl, ?_⟩
  obtain ⟨hrate, hbusy, hcmd, hout⟩ := s.statusWord_flags
  have hempty : ∀ l : List Word, l.isEmpty = decide (l = []) := fun l => by cases l <;> simp
  refine ⟨hrate, hbusy.trans s.busy_eq_decide, hcmd.trans (hempty _), hout.trans (hempty _),
    ?_, ?_, ?_⟩
  · intro b hlo hhi
    simp [s.statusWord_aboveFlags hlo, Nat.not_le.2 hhi]
  · intro b hb
    simp [s.statusWord_aboveFlags (b := 8 + b) (by omega)]
  · intro b hb
    rw [s.statusWord_aboveFlags (by omega), BitVec.getLsbD_of_ge _ _ (by omega), Bool.and_false]

/-! ## The registers -/

/-- Settles O49: most reads are a field of the state; CONFIG, the voice count, VOICE_MASK and LAST_ALLOC
are packed words. -/
theorem registerReadsReturnState : Obligations.RegisterReadsReturnState := by
  intro s
  have hread : ∀ {off : Nat}, off % 4 = 0 → _ := fun {_} h =>
    s.hostAccess_read_word_fst Config.machine h
  refine ⟨?_, hread rfl, hread rfl, hread rfl, hread rfl, hread rfl, hread rfl, ?_, hread rfl,
    ⟨_, hread rfl, s.voiceMaskWord_bits⟩, ?_, hread rfl⟩
  · rw [← configWord_eq Config.machine_legal.channels.2]
    exact hread rfl
  · rw [← s.activeCount_eq_countP]
    exact hread rfl
  · rw [← AllocRecord.word_eq]
    exact hread rfl

/-- The offsets with no register are reserved (10_state.md R67). -/
theorem regAt_eq_reserved {off : Nat} (h : off = 0x34 ∨ off = 0x38 ∨ off = 0x3C ∨ 0x48 ≤ off) :
    regAt off = .reserved := by
  unfold regAt
  split
  case h_16 => rfl
  all_goals omega

/-! ## The reset state -/

theorem State.reset_voice (i : Fin 16) : State.reset.voice i = Voice.reset Config.machine :=
  State.resetWith_voice Config.machine i

theorem State.reset_activeCount : State.reset.activeCount = 0 := by
  rw [State.activeCount_eq_countP, List.countP_eq_zero]
  simp [State.reset_voice, Voice.reset]

theorem State.reset_voiceMaskWord : State.reset.voiceMaskWord = 0 := by
  simp [State.voiceMaskWord, State.reset_voice, Voice.reset]

/-- Nothing stands in either FIFO after reset (10_state.md R54). -/
theorem State.reset_fifoStatusWord {c : Config} (h : c.cmdDepth ≤ 65535) :
    State.reset.fifoStatusWord c = BitVec.ofNat 32 c.cmdDepth := by
  apply BitVec.eq_of_toNat_eq
  simp only [State.fifoStatusWord, State.reset, State.resetWith, Laws.append_toNat,
    BitVec.toNat_ofNat, List.length_nil]
  omega

/-- Settles O59: every read is `readReg` of the reset values. -/
theorem resetRegistersRead : Obligations.ResetRegistersRead := by
  unfold Obligations.ResetRegistersRead
  intro rd
  have hlegal := Config.machine_legal
  have hread : ∀ {off : Nat}, off % 4 = 0 → rd off = _ := fun {_} h =>
    State.reset.hostAccess_read_word_fst Config.machine h
  refine ⟨?_, hread rfl, ?_, hread rfl, hread rfl, hread rfl, hread rfl, hread rfl, ?_, hread rfl,
    ?_, hread rfl, hread rfl, hread rfl, ?_, rfl, rfl, rfl, ?_⟩
  · rw [hread rfl]
    refine congrArg some ((configWord_eq hlegal.channels.2).trans ?_)
    exact congrArg (BitVec.ofNat 32) (by omega)
  · exact (hread rfl).trans (congrArg some (State.reset_fifoStatusWord hlegal.cmdFifo.2))
  · exact (hread rfl).trans (congrArg (fun n => some (BitVec.ofNat 32 n)) State.reset_activeCount)
  · exact (hread rfl).trans (congrArg some State.reset_voiceMaskWord)
  · intro off _ haligned hoff
    rw [hread haligned, regAt_eq_reserved hoff]
    rfl
  · intro i
    rw [State.reset_voice]
    exact ⟨rfl, rfl⟩

end Sys2Proof.Machine
end

section
/-! PROOFS. Host accesses to the register window (20_memory.md R82-R89; 45_commands.md R250-R254): what
one access can do, what an agent's step leaves unchanged, and the order of its accesses. -/

namespace Sys2Proof.Machine

/-! ## Illegal accesses (20_memory.md R84) -/

/-- The number of a size in the bus descriptor (10_state.md R55). -/
def AccessSize.code : AccessSize → Nat
  | .byte => 0
  | .half => 1
  | .word => 2

/-- The number of a direction in the bus descriptor (10_state.md R55). -/
def AccessOp.code : AccessOp → Nat
  | .read => 0
  | .write _ => 1

theorem descriptorFields_eq {off : Nat} (h : off < 256) (size : BitVec 2) (write : BitVec 1) :
    0#21 ++ size ++ write ++ BitVec.ofNat 8 off =
      BitVec.ofNat 32 (off + 256 * write.toNat + 512 * size.toNat) := by
  apply BitVec.eq_of_toNat_eq
  have hsize := size.isLt
  have hwrite := write.isLt
  simp only [Laws.append_toNat, BitVec.toNat_ofNat]
  omega

/-- The bus descriptor as a sum of its fields (10_state.md R55). -/
theorem busDescriptor_eq {off : Nat} (h : off < 256) (size : AccessSize) (op : AccessOp) :
    busDescriptor off size op = BitVec.ofNat 32 (off + 256 * op.code + 512 * size.code) := by
  cases size <;> cases op <;> exact descriptorFields_eq h _ _

/-- Raising an error sets the bit of its number (60_exceptions.md R271, R272). -/
theorem State.raise_eq_errorRaised (s : State) (e : ErrCode) (info : Word) :
    s.raise e info = s.errorRaised e.code info := by
  cases e <;> rfl

theorem State.hostAccess_of_not_legal (c : Config) (s : State) {off : Nat} {size : AccessSize}
    (h : ¬(size = .word ∧ off % 4 = 0)) :
    s.hostAccess c off size .read = some (some 0, s.raise .bus (busDescriptor off size .read)) ∧
    ∀ w, s.hostAccess c off size (.write w) =
      some (none, s.raise .bus (busDescriptor off size (.write w))) := by
  have hlegal : legalAccess off size = false := by simpa [legalAccess] using h
  simp [State.hostAccess, hlegal]

/-- Settles O47: the access raises ERR_BUS, and its descriptor is the sum of its fields. -/
theorem illegalAccessOnlyRaisesBusError : Obligations.IllegalAccessOnlyRaisesBusError := by
  intro s off size hoff hillegal
  obtain ⟨hread, hwrite⟩ := s.hostAccess_of_not_legal Config.machine hillegal
  simp only [hread, hwrite, State.raise_eq_errorRaised, busDescriptor_eq hoff]
  cases size <;> exact ⟨rfl, fun _ => rfl⟩

/-! ## Legal accesses without effect (20_memory.md R85, R86) -/

theorem State.hostAccess_write_word (c : Config) (s : State) {off : Nat} (h : off % 4 = 0) (w : Word) :
    s.hostAccess c off .word (.write w) = (s.writeReg c (regAt off) w).map fun t => (none, t) := by
  simp [State.hostAccess, legalAccess, h]

theorem State.afterRead_of_ne_outFifo (s : State) {r : Reg} (h : r ≠ .outFifo) : s.afterRead r = s := by
  cases r with
  | outFifo => exact absurd rfl h
  | _ => rfl

/-- The registers a write can have an effect on (45_commands.md R250, R252, R254). -/
def Reg.writable : Reg → Bool
  | .status | .masterAmp | .harmonicCount | .releaseTime | .cmdFifo => true
  | .config | .fifoStatus | .errInfo | .sampleRate | .activeVoices | .loudnessScale | .voiceMask
  | .lastAlloc | .attackTime | .outFifo | .reserved => false

theorem State.writeReg_of_not_writable (c : Config) (s : State) {r : Reg} (h : r.writable = false)
    (w : Word) : s.writeReg c r w = some s := by
  cases r with
  | status | masterAmp | harmonicCount | releaseTime | cmdFifo => cases h
  | _ => rfl

theorem regAt_ne_outFifo {off : Nat} (h : off ≠ 0x44) : regAt off ≠ .outFifo := by
  unfold regAt
  split <;> simp_all

theorem regAt_not_writable {off : Nat} (h : off ∉ [0x04, 0x10, 0x14, 0x18, 0x40]) :
    (regAt off).writable = false := by
  unfold regAt
  split <;> simp_all [Reg.writable]

/-- Settles O48: only OUT_FIFO's read has an effect, and CMD_FIFO and reserved registers hold zero. -/
theorem legalReadsHaveNoSideEffect : Obligations.LegalReadsHaveNoSideEffect := by
  intro s off _ haligned hoff
  refine ⟨s.readReg Config.machine (regAt off), ?_, fun hzero => ?_⟩
  · rw [s.hostAccess_read_word _ haligned, s.afterRead_of_ne_outFifo (regAt_ne_outFifo hoff)]
  · by_cases hcmd : off = 0x40
    · subst hcmd; rfl
    · rw [regAt_eq_reserved (by omega)]; rfl

/-- Settles O52: a control register's write replaces it, and a register that is not writable ignores its
write. -/
theorem controlWritesReplaceOthersIgnored : Obligations.ControlWritesReplaceOthersIgnored := by
  intro s w
  have hwrite : ∀ {off : Nat}, off % 4 = 0 → _ := fun {_} h =>
    s.hostAccess_write_word Config.machine h w
  refine ⟨hwrite rfl, hwrite rfl, hwrite rfl, fun off _ haligned hoff => ?_⟩
  rw [hwrite haligned, s.writeReg_of_not_writable _ (regAt_not_writable hoff)]
  rfl

/-! ## What one access can do -/

/-- All that one host access can do to the state (20_memory.md R84-R86; 45_commands.md R250-R254). -/
inductive State.HostEffect (s : State) : State → Prop
  | unchanged : s.HostEffect s
  | raised (e : ErrCode) (info : Word) : s.HostEffect (s.raise e info)
  | acknowledged (w : Word) : s.HostEffect (s.acknowledge w)
  | controls (amp harmonics release : Word) : s.HostEffect
      { s with regMasterAmp := amp, regHarmonicCount := harmonics, regReleaseTime := release }
  | appended (w : Word) : s.HostEffect (s.withCmdQ (s.cmdQ ++ [w]))
  | popped : s.HostEffect { s with outQ := s.outQ.tail }

theorem State.afterRead_hostEffect (s : State) (r : Reg) : s.HostEffect (s.afterRead r) := by
  by_cases hr : r = .outFifo
  · subst hr
    unfold State.afterRead
    dsimp only
    split
    · exact .raised _ _
    next hq =>
      have hpop := State.HostEffect.popped (s := s)
      rwa [hq, List.tail_cons] at hpop
  · rw [s.afterRead_of_ne_outFifo hr]
    exact .unchanged

section effect
variable {c : Config} {s t : State}

theorem State.writeReg_hostEffect {r : Reg} {w : Word} (h : s.writeReg c r w = some t) :
    s.HostEffect t := by
  cases r with
  | status => cases h; exact .acknowledged w
  | masterAmp => cases h; exact .controls w _ _
  | harmonicCount => cases h; exact .controls _ w _
  | releaseTime => cases h; exact .controls _ _ w
  | cmdFifo =>
    obtain ⟨-, ht⟩ := Option.ite_none_right_eq_some.1 h
    cases ht
    exact .appended w
  | _ => cases h; exact .unchanged

theorem State.hostAccess_hostEffect {off : Nat} {size : AccessSize} {op : AccessOp}
    {data : Option Word} (h : s.hostAccess c off size op = some (data, t)) : s.HostEffect t := by
  by_cases hlegal : size = .word ∧ off % 4 = 0
  · obtain ⟨rfl, haligned⟩ := hlegal
    cases op with
    | read =>
      cases (s.hostAccess_read_word c haligned).symm.trans h
      exact s.afterRead_hostEffect _
    | write w =>
      rw [s.hostAccess_write_word c haligned w] at h
      obtain ⟨u, hwrite, hpair⟩ := Option.map_eq_some_iff.1 h
      cases hpair
      exact State.writeReg_hostEffect hwrite
  · obtain ⟨hread, hwrite⟩ := s.hostAccess_of_not_legal c hlegal
    cases op with
    | read => cases hread.symm.trans h; exact .raised _ _
    | write w => cases (hwrite w).symm.trans h; exact .raised _ _

theorem State.HostEffect.sameEngine (h : s.HostEffect t) : s.sameEngine t := by
  cases h <;> simp [State.sameEngine]

theorem State.HostEffect.outsideWorld (h : s.HostEffect t) :
    t.pending = s.pending ∧ t.replies = s.replies := by
  cases h <;> exact ⟨rfl, rfl⟩

theorem State.HostEffect.cmdQ (h : s.HostEffect t) :
    t.cmdQ = s.cmdQ ∨ ∃ w, t.cmdQ = s.cmdQ ++ [w] := by
  cases h with
  | appended w => exact .inr ⟨w, rfl⟩
  | _ => exact .inl rfl

theorem State.HostEffect.outQ (h : s.HostEffect t) : t.outQ = s.outQ ∨ t.outQ = s.outQ.tail := by
  cases h with
  | popped => exact .inr rfl
  | _ => exact .inl rfl

/-- A host agent's step has the effect of one access and changes, beside it, only the outside world's
pending accesses and replies. -/
theorem step_host_effect {a : Agent} (ha : s.schedule.head? = some (.host a))
    (ht : step s = .next t) :
    ∃ u p l, s.turnTaken.HostEffect u ∧ t = { u with pending := p, replies := l } := by
  rw [step_host ha] at ht
  obtain ⟨-, he⟩ | ⟨acc, rest, -, ⟨-, he⟩ | ⟨-, -, he⟩ | ⟨-, data, u, hu, he⟩⟩ :=
    hostTurn_cases Config.machine a s.turnTaken
  · cases he.symm.trans ht; exact ⟨_, _, _, .unchanged, rfl⟩
  · cases he.symm.trans ht
  · cases he.symm.trans ht; exact ⟨_, _, _, .unchanged, rfl⟩
  · cases he.symm.trans ht; exact ⟨u, _, _, State.hostAccess_hostEffect hu, rfl⟩

end effect

/-- Settles O57: none of an access's effects is on the engine's state. -/
theorem hostTurnsLeaveEngineState : Obligations.HostTurnsLeaveEngineState := by
  intro s t a ha ht
  obtain ⟨u, p, l, heffect, rfl⟩ := step_host_effect ha ht
  exact heffect.sameEngine

/-! ## Serving an agent's next access (20_memory.md R90) -/

theorem Pending.of_put_ne (p : Pending) {a b : Agent} (h : b ≠ a) (l : List Access) :
    (p.put a l).of b = p.of b := by
  cases a <;> cases b <;> simp [Pending.put, Pending.of] at h ⊢

section served
variable (s : State) (a : Agent) (rest : List Access) (addr : Nat) (data : Option Word)

@[simp] theorem State.served_pending :
    (s.served a rest addr data).pending = s.pending.put a rest := rfl

@[simp] theorem State.served_replies : (s.served a rest addr data).replies =
    s.replies ++ data.toList.map fun w => ⟨a, addr, w⟩ := by
  cases data with
  | none => exact (List.append_nil _).symm
  | some w => rfl

end served

theorem hostTurn_eq_served {c : Config} {s u : State} {a : Agent} {acc : Access}
    {rest : List Access} {data : Option Word} (hpending : s.pending.of a = acc :: rest)
    (hwindow : inWindow c acc.addr = true)
    (hu : s.hostAccess c (acc.addr - c.base) acc.size acc.op = some (data, u)) :
    hostTurn c a s = .next (u.served a rest acc.addr data) := by
  simp [hostTurn, hpending, hwindow, hu]

/-- Settles O53: the step serves the access, whose own effect leaves the outside world's data. -/
theorem hostTurnServesNextAccess : Obligations.HostTurnServesNextAccess := by
  intro s a acc rest data u ha hpending hlo hhi hu
  obtain ⟨hpend, hrep⟩ := (State.hostAccess_hostEffect hu).outsideWorld
  refine ⟨u.served a rest acc.addr data, ?_, ?_, fun b hb => ?_, ?_, rfl⟩
  · rw [step_host ha]
    exact hostTurn_eq_served hpending (decide_eq_true ⟨hlo, hhi⟩) hu
  · rw [State.served_pending, Pending.of_put]
  · rw [State.served_pending, Pending.of_put_ne _ hb, hpend]
  · rw [State.served_replies, hrep]

end Sys2Proof.Machine
end

section
/-! PROOFS. What the engine's steps leave unchanged, and the rules of the whole machine that follow: the
order of both FIFOs (20_memory.md R92, R93) and the latches during a block (20_memory.md R91). -/

namespace Sys2Proof.Machine

/-! ## What a command leaves unchanged -/

/-- The part of the state that the engine shares with its hosts, and the world around it. -/
structure Interface where
  cmdQ : List Word
  outQ : List Word
  regMasterAmp : Word
  regHarmonicCount : Word
  regReleaseTime : Word
  pending : Pending
  schedule : List Turn
  replies : List Reply

/-- What the engine shares with its hosts, of a state. -/
def State.interface (s : State) : Interface :=
  ⟨s.cmdQ, s.outQ, s.regMasterAmp, s.regHarmonicCount, s.regReleaseTime, s.pending, s.schedule,
    s.replies⟩

/-- The block latches (10_state.md R38) and the sample rate. -/
structure Latches where
  blkH : Nat
  blkAmp : F32
  blkRel : F32
  sampleRate : F32

/-- The block latches and the rate, of a state. -/
def State.latches (s : State) : Latches := ⟨s.blkH, s.blkAmp, s.blkRel, s.sampleRate⟩

/-- A view of the state that counting a record does not show is changed by a header only as far as its
effect in the present mode changes it. -/
theorem State.inContext_view {α : Type} (view : State → α) {s : State} {top event : State → State}
    (hrecord : ∀ u : State, view u.endRecord = view u) (hskip : ∀ u : State, view u.endSkip = view u)
    (htop : s.seqMode = .idle → view (top s) = view s) (hevent : view (event s) = view s) :
    view (s.inContext top event) = view s :=
  s.inContext_cases top event (P := fun t => view t = view s) htop
    (fun _ => (hrecord _).trans hevent) (fun _ => hskip s) (fun _ => rfl)

theorem State.inContext_interface {s : State} {top event : State → State}
    (htop : (top s).interface = s.interface) (hevent : (event s).interface = s.interface) :
    (s.inContext top event).interface = s.interface :=
  State.inContext_view State.interface (fun _ => rfl) (fun _ => rfl) (fun _ => htop) hevent

/-- Outside idle mode a header's top-level effect does not take place. -/
theorem State.inContext_latches {s : State} {top event : State → State} (hmode : s.seqMode ≠ .idle)
    (hevent : (event s).latches = s.latches) : (s.inContext top event).latches = s.latches :=
  State.inContext_view State.latches (fun _ => rfl) (fun _ => rfl) (fun hidle => absurd hidle hmode)
    hevent

section effects
variable (c : Config) (s : State)

theorem State.raise_interface (e : ErrCode) (info : Word) :
    (s.raise e info).interface = s.interface := by
  simp [State.interface]

theorem State.raise_latches (e : ErrCode) (info : Word) : (s.raise e info).latches = s.latches := by
  simp [State.latches]

theorem State.mapVoices_interface (f : Voice → Voice) : (s.mapVoices f).interface = s.interface := by
  simp [State.interface]

theorem State.mapVoices_latches (f : Voice → Voice) : (s.mapVoices f).latches = s.latches := by
  simp [State.latches]

theorem State.blockCommand_interface (evCount : BitVec 12) (nSamp : BitVec 16) :
    (s.blockCommand c evCount nSamp).interface = s.interface := by
  unfold State.blockCommand
  split
  · simp [State.interface, State.blockAccepted_eq]
  · simp [State.interface, State.blockRefused_eq]

theorem State.rateCommand_interface (x : Word) : (s.rateCommand c x).interface = s.interface := by
  unfold State.rateCommand
  split
  · simp [State.interface, State.rateAccept_eq]
  · exact s.raise_interface _ _

theorem State.noteOnEvent_interface (n : BitVec 8) (x : Word) :
    (s.noteOnEvent c n x).interface = s.interface := by
  simp [State.interface, State.noteOnEvent_eq]

theorem State.noteOnEvent_latches (n : BitVec 8) (x : Word) :
    (s.noteOnEvent c n x).latches = s.latches := by
  simp [State.latches, State.noteOnEvent_eq]

theorem State.noteOffEvent_interface (n : BitVec 8) : (s.noteOffEvent n).interface = s.interface := by
  unfold State.noteOffEvent
  split
  · simp [State.interface]
  · rfl

theorem State.noteOffEvent_latches (n : BitVec 8) : (s.noteOffEvent n).latches = s.latches := by
  unfold State.noteOffEvent
  split
  · simp [State.latches]
  · rfl

theorem State.sampleStep_cmdQ : (s.sampleStep c).cmdQ = s.cmdQ := by
  rw [State.sampleStep_eq]

theorem State.sampleStep_outQ : (s.sampleStep c).outQ =
    s.outQ ++ List.replicate c.numChannels (s.outputWord c.num (s.nextScale c.num)) := by
  rw [State.sampleStep_eq]

theorem State.sampleStep_latches : (s.sampleStep c).latches = s.latches := by
  simp [State.latches, State.sampleStep_eq]

theorem runWith_interface (i : Instr) : (runWith c i s).interface = s.interface := by
  cases i with
  | nop _ => exact State.inContext_interface rfl rfl
  | block evCount nSamp =>
    exact State.inContext_interface (s.blockCommand_interface c evCount nSamp) (s.raise_interface _ _)
  | rate _ x => exact State.inContext_interface (s.rateCommand_interface c x) (s.raise_interface _ _)
  | noteOn _ note x =>
    exact State.inContext_interface (s.raise_interface _ _) (s.noteOnEvent_interface c note x)
  | noteOff _ note =>
    exact State.inContext_interface (s.raise_interface _ _) (s.noteOffEvent_interface note)
  | allOff _ => exact State.inContext_interface (s.raise_interface _ _) (s.mapVoices_interface _)

/-- No command in an event list or a refused block latches or sets the rate (45_commands.md R244, R248). -/
theorem runWith_latches (i : Instr) (hmode : s.seqMode ≠ .idle) :
    (runWith c i s).latches = s.latches := by
  cases i with
  | nop _ => exact State.inContext_latches hmode rfl
  | block _ _ | rate _ _ => exact State.inContext_latches hmode (s.raise_latches _ _)
  | noteOn _ note x => exact State.inContext_latches hmode (s.noteOnEvent_latches c note x)
  | noteOff _ note => exact State.inContext_latches hmode (s.noteOffEvent_latches note)
  | allOff _ => exact State.inContext_latches hmode (s.mapVoices_latches _)

theorem State.badHeader_interface (w : Word) : (s.badHeader w).interface = s.interface :=
  State.inContext_interface (s.raise_interface _ _) (s.raise_interface _ _)

theorem State.badHeader_latches (w : Word) (hmode : s.seqMode ≠ .idle) :
    (s.badHeader w).latches = s.latches :=
  State.inContext_latches hmode (s.raise_latches _ _)

end effects

/-- The latches and the rate are among what no host access changes. -/
theorem State.sameEngine.latches {s t : State} (h : s.sameEngine t) : t.latches = s.latches := by
  obtain ⟨-, hrate, -, -, -, -, hH, hamp, hrel, -⟩ := h
  simp only [State.latches, hH, hamp, hrel, hrate]

/-! ## What the engine's step can do -/

theorem headerLen_le_two (w : Word) : headerLen w ≤ 2 := by
  unfold headerLen
  split <;> decide

/-- The engine at a header waits, or pops at most two words and runs the command or reports the header. -/
theorem headerStep_next_cases {s t : State} (ht : headerStep exec s = .next t) :
    t = s ∨ ∃ n ≤ 2, (∃ i, t = runWith Config.machine i (s.withCmdQ (s.cmdQ.drop n))) ∨
      ∃ w, t = (s.withCmdQ (s.cmdQ.drop n)).badHeader w := by
  obtain ⟨i, rest, hd, ho⟩ | ⟨w, -, ho⟩ | ⟨-, ho⟩ := headerStep_cases ht
  · obtain ⟨n, hn, rfl⟩ := decode_rest_eq_drop hd
    rw [exec_eq_runWith] at ho
    cases ho
    exact .inr ⟨n, hn, .inl ⟨i, rfl⟩⟩
  · cases ho
    exact .inr ⟨_, headerLen_le_two w, .inr ⟨w, rfl⟩⟩
  · cases ho
    exact .inl rfl

theorem headerStep_interface {s t : State} (ht : headerStep exec s = .next t) :
    ∃ n ≤ 2, t.interface = (s.withCmdQ (s.cmdQ.drop n)).interface := by
  obtain rfl | ⟨n, hn, ⟨i, rfl⟩ | ⟨w, rfl⟩⟩ := headerStep_next_cases ht
  · exact ⟨0, by decide, rfl⟩
  · exact ⟨n, hn, runWith_interface ..⟩
  · exact ⟨n, hn, State.badHeader_interface ..⟩

theorem headerStep_latches {s t : State} (ht : headerStep exec s = .next t)
    (hmode : s.seqMode ≠ .idle) : t.latches = s.latches := by
  obtain rfl | ⟨n, -, ⟨i, rfl⟩ | ⟨w, rfl⟩⟩ := headerStep_next_cases ht
  · rfl
  · exact runWith_latches _ _ i hmode
  · exact State.badHeader_latches _ w hmode

/-- An engine's step is a step at a header, a sample step, or none for want of room. -/
theorem step_engine_cases {s t : State} (hs : s.engineNext) (ht : step s = .next t) :
    headerStep exec s.turnTaken = .next t ∨
    (s.seqMode = .samples ∧ t = s.turnTaken.sampleStep Config.machine) ∨ t = s.turnTaken := by
  rw [step_engine hs] at ht
  obtain ⟨-, he⟩ | ⟨hmode, -, he⟩ | ⟨-, -, he⟩ := engineTurn_cases Config.machine exec s.turnTaken
  · exact .inl (he ▸ ht)
  · exact .inr (.inl ⟨hmode, (Host.Outcome.next.inj (he.symm.trans ht)).symm⟩)
  · cases he.symm.trans ht
    exact .inr (.inr rfl)

theorem State.noResetNext.engine_or_host {s : State} (h : s.noResetNext) :
    s.engineNext ∨ ∃ a, s.schedule.head? = some (.host a) := by
  obtain ⟨hs, -⟩ | ⟨a, ha, -⟩ | ⟨hr, -⟩ := step_cases s
  · exact .inl hs
  · exact .inr ⟨a, ha⟩
  · exact absurd hr h

/-! ## The whole machine -/

/-- Settles O54: a header step pops from the head, and a host appends one word at the tail. -/
theorem commandFifoKeepsOrder : Obligations.CommandFifoKeepsOrder := by
  intro s t hreset ht
  obtain hs | ⟨a, ha⟩ := hreset.engine_or_host
  · obtain hheader | ⟨-, rfl⟩ | rfl := step_engine_cases hs ht
    · obtain ⟨n, hn, hinterface⟩ := headerStep_interface hheader
      exact .inl ⟨n, hn, congrArg Interface.cmdQ hinterface⟩
    · exact .inl ⟨0, by decide, State.sampleStep_cmdQ ..⟩
    · exact .inl ⟨0, by decide, rfl⟩
  · obtain ⟨u, p, l, heffect, rfl⟩ := step_host_effect ha ht
    obtain hkept | ⟨w, happended⟩ := heffect.cmdQ
    · exact .inl ⟨0, by decide, hkept⟩
    · exact .inr ⟨w, a, ha, happended⟩

/-- Settles O55: a sample step appends its frame, and a host pops at most the head. -/
theorem outputFifoKeepsOrder : Obligations.OutputFifoKeepsOrder := by
  intro s t hreset ht
  obtain hs | ⟨a, ha⟩ := hreset.engine_or_host
  · obtain hheader | ⟨hmode, rfl⟩ | rfl := step_engine_cases hs ht
    · obtain ⟨n, -, hinterface⟩ := headerStep_interface hheader
      exact .inl (congrArg Interface.outQ hinterface)
    · exact .inr (.inl ⟨hs, hmode, _, State.sampleStep_outQ ..⟩)
    · exact .inl rfl
  · obtain ⟨u, p, l, heffect, rfl⟩ := step_host_effect ha ht
    obtain hkept | hpopped := heffect.outQ
    · exact .inl hkept
    · exact .inr (.inr ⟨a, ha, hpopped⟩)

/-- Settles O56: only a header at top level latches or sets the rate. -/
theorem blockLatchesHeldDuringBlock : Obligations.BlockLatchesHeldDuringBlock := by
  intro s t hreset ht hmode
  have hlatches : t.latches = s.latches := by
    obtain hs | ⟨a, ha⟩ := hreset.engine_or_host
    · obtain hheader | ⟨-, rfl⟩ | rfl := step_engine_cases hs ht
      · exact headerStep_latches (s := s.turnTaken) hheader hmode
      · exact State.sampleStep_latches ..
      · rfl
    · exact (hostTurnsLeaveEngineState s t a ha ht).latches
  exact ⟨congrArg Latches.blkH hlatches, congrArg Latches.blkAmp hlatches,
    congrArg Latches.blkRel hlatches, congrArg Latches.sampleRate hlatches⟩

end Sys2Proof.Machine
end

section
/-! PROOFS. The encoding of 30_encoding.md R110-R124: the decoder undoes the encoder, what does not decode
is reserved or lacks its operand word, and the ignored bits have no part in a legal command's meaning. -/

namespace Sys2Proof

open Laws Machine

/-! ## Headers and their fields -/

/-- A header is its opcode and the 28 bits below it (30_encoding.md R111). -/
theorem opcode_append_low (w : Word) : opcode w ++ w.extractLsb' 0 28 = w :=
  BitVec.extractLsb'_append_extractLsb'

/-- A header is its opcode, EVCOUNT and NSAMP (30_encoding.md R115). -/
theorem opcode_append_blockFields (w : Word) :
    opcode w ++ w.extractLsb' 16 12 ++ w.extractLsb' 0 16 = w := by
  rw [opcode, BitVec.extractLsb'_append_extractLsb'_eq_extractLsb' (rfl : 28 = 16 + 12)]
  exact BitVec.extractLsb'_append_extractLsb'

/-- A header is its opcode, the ignored bits [27:8] and NOTE (30_encoding.md R117, R118). -/
theorem opcode_append_noteFields (w : Word) :
    opcode w ++ w.extractLsb' 8 20 ++ w.extractLsb' 0 8 = w := by
  rw [opcode, BitVec.extractLsb'_append_extractLsb'_eq_extractLsb' (rfl : 28 = 8 + 20)]
  exact BitVec.extractLsb'_append_extractLsb'

/-- The lowest field of a header (30_encoding.md R114-R119). -/
theorem extract_lowField {m n : Nat} (a : BitVec m) (b : BitVec n) : (a ++ b).extractLsb' 0 n = b :=
  BitVec.extractLsb'_append_eq_right

/-- The field between the opcode and the lowest field (30_encoding.md R115, R117, R118). -/
theorem extract_middleField {m n : Nat} (op : BitVec 4) (a : BitVec m) (b : BitVec n) :
    (op ++ a ++ b).extractLsb' n m = a := by
  rw [BitVec.extractLsb'_append_eq_of_le le_rfl, Nat.sub_self]
  exact BitVec.extractLsb'_append_eq_right

/-! ## Decoding -/

/-- The opcodes of no command (30_encoding.md R123). -/
abbrev reservedOpcodes : List (BitVec 4) :=
  [0x3#4, 0x4#4, 0x5#4, 0x6#4, 0x7#4, 0xA#4, 0xC#4, 0xD#4, 0xE#4, 0xF#4]

/-- The opcodes of a header with an operand word behind it (30_encoding.md R112). -/
abbrev HasOperand (w : Word) : Prop := opcode w = 0x2#4 ∨ opcode w = 0x8#4

theorem decode_encode (i : Instr) (rest : List Word) : decode (encode i ++ rest) = .ok (i, rest) := by
  cases i with
  | nop ign =>
    have hop : opcode (Instr.nop ign).header = 0x0#4 := opcode_append _ _
    have hign : (Instr.nop ign).header.extractLsb' 0 28 = ign := extract_lowField (0x0#4) ign
    simp [encode, decode, hop, hign]
  | block e n =>
    have hop : opcode (Instr.block e n).header = 0x1#4 := opcode_append₂ rfl _ _ _
    have he : (Instr.block e n).header.extractLsb' 16 12 = e := extract_middleField (0x1#4) e n
    have hn : (Instr.block e n).header.extractLsb' 0 16 = n := extract_lowField (0x1#4 ++ e) n
    simp [encode, decode, hop, he, hn]
  | rate ign x =>
    have hop : opcode (Instr.rate ign x).header = 0x2#4 := opcode_append _ _
    have hign : (Instr.rate ign x).header.extractLsb' 0 28 = ign := extract_lowField (0x2#4) ign
    simp [encode, decode, hop, hign]
  | noteOn ign note x =>
    have hop : opcode (Instr.noteOn ign note x).header = 0x8#4 := opcode_append₂ rfl _ _ _
    have hign : (Instr.noteOn ign note x).header.extractLsb' 8 20 = ign :=
      extract_middleField (0x8#4) ign note
    have hnote : (Instr.noteOn ign note x).header.extractLsb' 0 8 = note :=
      extract_lowField (0x8#4 ++ ign) note
    simp [encode, decode, hop, hign, hnote]
  | noteOff ign note =>
    have hop : opcode (Instr.noteOff ign note).header = 0x9#4 := opcode_append₂ rfl _ _ _
    have hign : (Instr.noteOff ign note).header.extractLsb' 8 20 = ign :=
      extract_middleField (0x9#4) ign note
    have hnote : (Instr.noteOff ign note).header.extractLsb' 0 8 = note :=
      extract_lowField (0x9#4 ++ ign) note
    simp [encode, decode, hop, hign, hnote]
  | allOff ign =>
    have hop : opcode (Instr.allOff ign).header = 0xB#4 := opcode_append _ _
    have hign : (Instr.allOff ign).header.extractLsb' 0 28 = ign := extract_lowField (0xB#4) ign
    simp [encode, decode, hop, hign]

/-- A reserved header decodes to nothing, whatever is behind it (30_encoding.md R121). -/
theorem decode_reserved {w : Word} (h : opcode w ∈ reservedOpcodes) (rest : List Word) :
    decode (w :: rest) = .error (.reserved w) := by
  simp only [reservedOpcodes, List.mem_cons, List.not_mem_nil, or_false] at h
  rcases h with h | h | h | h | h | h | h | h | h | h <;> simp [decode, h]

/-- A lone header of two words waits for its operand (45_commands.md R240). -/
theorem decode_loneHeader {w : Word} (h : HasOperand w) :
    decode [w] = .error (.missingOperand w) := by
  rcases h with h | h <;> simp [decode, h]

/-- Each opcode is reserved or a command's (30_encoding.md R123). -/
theorem opcode_cases (op : BitVec 4) :
    op ∈ reservedOpcodes ∨
      op = 0x0#4 ∨ op = 0x1#4 ∨ op = 0x2#4 ∨ op = 0x8#4 ∨ op = 0x9#4 ∨ op = 0xB#4 := by
  revert op
  decide

/-- What a list of words begins with: a reserved header, a lone header of two words, or the words of a
command. -/
theorem words_cases (w : Word) (rest : List Word) :
    opcode w ∈ reservedOpcodes ∨ (HasOperand w ∧ rest = []) ∨
      ∃ i rest', encode i ++ rest' = w :: rest := by
  have hlow := opcode_append_low w
  have hblock := opcode_append_blockFields w
  have hnote := opcode_append_noteFields w
  rcases opcode_cases (opcode w) with h | h | h | h | h | h | h
  · exact .inl h
  all_goals rw [h] at hlow hblock hnote; right
  · exact .inr ⟨.nop (w.extractLsb' 0 28), rest, congrArg (· :: rest) hlow⟩
  · exact .inr ⟨.block (w.extractLsb' 16 12) (w.extractLsb' 0 16), rest,
      congrArg (· :: rest) hblock⟩
  · cases rest with
    | nil => exact .inl ⟨.inl h, rfl⟩
    | cons x rest =>
      exact .inr ⟨.rate (w.extractLsb' 0 28) x, rest, congrArg (· :: x :: rest) hlow⟩
  · cases rest with
    | nil => exact .inl ⟨.inr h, rfl⟩
    | cons x rest =>
      exact .inr ⟨.noteOn (w.extractLsb' 8 20) (w.extractLsb' 0 8) x, rest,
        congrArg (· :: x :: rest) hnote⟩
  · exact .inr ⟨.noteOff (w.extractLsb' 8 20) (w.extractLsb' 0 8), rest,
      congrArg (· :: rest) hnote⟩
  · exact .inr ⟨.allOff (w.extractLsb' 0 28), rest, congrArg (· :: rest) hlow⟩

theorem encode_of_decode {ws rest : List Word} {i : Instr} (h : decode ws = .ok (i, rest)) :
    encode i ++ rest = ws := by
  cases ws with
  | nil => cases h
  | cons w ws =>
    rcases words_cases w ws with hres | ⟨hop, rfl⟩ | ⟨j, rest', hj⟩
    · rw [decode_reserved hres] at h
      cases h
    · rw [decode_loneHeader hop] at h
      cases h
    · rw [← hj, decode_encode] at h
      cases h
      exact hj

/-- Settles O1: the fields of each command's header are read back one by one. -/
theorem decodeOfEncodeGivesInstruction : Obligations.DecodeOfEncodeGivesInstruction := decode_encode

/-- Settles O2: a header that is not refused is its command's, put together from the same fields. -/
theorem encodeOfDecodeGivesWords : Obligations.EncodeOfDecodeGivesWords := fun _ _ _ =>
  encode_of_decode

/-! ## Headers, lengths and rows -/

theorem encodesAsOneRow (i : Instr) : EncodesAsOneRow.Statement i := by
  cases i with
  | nop ign => exact EncodesAsOneRow.nop ign
  | block e n => exact EncodesAsOneRow.block e n
  | rate ign x => exact EncodesAsOneRow.rate ign x
  | noteOn ign note x => exact EncodesAsOneRow.noteOn ign note x
  | noteOff ign note => exact EncodesAsOneRow.noteOff ign note
  | allOff ign => exact EncodesAsOneRow.allOff ign

/-- A command's words begin with its header (30_encoding.md R110). -/
theorem header_eq_of_encode_append {i : Instr} {w : Word} {rest rest' : List Word}
    (h : encode i ++ rest' = w :: rest) : i.header = w := by
  obtain ⟨hhead, -, -, -⟩ := encodesAsOneRow i
  have := congrArg List.head? h
  rw [List.head?_append, hhead] at this
  exact Option.some.inj this

/-- A command has as many words as its header's length (30_encoding.md R112). -/
theorem length_encode (i : Instr) : (encode i).length = headerLen i.header := by
  obtain ⟨-, hlen, hheader, -⟩ := encodesAsOneRow i
  rw [hlen, hheader]

theorem decode_rest_eq_drop_headerLen {w : Word} {rest rest' : List Word} {i : Instr}
    (h : decode (w :: rest) = .ok (i, rest')) : rest' = (w :: rest).drop (headerLen w) := by
  have hwords := encode_of_decode h
  rw [← hwords, ← header_eq_of_encode_append hwords, ← length_encode, List.drop_left]

theorem decode_eq_missingOperand_iff (w : Word) (rest : List Word) :
    decode (w :: rest) = .error (.missingOperand w) ↔ HasOperand w ∧ rest = [] := by
  refine ⟨fun h => ?_, fun ⟨hop, hrest⟩ => hrest ▸ decode_loneHeader hop⟩
  rcases words_cases w rest with hres | hlone | ⟨i, rest', hi⟩
  · rw [decode_reserved hres] at h
    cases h
  · exact hlone
  · rw [← hi, decode_encode] at h
    cases h

theorem decode_eq_reserved_iff (w : Word) (rest : List Word) :
    decode (w :: rest) = .error (.reserved w) ↔ opcode w ∈ reservedOpcodes := by
  refine ⟨fun h => ?_, fun hres => decode_reserved hres rest⟩
  rcases words_cases w rest with hres | ⟨hop, rfl⟩ | ⟨i, rest', hi⟩
  · exact hres
  · rw [decode_loneHeader hop] at h
    cases h
  · rw [← hi, decode_encode] at h
    cases h

/-- Settles O3: what decodes are a command's words, as many as its header's length. -/
theorem lengthFollowsOpcodeAlone : Obligations.LengthFollowsOpcodeAlone := fun w rest =>
  ⟨rfl, fun _ _ => decode_rest_eq_drop_headerLen, decode_eq_missingOperand_iff w rest,
    decode_eq_reserved_iff w rest⟩

/-- The rows a header matches are those whose mnemonic `rowsOf` lists (30_encoding.md R124). -/
theorem mem_matchingRows {w : Word} {r : OpcodeRow} :
    r ∈ opcodeRows.filter (·.matchesWord w) ↔ r ∈ opcodeRows ∧ w &&& r.mask = r.pattern := by
  simp [OpcodeRow.matchesWord]

theorem rowsOf_reserved {w : Word} (h : opcode w ∈ reservedOpcodes) : rowsOf w = [] := by
  rw [rowsOf_eq]
  revert h
  generalize opcode w = op
  revert op
  decide

/-- The header of a command matches the command's own row and no other (30_encoding.md R124). -/
theorem header_matches_unique_row (i : Instr) :
    ∃ r ∈ opcodeRows, i.header &&& r.mask = r.pattern ∧
      (∀ r' ∈ opcodeRows, i.header &&& r'.mask = r'.pattern → r' = r) ∧
      i.mnemonic = r.mnemonic := by
  obtain ⟨-, -, -, hrows⟩ := encodesAsOneRow i
  obtain ⟨r, hfilter, hname⟩ := List.map_eq_singleton_iff.1 hrows
  have hmem (r' : OpcodeRow) :
      r' = r ↔ r' ∈ opcodeRows ∧ i.header &&& r'.mask = r'.pattern := by
    rw [← mem_matchingRows, hfilter, List.mem_singleton]
  obtain ⟨hr, hmatch⟩ := (hmem r).1 rfl
  exact ⟨r, hr, hmatch, fun r' hr' hmatch' => (hmem r').2 ⟨hr', hmatch'⟩, hname.symm⟩

theorem reserved_matches_no_row {w : Word} (h : opcode w ∈ reservedOpcodes) :
    ∀ r ∈ opcodeRows, w &&& r.mask ≠ r.pattern := by
  have hnone : opcodeRows.filter (·.matchesWord w) = [] := List.map_eq_nil_iff.1 (rowsOf_reserved h)
  intro r hr hmatch
  have := mem_matchingRows.2 ⟨hr, hmatch⟩
  rw [hnone] at this
  cases this

/-- Settles O4: a header that is not reserved is the header of the command it decodes to, which matches
that command's row alone. -/
theorem matchAndMaskSelectOneRow : Obligations.MatchAndMaskSelectOneRow := by
  intro w x rest
  refine ⟨fun hres => ?_, reserved_matches_no_row⟩
  rcases words_cases w (x :: rest) with h | ⟨-, h⟩ | ⟨i, rest', hi⟩
  · exact absurd h hres
  · cases h
  · obtain ⟨r, hr, hmatch, hunique, hname⟩ := header_matches_unique_row i
    rw [header_eq_of_encode_append hi] at hmatch hunique
    exact ⟨r, hr, hmatch, hunique, i, rest', hi ▸ decode_encode i rest', hname⟩

/-- Settles O5: each list of words is a command's encoding, and opcode 0x3 is reserved. -/
theorem specExampleWordsDecode : Obligations.SpecExampleWordsDecode :=
  ⟨decode_encode (.block 1 8) [], decode_encode (.block 4095 65535) [],
    decode_encode (.rate 0 0x472C4400) [], decode_encode (.noteOn 0 69 0x3F800000) [],
    decode_encode (.noteOff 0xFFFFF 60) [], decode_encode (.allOff 0) [],
    decode_encode (.nop 0xABCDEF0) [], decode_reserved (by decide) []⟩

/-! ## Ignored bits (30_encoding.md R122) -/

/-- Settles O7: the ignored bits stand only in the header an illegal command reports. -/
theorem ignoredBitsChangeNothing : Obligations.IgnoredBitsChangeNothing := by
  refine fun s note x => ⟨fun a b => rfl, fun hidle a b => ?_, fun hevents => ⟨?_, ?_, ?_⟩⟩
  · simp only [exec, execRate, rateMeaning, s.inContext_idle _ _ hidle]
  · intro a b
    simp only [exec, execNoteOn, noteOnMeaning, s.inContext_events _ _ hevents]
  · intro a b
    simp only [exec, execNoteOff, noteOffMeaning, s.inContext_events _ _ hevents]
  · intro a b
    simp only [exec, execAllOff, allOffMeaning, s.inContext_events _ _ hevents]

end Sys2Proof
end

section
/-! PROOFS. The assembler of 30_encoding.md R125: what each line assembles to, and which lines are errors. -/

namespace Sys2Proof.Machine

open Laws

/-! ## Float literals -/

/-- A literal in range is one word, its binary32 (30_encoding.md R125). -/
theorem FloatLit.exists_bits_denotes {f : FloatLit} (h : f.InRange) :
    ∃ w, f.bits = .ok w ∧ f.Denotes w := by
  cases f with
  | decimal neg num den =>
    refine ⟨_, rfl, correctlyRounded_pack_roundUnits neg (num * 2 ^ 149) h ?_⟩
    rw [signFactor, Nat.cast_mul, Nat.cast_pow, Nat.cast_ofNat]
    field_simp
  | pattern b => exact ⟨BitVec.ofNat 32 b, if_pos h, Nat.mod_eq_of_lt h⟩

/-- A pattern of more than 32 bits is refused (log entry 12). -/
theorem FloatLit.bits_pattern_of_le {b : Nat} (h : 2 ^ 32 ≤ b) :
    (FloatLit.pattern b).bits = .error .patternRange :=
  if_neg h.not_gt

/-! ## Operands in their fields -/

/-- The operands of a BLOCK line in their fields (30_encoding.md R115). -/
theorem encode_block_ofNat {n e : Nat} (hn : n < 2 ^ 16) (he : e < 2 ^ 12) :
    encode (.block (BitVec.ofNat 12 e) (BitVec.ofNat 16 n)) =
      [BitVec.ofNat 32 (0x10000000 + e * 65536 + n)] := by
  refine congrArg (· :: []) (BitVec.eq_of_toNat_eq ?_)
  rw [Instr.header, append_toNat, append_toNat]
  simp only [BitVec.toNat_ofNat]
  omega

/-- A note in the low field of a header whose ignored bits are zero (30_encoding.md R117, R118). -/
theorem append_note_ofNat (op : BitVec 4) {n : Nat} (hn : n < 2 ^ 8) :
    op ++ 0#20 ++ BitVec.ofNat 8 n = BitVec.ofNat 32 (op.toNat * 2 ^ 28 + n) := by
  have := op.isLt
  apply BitVec.eq_of_toNat_eq
  rw [append_toNat, append_toNat]
  simp only [BitVec.toNat_ofNat]
  omega

/-! ## Lines -/

theorem AsmLine.assemble_block {n e : Nat} (hn : n < 2 ^ 16) (he : e < 2 ^ 12) :
    (AsmLine.block n e).assemble = .ok (.block (BitVec.ofNat 12 e) (BitVec.ofNat 16 n)) := by
  rw [AsmLine.assemble, if_pos hn, if_pos he]

theorem AsmLine.assemble_block_error {n e : Nat} (h : ¬(n < 2 ^ 16 ∧ e < 2 ^ 12)) :
    ∃ err, (AsmLine.block n e).assemble = .error err := by
  rw [AsmLine.assemble]
  split_ifs with hn he
  · exact absurd ⟨hn, he⟩ h
  · exact ⟨_, rfl⟩
  · exact ⟨_, rfl⟩

theorem AsmLine.assemble_noteOff {n : Nat} (h : n < 2 ^ 8) :
    (AsmLine.noteOff n).assemble = .ok (.noteOff 0 (BitVec.ofNat 8 n)) := if_pos h

theorem AsmLine.assemble_noteOff_error {n : Nat} (h : ¬n < 2 ^ 8) :
    (AsmLine.noteOff n).assemble = .error .noteRange := if_neg h

theorem AsmLine.assemble_noteOn {n : Nat} (h : n < 2 ^ 8) {f : FloatLit} {w : Word}
    (hf : f.bits = .ok w) : (AsmLine.noteOn n f).assemble = .ok (.noteOn 0 (BitVec.ofNat 8 n) w) := by
  rw [AsmLine.assemble, if_pos h, hf]
  rfl

theorem AsmLine.assemble_noteOn_error {n : Nat} (h : ¬n < 2 ^ 8) (f : FloatLit) :
    (AsmLine.noteOn n f).assemble = .error .noteRange := if_neg h

/-- A literal that is an error makes its line one, whatever the note. -/
theorem AsmLine.assemble_noteOn_float_error (n : Nat) {f : FloatLit} {err : AsmError}
    (hf : f.bits = .error err) : ∃ err', (AsmLine.noteOn n f).assemble = .error err' := by
  rw [AsmLine.assemble, hf]
  split_ifs
  · exact ⟨_, rfl⟩
  · exact ⟨_, rfl⟩

theorem AsmLine.assemble_rate (f : FloatLit) : (AsmLine.rate f).assemble = f.bits.map (.rate 0) := rfl

/-- Settles O6: each operand is either in its field's range, and then a part of the header's sum, or an
error; a literal is one word, rounded once. -/
theorem assemblerEncodesFieldsOrRefuses : Obligations.AssemblerEncodesFieldsOrRefuses := by
  refine ⟨⟨_, _, rfl, rfl, rfl, rfl⟩, fun n e => ⟨fun ⟨hn, he⟩ => ?_, AsmLine.assemble_block_error⟩,
    fun n => ⟨fun hn => ?_, fun hn => ?_⟩, fun f hf => ?_, fun b hb => ?_⟩
  · exact ⟨_, AsmLine.assemble_block hn he, encode_block_ofNat hn he⟩
  · exact ⟨_, AsmLine.assemble_noteOff hn, congrArg (· :: []) (append_note_ofNat (0x9#4) hn)⟩
  · exact ⟨⟨_, AsmLine.assemble_noteOff_error hn⟩, fun f => ⟨_, AsmLine.assemble_noteOn_error hn f⟩⟩
  · obtain ⟨w, hw, hdenotes⟩ := f.exists_bits_denotes hf
    refine ⟨w, hdenotes, ⟨.rate 0 w, by rw [AsmLine.assemble_rate, hw]; rfl, rfl⟩, fun n hn => ?_⟩
    exact ⟨_, AsmLine.assemble_noteOn hn hw, congrArg (· :: [w]) (append_note_ofNat (0x8#4) hn)⟩
  · have hbits := FloatLit.bits_pattern_of_le hb
    exact ⟨⟨_, by rw [AsmLine.assemble_rate, hbits]; rfl⟩,
      fun n => AsmLine.assemble_noteOn_float_error n hbits⟩

end Sys2Proof.Machine
end

section
/-! PROOFS. The wavetable lookup (40_wavetable.md R142, R143): its position is finite only for a finite
phase, and the floor of a finite position names the entry. -/

namespace Sys2Proof.Machine

/-! ## Operands that are not finite -/

theorem isNaN_or_isInf (x : F32) : (isNaN x || isInf x) = !isFinite x := by
  unfold isNaN isInf isFinite bne
  rw [← Bool.and_or_distrib_left, Bool.not_or_self, Bool.and_true, Bool.not_not]

theorem isNaN_or_isInf_of_not_finite {x : F32} (h : isFinite x = false) :
    isNaN x = true ∨ isInf x = true := by
  simpa [h] using isNaN_or_isInf x

theorem isFinite_qNaN : isFinite qNaN = false := by decide

theorem isFinite_pack_inf (neg : Bool) : isFinite (pack neg 0x7F800000) = false := by
  cases neg <;> decide

/-- A dividend that is a NaN gives a NaN; an infinite one gives a NaN or an infinity. -/
theorem fdiv_not_finite {a : F32} (h : isFinite a = false) (b : F32) :
    isFinite (fdiv a b) = false := by
  rcases isNaN_or_isInf_of_not_finite h with hnan | hinf
  · simp [fdiv, hnan, isFinite_qNaN]
  · simp only [fdiv, hinf, if_true]
    split_ifs
    · exact isFinite_qNaN
    · exact isFinite_qNaN
    · exact isFinite_pack_inf _

/-- A factor that is a NaN gives a NaN; an infinite one gives a NaN or an infinity. -/
theorem fmul_not_finite {a : F32} (h : isFinite a = false) (b : F32) :
    isFinite (fmul a b) = false := by
  rcases isNaN_or_isInf_of_not_finite h with hnan | hinf
  · simp [fmul, hnan, isFinite_qNaN]
  · simp only [fmul, hinf, Bool.true_or, if_true]
    split_ifs
    · exact isFinite_qNaN
    · exact isFinite_qNaN
    · exact isFinite_pack_inf _

/-! ## The position and the lookup -/

theorem floorInt_eq_floor (x : F32) : floorInt x = ⌊value x⌋ := by
  have h := Rat.floor_intCast_div_natCast (signedUnits x) (2 ^ 149)
  rw [Nat.cast_pow, Nat.cast_pow] at h
  exact h.symm

theorem table_eq {n : Int} {i : Fin 4096} (h : (i.val : Int) = n % 4096) (N : Num) :
    table N n = numSinTable N i :=
  congrArg (numSinTable N) (Fin.ext (by simp [← h]))

/-- The position `ph / 2π · 4096` that `waveLookup` takes. -/
def wavePosition (ph : F32) : F32 := fmul (fdiv ph kTwoPi) kTable

theorem wavePosition_not_finite {ph : F32} (h : isFinite ph = false) :
    isFinite (wavePosition ph) = false :=
  fmul_not_finite (fdiv_not_finite h _) _

theorem waveLookup_of_position_not_finite {ph : F32} (h : isFinite (wavePosition ph) = false)
    (N : Num) : waveLookup N ph = qNaN :=
  if_pos (by rw [← wavePosition, isNaN_or_isInf, h]; rfl)

/-- `Fin`'s addition wraps, so the neighbour of the last entry is the first. -/
theorem waveLookup_of_position_finite {ph : F32} (h : isFinite (wavePosition ph) = true) (N : Num)
    {i : Fin 4096} (hi : (i.val : Int) = ⌊value (wavePosition ph)⌋ % 4096) :
    waveLookup N ph =
      fadd (numSinTable N i)
        (fmul (fsub (wavePosition ph) (i2f ⌊value (wavePosition ph)⌋))
          (fsub (numSinTable N (i + 1)) (numSinTable N i))) := by
  have hentry : table N (⌊value (wavePosition ph)⌋ % 4096) = numSinTable N i :=
    table_eq (by omega) N
  have hnext : table N ((⌊value (wavePosition ph)⌋ % 4096 + 1) % 4096) = numSinTable N (i + 1) :=
    table_eq (by rw [Fin.val_add]; omega) N
  rw [← hnext, ← hentry, ← floorInt_eq_floor]
  exact if_neg (by rw [← wavePosition, isNaN_or_isInf, h]; decide)

/-- Settles O35: the lookup tests its position, which is finite only for a finite phase, and then its
entries are those of the position's floor. -/
theorem waveLookupInterpolatesOrIsNaN : Obligations.WaveLookupInterpolatesOrIsNaN := by
  intro N ph
  refine ⟨fun h => waveLookup_of_position_not_finite (wavePosition_not_finite h) N,
    fun h => waveLookup_of_position_not_finite h N, fun h => ?_⟩
  obtain ⟨i, hi⟩ : ∃ i : Fin 4096, (i.val : Int) = ⌊value (wavePosition ph)⌋ % 4096 :=
    ⟨⟨(⌊value (wavePosition ph)⌋ % 4096).toNat, by omega⟩, Int.toNat_of_nonneg (by omega)⟩
  exact ⟨i, i + 1, hi, rfl, waveLookup_of_position_finite h N hi⟩

end Sys2Proof.Machine
end

section
/-! PROOFS. An advance of a voice (42_envelope.md R175; 41_oscillator_bank.md R156, R157): the envelope's
update stage by stage, the phases' update, and the range [+0.0, 2π) that a phase advance keeps. -/

namespace Sys2Proof.Machine

/-! ## Sums and comparisons of non-negative values -/

/-- A sum of finite values that is not negative, as a pattern. Two negative zeros, whose sum is -0.0, are
left out. -/
theorem fadd_toNat {x y : F32} (hx : isFinite x = true) (hy : isFinite y = true)
    (hsign : (signBit x && signBit y) = false) {n : Nat} (hsum : signedUnits x + signedUnits y = n) :
    (fadd x y).toNat = roundUnits n 1 := by
  simp only [fadd, isNaN_of_isFinite hx, isNaN_of_isFinite hy, isInf_of_isFinite hx,
    isInf_of_isFinite hy, Bool.or_self, Bool.false_eq_true, if_false]
  rw [hsum, hsign]
  split_ifs with hzero
  · rw [Int.natCast_eq_zero.1 hzero]
    decide
  · rw [decide_eq_false (Int.natCast_nonneg n).not_gt, pack_toNat (roundUnits_lt _ _)]
    simp

theorem NonNeg.signedUnits {x : F32} (hx : NonNeg x) : signedUnits x = units x := by
  simp [Machine.signedUnits, hx.sign]

theorem fadd_nonNeg {x y : F32} (hx : NonNeg x) (hy : NonNeg y) :
    (fadd x y).toNat = roundUnits (units x + units y) 1 :=
  fadd_toNat hx.finite hy.finite (by rw [hx.sign, Bool.false_and])
    (by rw [hx.signedUnits, hy.signedUnits, Nat.cast_add])

theorem fsub_nonNeg {x y : F32} (hx : NonNeg x) (hy : NonNeg y) (h : y.toNat ≤ x.toNat) :
    (fsub x y).toNat = roundUnits (units x - units y) 1 :=
  fadd_toNat hx.finite ((isFinite_fneg y).trans hy.finite) (by rw [hx.sign, Bool.false_and])
    (by rw [signedUnits_fneg, hx.signedUnits, hy.signedUnits, ← sub_eq_add_neg,
      Nat.cast_sub (hy.units_mono hx h)])

/-- Patterns order the non-negative values. -/
theorem fge_nonNeg {x y : F32} (hx : NonNeg x) (hy : NonNeg y) :
    fge x y = true ↔ y.toNat ≤ x.toNat := by
  simp [fge, fle, orderKey, hx.notNaN, hy.notNaN, hx.sign, hy.sign, hx.magnitude, hy.magnitude]

/-! ## Phases -/

/-- A phase advance by an increment in [+0.0, 2π) keeps the phase there: the sum is at most twice the
last pattern below 2π, which is exact, and the subtraction brings that back below 2π
(41_oscillator_bank.md R157). -/
theorem phaseStep_lt {ph inc : F32} (hph : ph.toNat < 0x40C90FDB) (hinc : inc.toNat < 0x40C90FDB) :
    (phaseStep ph inc).toNat < 0x40C90FDB := by
  have nonNeg_of_lt {x : F32} (h : x.toNat < 0x40C90FDB) : NonNeg x := lt_trans h (by decide)
  have units_le {x : F32} (h : x.toNat < 0x40C90FDB) : units x ≤ units 0x40C90FDA#32 :=
    (nonNeg_of_lt h).units_mono (by unfold NonNeg; decide) (Nat.le_of_lt_succ h)
  have htwoPi : NonNeg kTwoPi := by unfold NonNeg; decide
  have htop : NonNeg 0x41490FDA#32 := by unfold NonNeg; decide
  have hsum : (fadd ph inc).toNat ≤ (0x41490FDA#32).toNat := by
    rw [fadd_nonNeg (nonNeg_of_lt hph) (nonNeg_of_lt hinc)]
    calc roundUnits (units ph + units inc) 1
        ≤ roundUnits (units 0x40C90FDA#32 + units 0x40C90FDA#32) 1 :=
          roundUnits_mono one_pos one_pos
            (Nat.mul_le_mul_right 1 (Nat.add_le_add (units_le hph) (units_le hinc)))
      _ = 0x41490FDA := by decide +kernel
  have hp : NonNeg (fadd ph inc) := .of_le hsum htop
  unfold phaseStep
  dsimp only
  split_ifs with hge <;> rw [fge_nonNeg hp htwoPi] at hge
  · rw [fsub_nonNeg hp htwoPi hge]
    calc roundUnits (units (fadd ph inc) - units kTwoPi) 1
        ≤ roundUnits (units 0x41490FDA#32 - units kTwoPi) 1 :=
          roundUnits_mono one_pos one_pos
            (Nat.mul_le_mul_right 1 (Nat.sub_le_sub_right (hp.units_mono htop hsum) _))
      _ < 0x40C90FDB := by decide +kernel
  · exact Nat.lt_of_not_le hge

/-- The bank advances the phases of the harmonics up to the harmonic count (41_oscillator_bank.md R156). -/
theorem Voice.advance_phase_getElem (v : Voice) (k : Fin 32) :
    v.advance.phase[k] = if k.val < v.hc then phaseStep v.phase[k] v.inc[k] else v.phase[k] := by
  simp [Voice.advance, Voice.bankAdvance]

/-- The summed phases and increments lie in [+0.0, 2π): the condition of 41_oscillator_bank.md R157. -/
def Voice.PhasesBelowTwoPi (v : Voice) : Prop :=
  ∀ k : Fin 32, k.val < v.hc → v.phase[k].toNat < 0x40C90FDB ∧ v.inc[k].toNat < 0x40C90FDB

theorem Voice.PhasesBelowTwoPi.advance {v : Voice} (h : v.PhasesBelowTwoPi) :
    v.advance.PhasesBelowTwoPi := by
  intro k hk
  rw [Voice.advance_hc] at hk
  obtain ⟨hphase, hinc⟩ := h k hk
  rw [Voice.advance_phase_getElem, if_pos hk, Voice.advance_inc]
  exact ⟨phaseStep_lt hphase hinc, hinc⟩

/-- Settles O34: every advance keeps the summed phases and increments in [+0.0, 2π). -/
theorem phasesStayBelowTwoPi : Obligations.PhasesStayBelowTwoPi := by
  intro v (h : v.PhasesBelowTwoPi) m k hk
  induction m generalizing v with
  | zero => exact (h k hk).1
  | succ m ih => exact ih v.advance h.advance (by rwa [Voice.advance_hc])

/-! ## The envelope -/

theorem counter_sub_one_eq_zero (rem : BitVec 32) : rem - 1 = 0 ↔ rem = 1 := by
  bv_omega

theorem Voice.envAdvance_of_idle {v : Voice} (h : v.stage = .idle) : v.envAdvance = v := by
  simp [Voice.envAdvance, h]

theorem Voice.envAdvance_of_sustain {v : Voice} (h : v.stage = .sustain) : v.envAdvance = v := by
  simp [Voice.envAdvance, h]

theorem Voice.envAdvance_of_attack {v : Voice} (h : v.stage = .attack) (hrem : v.attackRem ≠ 1) :
    v.envAdvance = { v with
      attackRem := v.attackRem - 1
      attackLevel := attackRamp v.attackRem v.attackTotal } := by
  simp only [Voice.envAdvance, h, counter_sub_one_eq_zero, if_neg hrem]

theorem Voice.envAdvance_of_attack_last {v : Voice} (h : v.stage = .attack) (hrem : v.attackRem = 1) :
    v.envAdvance = { v with attackRem := 0, stage := .sustain, attackLevel := kOne } := by
  simp [Voice.envAdvance, h, hrem]

theorem Voice.envAdvance_of_release {v : Voice} (h : v.stage = .release) :
    v.envAdvance = { v with
      releaseRem := v.releaseRem - 1
      releaseLevel := releaseRamp v.releaseStart v.releaseRem v.releaseTotal
      stage := if v.releaseRem = 1 then .idle else .release
      active := if v.releaseRem = 1 then false else v.active } := by
  simp only [Voice.envAdvance, h, counter_sub_one_eq_zero]

/-- The bank moves the phases alone, so the rest of an advance is the envelope's. -/
theorem Voice.advance_eq (v : Voice) : v.advance = { v.envAdvance with phase := v.advance.phase } := by
  unfold Voice.advance Voice.bankAdvance
  rfl

/-- Settles O24: the envelope's update in each stage, and the bank's of the phases. -/
theorem voiceAdvanceFollowsSpec : Obligations.VoiceAdvanceFollowsSpec := by
  intro v u
  have hu : u = { v.envAdvance with phase := u.phase } := v.advance_eq
  refine ⟨v.advance_phase_getElem, fun h => ?_, fun h hrem => ?_, fun h hrem => ?_, fun h => ?_⟩
  · rcases h with h | h
    · rwa [Voice.envAdvance_of_idle h] at hu
    · rwa [Voice.envAdvance_of_sustain h] at hu
  · rwa [Voice.envAdvance_of_attack h hrem] at hu
  · rwa [Voice.envAdvance_of_attack_last h hrem] at hu
  · rwa [Voice.envAdvance_of_release h] at hu

end Sys2Proof.Machine
end

section
/-! PROOFS. Sample counts (42_envelope.md R171), and what a step can do to a voice (43_voice_pool.md
R190-R193): one of six effects, each of which keeps the level bounds (42_envelope.md R178) and moves the
stage only as listed (R170). -/

namespace Sys2Proof.Machine

/-! ## Sample counts (42_envelope.md R171) -/

theorem samplesOf_of_isNaN_or_flt {sr t : F32}
    (h : isNaN (fmul t sr) = true ∨ flt (fmul t sr) kOne = true) : samplesOf sr t = 1 :=
  if_pos (Bool.or_eq_true_iff.2 h)

/-- A value that some number is at most is itself a number, and at least 1.0 if that number is. -/
theorem isNaN_or_flt_kOne_of_fge {x k : F32} (hk : fge k kOne = true) (h : fge x k = true) :
    (isNaN x || flt x kOne) = false := by
  simp only [fge, fle, Bool.and_eq_true, Bool.not_eq_true', decide_eq_true_eq] at hk h
  obtain ⟨-, hkey⟩ := hk
  obtain ⟨⟨-, hnan⟩, hkey'⟩ := h
  simp [flt, hnan, hkey.trans hkey']

theorem samplesOf_of_fge_k2to32 {sr t : F32} (h : fge (fmul t sr) k2to32 = true) :
    samplesOf sr t = 0xFFFFFFFF := by
  have hlow := isNaN_or_flt_kOne_of_fge (by decide) h
  simp [samplesOf, hlow, h]

theorem fge_eq_false_of_flt {x y : F32} (h : flt x y = true) : fge x y = false := by
  simp only [flt, Bool.and_eq_true, decide_eq_true_eq] at h
  simp [fge, fle, h.2]

theorem toNat_samplesOf_eq_floor {sr t : F32} (hlo : fge (fmul t sr) kOne = true)
    (hhi : flt (fmul t sr) k2to32 = true) :
    ((samplesOf sr t).toNat : Int) = ⌊value (fmul t sr)⌋ := by
  have hlow := isNaN_or_flt_kOne_of_fge (by decide) hlo
  have hhigh := fge_eq_false_of_flt hhi
  obtain ⟨hnan, hflt⟩ := Bool.or_eq_false_iff.1 hlow
  obtain ⟨h1, h2⟩ := toNat_bounds_of_not_flt_of_not_fge hnan hflt hhigh
  have hfloor := floorInt_bounds h1 h2
  have hcount : samplesOf sr t = BitVec.ofNat 32 (floorInt (fmul t sr)).toNat := by
    simp [samplesOf, hlow, hhigh]
  rw [hcount, BitVec.toNat_ofNat, ← floorInt_eq_floor]
  omega

/-- Settles O32: the count is cut off below at 1 and above at all ones, and is the floor between. -/
theorem samplesOfCountsAtLeastOne : Obligations.SamplesOfCountsAtLeastOne := fun sr t =>
  ⟨one_le_samplesOf sr t, samplesOf_of_isNaN_or_flt, samplesOf_of_fge_k2to32,
    toNat_samplesOf_eq_floor⟩

/-! ## A stop, case by case (42_envelope.md R174) -/

theorem Voice.stop_of_sounding {v : Voice} (h : v.active = true ∧ v.stage ≠ .release) :
    v.stop = { v with
      releaseStart := v.stopLevel
      releaseLevel := v.stopLevel
      releaseRem := v.releaseTotal
      stage := .release } :=
  if_pos h

theorem Voice.stop_of_not_sounding {v : Voice} (h : ¬(v.active = true ∧ v.stage ≠ .release)) :
    v.stop = v :=
  if_neg h

/-! ## The effects a step can have on a voice -/

/-- All that one step other than a reset can do to a voice (41_oscillator_bank.md R153;
43_voice_pool.md R190, R193; 44_block_mixer.md R211). -/
inductive Voice.Effect (v : Voice) : Voice → Prop
  | unchanged : v.Effect v
  | configured (N : Num) (sr : F32) : v.Effect (v.configure N sr)
  | pushed (N : Num) (sr attackTime releaseTime : F32) (hc : Nat) :
      v.Effect (v.push N sr attackTime releaseTime hc)
  | started (N : Num) (sr : F32) (note : BitVec 8) (x : Word) :
      v.Effect (v.start N sr note (scaledVelocity x))
  | stopped : v.Effect v.stop
  | advanced : v.Effect v.advance

/-- Every voice of `t` is the voice of `s` after one of the effects. -/
def State.VoiceEffects (s t : State) : Prop := ∀ i, (s.voice i).Effect (t.voice i)

section effects
variable {s t : State}

theorem State.VoiceEffects.of_voices_eq (h : t.voices = s.voices) : s.VoiceEffects t := fun i => by
  rw [s.voice_congr h]
  exact .unchanged

/-- One effect on every voice. -/
theorem State.VoiceEffects.of_voices_eq_ofFn {f : Voice → Voice}
    (h : t.voices = Vector.ofFn fun i => f (s.voice i)) (hf : ∀ v : Voice, v.Effect (f v)) :
    s.VoiceEffects t := fun i => by
  rw [(s.mapVoices f).voice_congr h, State.mapVoices_voice]
  exact hf _

theorem State.setVoice_voiceEffects {i : Fin 16} {v : Voice} (hv : (s.voice i).Effect v) :
    s.VoiceEffects (s.setVoice i v) := fun j => by
  by_cases hj : j = i
  · subst hj
    rwa [State.setVoice_voice_same]
  · rw [State.setVoice_voice_ne s v hj]
    exact .unchanged

theorem State.inContext_voiceEffects {top event : State → State} (htop : s.VoiceEffects (top s))
    (hevent : s.VoiceEffects (event s)) : s.VoiceEffects (s.inContext top event) :=
  s.inContext_cases top event (fun _ => htop) (fun _ => hevent)
    (fun _ => .of_voices_eq rfl) (fun _ => .of_voices_eq rfl)

theorem State.blockCommand_voiceEffects (s : State) (c : Config) (evCount : BitVec 12)
    (nSamp : BitVec 16) : s.VoiceEffects (s.blockCommand c evCount nSamp) := by
  unfold State.blockCommand
  split
  · exact .of_voices_eq_ofFn (congrArg State.voices (s.blockAccepted_eq c evCount nSamp))
      fun _ => .pushed ..
  · exact .of_voices_eq rfl

theorem State.rateCommand_voiceEffects (s : State) (c : Config) (x : Word) :
    s.VoiceEffects (s.rateCommand c x) := by
  unfold State.rateCommand
  split
  · exact .of_voices_eq_ofFn (congrArg State.voices (s.rateAccept_eq c x)) fun _ => .configured ..
  · exact .of_voices_eq rfl

theorem State.noteOnEvent_voiceEffects (s : State) (c : Config) (n : BitVec 8) (x : Word) :
    s.VoiceEffects (s.noteOnEvent c n x) :=
  State.setVoice_voiceEffects (.started c.num s.sampleRate n x)

theorem State.noteOffEvent_voiceEffects (s : State) (n : BitVec 8) :
    s.VoiceEffects (s.noteOffEvent n) := by
  unfold State.noteOffEvent
  split
  · exact State.setVoice_voiceEffects .stopped
  · exact .of_voices_eq rfl

theorem runWith_voiceEffects (c : Config) (i : Instr) (s : State) :
    s.VoiceEffects (runWith c i s) := by
  cases i with
  | nop _ => exact State.inContext_voiceEffects (.of_voices_eq rfl) (.of_voices_eq rfl)
  | block evCount nSamp =>
    exact State.inContext_voiceEffects (s.blockCommand_voiceEffects c evCount nSamp)
      (.of_voices_eq rfl)
  | rate _ x =>
    exact State.inContext_voiceEffects (s.rateCommand_voiceEffects c x) (.of_voices_eq rfl)
  | noteOn _ note x =>
    exact State.inContext_voiceEffects (.of_voices_eq rfl) (s.noteOnEvent_voiceEffects c note x)
  | noteOff _ note =>
    exact State.inContext_voiceEffects (.of_voices_eq rfl) (s.noteOffEvent_voiceEffects note)
  | allOff _ =>
    exact State.inContext_voiceEffects (.of_voices_eq rfl)
      (.of_voices_eq_ofFn (s.mapVoices_voices Voice.stop) fun _ => .stopped)

theorem State.badHeader_voiceEffects (s : State) (w : Word) : s.VoiceEffects (s.badHeader w) :=
  State.inContext_voiceEffects (.of_voices_eq rfl) (.of_voices_eq rfl)

theorem State.sampleStep_voiceEffects (s : State) (c : Config) : s.VoiceEffects (s.sampleStep c) :=
  .of_voices_eq_ofFn (congrArg State.voices (s.sampleStep_eq c)) fun _ => .advanced

theorem headerStep_voiceEffects (ht : headerStep exec s = .next t) : s.VoiceEffects t := by
  obtain rfl | ⟨n, -, ⟨i, rfl⟩ | ⟨w, rfl⟩⟩ := headerStep_next_cases ht
  · exact .of_voices_eq rfl
  · exact runWith_voiceEffects _ i (s.withCmdQ (s.cmdQ.drop n))
  · exact (s.withCmdQ (s.cmdQ.drop n)).badHeader_voiceEffects w

/-- Every step but a reset has on each voice one of the effects. -/
theorem step_voiceEffects (hreset : s.noResetNext) (ht : step s = .next t) : s.VoiceEffects t := by
  obtain hs | ⟨a, ha⟩ := hreset.engine_or_host
  · obtain hheader | ⟨-, rfl⟩ | rfl := step_engine_cases hs ht
    · exact headerStep_voiceEffects (s := s.turnTaken) hheader
    · exact s.turnTaken.sampleStep_voiceEffects _
    · exact .of_voices_eq rfl
  · obtain ⟨hvoices, -⟩ := hostTurnsLeaveEngineState s t a ha ht
    exact .of_voices_eq hvoices

end effects

/-! ## The level bounds (42_envelope.md R178; 10_state.md R35 (e)) -/

theorem attackRamp_le_kOne {rem total : BitVec 32} (h : 1 ≤ rem.toNat ∧ rem.toNat ≤ total.toNat) :
    (attackRamp rem total).toNat ≤ 0x3F800000 :=
  fsub_kOne_le (fdiv_count_le total.isLt h.2 (h.1.trans h.2))

theorem releaseRamp_le_start {start : F32} {rem total : BitVec 32} (hstart : start.toNat ≤ 0x3F800000)
    (h : 1 ≤ rem.toNat ∧ rem.toNat ≤ total.toNat) :
    (releaseRamp start rem total).toNat ≤ start.toNat :=
  fmul_le_left (.of_le hstart (by decide)) (fdiv_count_le total.isLt h.2 (h.1.trans h.2))

/-- A positive key is the pattern itself: the sign bit is clear. -/
theorem orderKey_eq_toNat_of_pos {x : F32} (h : 0 < orderKey x) : orderKey x = x.toNat := by
  cases hs : signBit x with
  | true => simp only [orderKey, hs, if_true] at h; omega
  | false =>
    have hm := pack_toNat (neg := false) (magnitude_lt x)
    rw [← hs, pack_fields, hs] at hm
    simp [orderKey, hs, hm]

theorem clampVelocity_le_kOne (x : Word) : (clampVelocity x).toNat ≤ 0x3F800000 := by
  unfold clampVelocity
  split
  · decide
  next hpos =>
    split
    · decide
    next hone =>
      have hzero : isNaN posZero = false ∧ orderKey posZero = 0 := by decide
      have hkOne : isNaN kOne = false ∧ orderKey kOne = 0x3F800000 := by decide
      simp only [Bool.or_eq_true, not_or, Bool.not_eq_true] at hpos hone
      obtain ⟨hnan, hpos⟩ := hpos
      simp only [fge, fle, hnan, hzero, hkOne, Bool.not_false, Bool.and_self, Bool.true_and,
        decide_eq_false_iff_not, not_le] at hpos hone
      have hkey := orderKey_eq_toNat_of_pos hpos
      omega

theorem scaledVelocity_le (x : Word) : (scaledVelocity x).toNat ≤ 0x3F4CCCCD :=
  fmul_le_right (y := k0_8) (clampVelocity_le_kOne x) (by unfold NonNeg; decide)

/-- The bounds are about the levels and the velocity alone. -/
theorem Voice.LevelInv.congr {v u : Voice} (h : v.LevelInv) (hattack : u.attackLevel = v.attackLevel)
    (hrelease : u.releaseLevel = v.releaseLevel) (hstart : u.releaseStart = v.releaseStart)
    (hvelocity : u.velocity = v.velocity) : u.LevelInv where
  attackLevel := hattack ▸ h.attackLevel
  releaseLevel := hrelease ▸ h.releaseLevel
  releaseStart := hstart ▸ h.releaseStart
  velocity := hvelocity ▸ h.velocity

section levels
variable {v : Voice}

theorem Voice.LevelInv.push (h : v.LevelInv) (N : Num) (sr attackTime releaseTime : F32) (hc : Nat) :
    (v.push N sr attackTime releaseTime hc).LevelInv := by
  unfold Voice.push
  dsimp only
  split <;> exact h.congr rfl rfl rfl rfl

theorem Voice.start_levelInv (v : Voice) (N : Num) (sr : F32) (note : BitVec 8) (x : Word) :
    (v.start N sr note (scaledVelocity x)).LevelInv :=
  ⟨Nat.zero_le _, Nat.zero_le _, Nat.zero_le _, scaledVelocity_le x⟩

theorem Voice.LevelInv.stopLevel (h : v.LevelInv) : v.stopLevel.toNat ≤ 0x3F800000 := by
  unfold Voice.stopLevel
  split
  · exact h.attackLevel
  · decide

theorem Voice.LevelInv.stop (h : v.LevelInv) : v.stop.LevelInv := by
  by_cases hstop : v.active = true ∧ v.stage ≠ .release
  · rw [Voice.stop_of_sounding hstop]
    exact { h with releaseLevel := h.stopLevel, releaseStart := h.stopLevel }
  · rwa [Voice.stop_of_not_sounding hstop]

/-- The counters' invariant keeps the quotients of the ramps in [+0.0, 1.0] (42_envelope.md R175). -/
theorem Voice.LevelInv.envAdvance (h : v.LevelInv) (hinv : v.Inv) : v.envAdvance.LevelInv := by
  cases hs : v.stage with
  | idle => rwa [Voice.envAdvance_of_idle hs]
  | sustain => rwa [Voice.envAdvance_of_sustain hs]
  | attack =>
    by_cases hlast : v.attackRem = 1
    · rw [Voice.envAdvance_of_attack_last hs hlast]
      exact { h with attackLevel := le_rfl }
    · rw [Voice.envAdvance_of_attack hs hlast]
      exact { h with attackLevel := attackRamp_le_kOne (hinv.attackRem hs) }
  | release =>
    rw [Voice.envAdvance_of_release hs]
    have hramp := releaseRamp_le_start h.releaseStart (hinv.releaseRem hs)
    exact { h with releaseLevel := hramp.trans h.releaseStart }

theorem Voice.LevelInv.advance (h : v.LevelInv) (hinv : v.Inv) : v.advance.LevelInv :=
  (h.envAdvance hinv).congr (by simp [Voice.advance]) (by simp [Voice.advance])
    (by simp [Voice.advance]) (by simp [Voice.advance])

theorem Voice.LevelInv.effect {u : Voice} (h : v.LevelInv) (hinv : v.Inv) (heffect : v.Effect u) :
    u.LevelInv := by
  cases heffect with
  | unchanged => exact h
  | configured N sr => exact h.congr rfl rfl rfl rfl
  | pushed N sr attackTime releaseTime hc => exact h.push N sr attackTime releaseTime hc
  | started N sr note x => exact v.start_levelInv N sr note x
  | stopped => exact h.stop
  | advanced => exact h.advance hinv

end levels

/-- Settles O27: each effect a step can have on a voice keeps the bounds, and so does a reset. -/
theorem stepKeepsLevelBounds : Obligations.StepKeepsLevelBounds := by
  intro s t hinv hlevel ht i
  by_cases hreset : s.schedule.head? = some .reset
  · cases (step_reset hreset).symm.trans ht
    rw [State.voice_congr (State.resetWith Config.machine)
      (t := s.turnTaken.afterReset Config.machine) rfl, State.resetWith_voice]
    exact Voice.reset_levelInv _
  · exact (hlevel i).effect (hinv i) (step_voiceEffects hreset ht i)

/-! ## The stages (42_envelope.md R170) -/

section stages
variable {v : Voice}

@[simp] theorem Voice.push_stage (N : Num) (sr attackTime releaseTime : F32) (hc : Nat) (v : Voice) :
    (v.push N sr attackTime releaseTime hc).stage = v.stage := by
  unfold Voice.push
  dsimp only
  split <;> rfl

/-- A voice that a stop moves is active, so by its invariant in ATTACK or SUSTAIN. -/
theorem Voice.Inv.stop_stageMove (h : v.Inv) : StageMove v.stage v.stop.stage := by
  by_cases hstop : v.active = true ∧ v.stage ≠ .release
  · rw [Voice.stop_of_sounding hstop]
    obtain ⟨hactive, hrelease⟩ := hstop
    cases hs : v.stage with
    | idle => exact absurd hs (h.activeStage.1 hactive)
    | release => exact absurd hs hrelease
    | attack | sustain => simp [StageMove]
  · rw [Voice.stop_of_not_sounding hstop]
    exact .inl rfl

theorem Voice.advance_stageMove (v : Voice) : StageMove v.stage v.advance.stage := by
  rw [Voice.advance, Voice.bankAdvance_stage]
  cases hs : v.stage with
  | idle => rw [Voice.envAdvance_of_idle hs]; exact .inl hs.symm
  | sustain => rw [Voice.envAdvance_of_sustain hs]; exact .inl hs.symm
  | attack =>
    by_cases hlast : v.attackRem = 1
    · rw [Voice.envAdvance_of_attack_last hs hlast]
      simp [StageMove]
    · rw [Voice.envAdvance_of_attack hs hlast]
      exact .inl hs.symm
  | release =>
    rw [Voice.envAdvance_of_release hs]
    dsimp only
    split <;> simp [StageMove]

theorem Voice.Effect.stageMove {u : Voice} (heffect : v.Effect u) (h : v.Inv) :
    StageMove v.stage u.stage := by
  cases heffect with
  | unchanged | configured => exact .inl rfl
  | pushed => exact .inl (Voice.push_stage ..).symm
  | started => exact .inr (.inl rfl)
  | stopped => exact h.stop_stageMove
  | advanced => exact v.advance_stageMove

end stages

/-- Settles O29: each effect a step can have on a voice moves its stage only as listed. -/
theorem stagesMoveOnlyAsListed : Obligations.StagesMoveOnlyAsListed := fun _ _ hinv hreset ht i =>
  (step_voiceEffects hreset ht i).stageMove (hinv i)

end Sys2Proof.Machine
end

section
/-! PROOFS. The envelope along the advances after a start and after a stop (42_envelope.md R177, R178):
the gain at each of them, as a function of the samples left, and its monotonicity. -/

namespace Sys2Proof.Machine

/-! ## Differences, products and quotients are monotone -/

section monotone
variable {x y z : F32}

/-- A subtraction from 1.0 reverses the order of [+0.0, 1.0]. -/
theorem fsub_kOne_antitone (hxy : x.toNat ≤ y.toNat) (hy : y.toNat ≤ 0x3F800000) :
    (fsub kOne y).toNat ≤ (fsub kOne x).toNat := by
  have hone : NonNeg kOne := by unfold NonNeg; decide
  have hy' : NonNeg y := .of_le hy (by decide)
  have hx' : NonNeg x := .of_le (hxy.trans hy) (by decide)
  rw [fsub_nonNeg hone hy' hy, fsub_nonNeg hone hx' (hxy.trans hy)]
  exact roundUnits_mono one_pos one_pos
    (Nat.mul_le_mul_right 1 (Nat.sub_le_sub_left (hx'.units_mono hy' hxy) _))

theorem fmul_mono_right (hz : NonNeg z) (hy : NonNeg y) (hxy : x.toNat ≤ y.toNat) :
    (fmul z x).toNat ≤ (fmul z y).toNat := by
  have hx : NonNeg x := .of_le hxy hy
  rw [fmul_nonNeg hz hx, fmul_nonNeg hz hy]
  exact roundUnits_mono (by decide) (by decide)
    (Nat.mul_le_mul_right _ (Nat.mul_le_mul_left _ (hx.units_mono hy hxy)))

theorem fdiv_mono_left (hz : NonNeg z) (hz0 : z.toNat ≠ 0) (hy : NonNeg y) (hxy : x.toNat ≤ y.toNat) :
    (fdiv x z).toNat ≤ (fdiv y z).toNat := by
  have hx : NonNeg x := .of_le hxy hy
  have hunits : 0 < units z := by
    rwa [Nat.pos_iff_ne_zero, ne_eq, units_eq_zero_iff hz.finite, hz.magnitude]
  rw [fdiv_nonNeg hx hz hz0, fdiv_nonNeg hy hz hz0]
  exact roundUnits_mono hunits hunits
    (Nat.mul_le_mul_right _ (Nat.mul_le_mul_right _ (hx.units_mono hy hxy)))

end monotone

theorem fdiv_count_mono {n m total : Nat} (hnm : n ≤ m) (hm : m ≤ total) (htotal : total < 2 ^ 32)
    (hpos : 1 ≤ total) : (fdiv (i2f n) (i2f total)).toNat ≤ (fdiv (i2f m) (i2f total)).toNat := by
  have hm' := hm.trans_lt htotal
  have hone := i2f_pos htotal hpos
  exact fdiv_mono_left (i2f_count total htotal).1 (by omega) (i2f_count m hm').1
    (i2f_mono (hnm.trans_lt hm') hm' hnm)

/-! ## The gain as a function of the samples left -/

/-- The gain in the attack that an advance leaves when `rem` of `total` samples were left before it
(42_envelope.md R175). -/
def attackGain (total rem : Nat) : F32 := fsub kOne (fdiv (i2f rem) (i2f total))

/-- The gain in a release from level `start` that an advance leaves when `rem` of `total` samples were
left before it (42_envelope.md R175). -/
def releaseGain (start : F32) (total rem : Nat) : F32 := fmul start (fdiv (i2f rem) (i2f total))

section gains
variable {total rem rem' : Nat}

theorem attackGain_le_kOne (hrem : rem ≤ total) (htotal : total < 2 ^ 32) (hpos : 1 ≤ total) :
    (attackGain total rem).toNat ≤ kOne.toNat :=
  fsub_kOne_le (fdiv_count_le htotal hrem hpos)

/-- The fewer samples are left, the higher the attack's gain. -/
theorem attackGain_antitone (h : rem ≤ rem') (hrem : rem' ≤ total) (htotal : total < 2 ^ 32)
    (hpos : 1 ≤ total) : (attackGain total rem').toNat ≤ (attackGain total rem).toNat :=
  fsub_kOne_antitone (fdiv_count_mono h hrem htotal hpos) (fdiv_count_le htotal hrem hpos)

variable {start : F32}

theorem releaseGain_le_start (hstart : start.toNat ≤ 0x3F800000) (hrem : rem ≤ total)
    (htotal : total < 2 ^ 32) (hpos : 1 ≤ total) : (releaseGain start total rem).toNat ≤ start.toNat :=
  fmul_le_left (.of_le hstart (by decide)) (fdiv_count_le htotal hrem hpos)

/-- The fewer samples are left, the lower the release's gain. -/
theorem releaseGain_mono (hstart : start.toNat ≤ 0x3F800000) (h : rem ≤ rem') (hrem : rem' ≤ total)
    (htotal : total < 2 ^ 32) (hpos : 1 ≤ total) :
    (releaseGain start total rem).toNat ≤ (releaseGain start total rem').toNat :=
  fmul_mono_right (.of_le hstart (by decide))
    (.of_le (fdiv_count_le htotal hrem hpos) (by decide)) (fdiv_count_mono h hrem htotal hpos)

end gains

/-! ## Counting down -/

section countdown
variable {P : Nat → Voice → Prop} {v : Voice} {rem k : Nat}

/-- A stage with `rem` samples left has `k` fewer after `k` advances, as long as some are left. -/
theorem iterate_countdown (h : P rem v)
    (hstep : ∀ {rem v}, P rem v → 1 < rem → P (rem - 1) v.advance)
    (hk : k < rem) : P (rem - k) (Voice.advance^[k] v) := by
  induction k with
  | zero => exact h
  | succ k ih =>
    rw [Function.iterate_succ_apply']
    exact hstep (rem := rem - k) (ih (by omega)) (by omega)

/-- While samples are left the gain is the one that the last advance gave. -/
theorem iterate_countdown_envGain (h : P rem v)
    (hstep : ∀ {rem v}, P rem v → 1 < rem → P (rem - 1) v.advance) {gain : Nat → F32}
    (hgain : ∀ {rem v}, P rem v → 1 < rem → v.advance.envGain = gain rem) (hpos : 1 ≤ k)
    (hk : k < rem) : (Voice.advance^[k] v).envGain = gain (rem - k + 1) := by
  obtain ⟨n, rfl⟩ := Nat.exists_eq_add_of_le' hpos
  have hbefore := iterate_countdown h hstep (k := n) (by omega)
  rw [Function.iterate_succ_apply', hgain hbefore (by omega)]
  congr 1
  omega

/-- What the last advance of a stage leads to and no advance leaves, holds once no samples are left. -/
theorem iterate_countdown_end (h : P rem v)
    (hstep : ∀ {rem v}, P rem v → 1 < rem → P (rem - 1) v.advance) {Q : Voice → Prop}
    (hlast : ∀ {v}, P 1 v → Q v.advance) (hend : ∀ {v}, Q v → Q v.advance) (hpos : 1 ≤ rem)
    (hk : rem ≤ k) : Q (Voice.advance^[k] v) := by
  obtain ⟨n, rfl⟩ : ∃ n, k = n + ((rem - 1) + 1) := ⟨k - rem, by omega⟩
  have hone := iterate_countdown h hstep (k := rem - 1) (by omega)
  rw [Nat.sub_sub_self hpos] at hone
  rw [Function.iterate_add_apply, Function.iterate_succ_apply']
  exact Function.Iterate.rec Q (hlast hone) (fun _ => hend) n

end countdown

/-! ## Advances in the attack and in the release -/

@[simp] theorem Voice.bankAdvance_envGain (v : Voice) : v.bankAdvance.envGain = v.envGain := by
  simp [Voice.envGain]

/-- A voice in ATTACK with `rem` of `total` samples left. -/
structure Voice.Attacking (total rem : Nat) (v : Voice) : Prop where
  stage : v.stage = .attack
  total : v.attackTotal.toNat = total
  rem : v.attackRem.toNat = rem

/-- A voice in RELEASE from level `start` with `rem` of `total` samples left. -/
structure Voice.Releasing (start : F32) (total rem : Nat) (v : Voice) : Prop where
  stage : v.stage = .release
  active : v.active = true
  start : v.releaseStart = start
  total : v.releaseTotal.toNat = total
  rem : v.releaseRem.toNat = rem

/-- A voice that sounds no more. -/
structure Voice.Silent (v : Voice) : Prop where
  stage : v.stage = .idle
  active : v.active = false

section advances
variable {total rem : Nat} {start : F32} {v : Voice}

theorem counter_ne_one {count : BitVec 32} (h : 1 < count.toNat) : count ≠ 1 := by
  bv_omega

theorem Voice.Attacking.advance (h : v.Attacking total rem) (hrem : 1 < rem) :
    v.advance.Attacking total (rem - 1) := by
  obtain ⟨hstage, rfl, rfl⟩ := h
  rw [Voice.advance, Voice.envAdvance_of_attack hstage (counter_ne_one hrem)]
  exact ⟨by simpa using hstage, by simp, by rw [Voice.bankAdvance_attackRem]; dsimp only; bv_omega⟩

theorem Voice.Attacking.advance_envGain (h : v.Attacking total rem) (hrem : 1 < rem) :
    v.advance.envGain = attackGain total rem := by
  obtain ⟨hstage, rfl, rfl⟩ := h
  rw [Voice.advance, Voice.bankAdvance_envGain,
    Voice.envAdvance_of_attack hstage (counter_ne_one hrem)]
  simp [Voice.envGain, hstage, attackRamp, attackGain]

theorem Voice.Attacking.advance_last (h : v.Attacking total 1) : v.advance.stage = .sustain := by
  have hlast : v.attackRem = 1 := by have := h.rem; bv_omega
  rw [Voice.advance, Voice.bankAdvance_stage, Voice.envAdvance_of_attack_last h.stage hlast]

theorem Voice.advance_stage_of_sustain (h : v.stage = .sustain) : v.advance.stage = .sustain := by
  rw [Voice.advance, Voice.bankAdvance_stage, Voice.envAdvance_of_sustain h, h]

theorem Voice.envGain_of_sustain (h : v.stage = .sustain) : v.envGain = kOne := by
  simp [Voice.envGain, h]

theorem Voice.Releasing.advance (h : v.Releasing start total rem) (hrem : 1 < rem) :
    v.advance.Releasing start total (rem - 1) := by
  obtain ⟨hstage, hactive, rfl, rfl, rfl⟩ := h
  rw [Voice.advance, Voice.envAdvance_of_release hstage]
  simp only [if_neg (counter_ne_one hrem)]
  exact ⟨by simp, by simpa using hactive, by simp, by simp,
    by rw [Voice.bankAdvance_releaseRem]; dsimp only; bv_omega⟩

theorem Voice.Releasing.advance_envGain (h : v.Releasing start total rem) (hrem : 1 < rem) :
    v.advance.envGain = releaseGain start total rem := by
  obtain ⟨hstage, -, rfl, rfl, rfl⟩ := h
  rw [Voice.advance, Voice.bankAdvance_envGain, Voice.envAdvance_of_release hstage]
  simp only [if_neg (counter_ne_one hrem), Voice.envGain, releaseRamp, releaseGain]

theorem Voice.Releasing.advance_last (h : v.Releasing start total 1) : v.advance.Silent := by
  have hlast : v.releaseRem = 1 := by have := h.rem; bv_omega
  rw [Voice.advance, Voice.envAdvance_of_release h.stage]
  simp only [if_pos hlast]
  exact ⟨by simp, by simp⟩

theorem Voice.Silent.advance (h : v.Silent) : v.advance.Silent := by
  rw [Voice.advance, Voice.envAdvance_of_idle h.stage]
  exact ⟨by simpa using h.stage, by simpa using h.active⟩

end advances

/-! ## After a start and after a stop -/

theorem Voice.envStart_attacking (sr : F32) (v : Voice) : (v.envStart sr).Attacking
    (samplesOf sr v.attackTime).toNat (samplesOf sr v.attackTime).toNat :=
  ⟨rfl, rfl, rfl⟩

section stop
variable {v : Voice} (hactive : v.active = true) (hstage : v.stage ≠ .release)
include hactive hstage

/-- A stop of a sounding voice leaves it all samples of its release (42_envelope.md R174). -/
theorem Voice.stop_releasing :
    v.stop.Releasing v.stopLevel v.releaseTotal.toNat v.releaseTotal.toNat := by
  rw [Voice.stop_of_sounding ⟨hactive, hstage⟩]
  exact ⟨rfl, hactive, rfl, rfl, rfl⟩

theorem Voice.stop_envGain : v.stop.envGain = v.stopLevel := by
  rw [Voice.stop_of_sounding ⟨hactive, hstage⟩]
  rfl

end stop

theorem Voice.Inv.one_le_releaseTotal {v : Voice} (h : v.Inv) (hactive : v.active = true) :
    1 ≤ v.releaseTotal.toNat :=
  (h.totals.resolve_left fun hidle => h.activeStage.1 hactive hidle.1).2

/-- Settles O30: the counters count down from their totals, and the gain follows from what is left. -/
theorem envelopeTimelines : Obligations.EnvelopeTimelines := by
  refine ⟨fun sr v k => ?_, fun v k hinv hactive hstage => ?_⟩
  · have hattack := v.envStart_attacking sr
    refine ⟨fun h => ?_, fun hpos hk => ⟨?_, ?_⟩, fun hk => ?_⟩
    · subst h; rfl
    · exact (iterate_countdown hattack Voice.Attacking.advance hk).stage
    · exact iterate_countdown_envGain hattack Voice.Attacking.advance
        Voice.Attacking.advance_envGain hpos hk
    · have hsustain := iterate_countdown_end (Q := (·.stage = .sustain)) hattack Voice.Attacking.advance
        Voice.Attacking.advance_last Voice.advance_stage_of_sustain
        (one_le_samplesOf sr v.attackTime) hk
      exact ⟨hsustain, Voice.envGain_of_sustain hsustain⟩
  · have hrelease := Voice.stop_releasing hactive hstage
    refine ⟨fun hk => ?_, fun h => ?_, fun hpos hk => ?_, fun hk => ?_⟩
    · have hleft := iterate_countdown hrelease Voice.Releasing.advance hk
      exact ⟨hleft.stage, hleft.active⟩
    · subst h; exact Voice.stop_envGain hactive hstage
    · exact iterate_countdown_envGain hrelease Voice.Releasing.advance
        Voice.Releasing.advance_envGain hpos hk
    · have hsilent := iterate_countdown_end hrelease Voice.Releasing.advance
        Voice.Releasing.advance_last Voice.Silent.advance (hinv.one_le_releaseTotal hactive) hk
      exact ⟨hsilent.stage, hsilent.active⟩

/-- The gain after a start never falls, by the timeline at one advance and at the next. -/
theorem Voice.iterate_envStart_envGain_mono (sr : F32) (v : Voice) (k : Nat) :
    (Voice.advance^[k] (v.envStart sr)).envGain.toNat ≤
      (Voice.advance^[k + 1] (v.envStart sr)).envGain.toNat := by
  obtain ⟨hzero, hramp, hsustain⟩ := envelopeTimelines.1 sr v k
  obtain ⟨-, hramp', hsustain'⟩ := envelopeTimelines.1 sr v (k + 1)
  have htotal := (samplesOf sr v.attackTime).isLt
  rcases Nat.eq_zero_or_pos k with hk0 | hpos
  · rw [hzero hk0]
    exact Nat.zero_le _
  rcases Nat.lt_or_ge k (samplesOf sr v.attackTime).toNat with hk | hk
  · rw [(hramp hpos hk).2]
    rcases Nat.lt_or_ge (k + 1) (samplesOf sr v.attackTime).toNat with hk' | hk'
    · rw [(hramp' (by omega) hk').2]
      exact attackGain_antitone (by omega) (by omega) htotal (by omega)
    · rw [(hsustain' hk').2]
      exact attackGain_le_kOne (by omega) htotal (by omega)
  · rw [(hsustain hk).2, (hsustain' (Nat.le_succ_of_le hk)).2]

section release
variable {v : Voice} {k : Nat} (hinv : v.Inv) (hlevel : v.LevelInv) (hactive : v.active = true)
  (hstage : v.stage ≠ .release)
include hinv hlevel hactive hstage

theorem Voice.iterate_stop_envGain_le_stopLevel (hk : k < v.releaseTotal.toNat) :
    (Voice.advance^[k] v.stop).envGain.toNat ≤ v.stopLevel.toNat := by
  obtain ⟨-, hzero, hramp, -⟩ := envelopeTimelines.2 v k hinv hactive hstage
  rcases Nat.eq_zero_or_pos k with hk0 | hpos
  · exact (congrArg BitVec.toNat (hzero hk0)).le
  · rw [hramp hpos hk]
    exact releaseGain_le_start hlevel.stopLevel (by omega) v.releaseTotal.isLt (by omega)

theorem Voice.iterate_stop_envGain_antitone (hk : k + 1 < v.releaseTotal.toNat) :
    (Voice.advance^[k + 1] v.stop).envGain.toNat ≤ (Voice.advance^[k] v.stop).envGain.toNat := by
  obtain ⟨-, hzero, hramp, -⟩ := envelopeTimelines.2 v k hinv hactive hstage
  obtain ⟨-, -, hramp', -⟩ := envelopeTimelines.2 v (k + 1) hinv hactive hstage
  have htotal := v.releaseTotal.isLt
  rw [hramp' (by omega) hk]
  rcases Nat.eq_zero_or_pos k with hk0 | hpos
  · rw [hzero hk0]
    exact releaseGain_le_start hlevel.stopLevel (by omega) htotal (by omega)
  · rw [hramp hpos (by omega)]
    exact releaseGain_mono hlevel.stopLevel (by omega) (by omega) htotal (by omega)

end release

/-- Settles O31: by the timelines, whose gains are monotone in the samples left. -/
theorem envelopeGainsMonotone : Obligations.EnvelopeGainsMonotone := by
  refine ⟨Voice.iterate_envStart_envGain_mono, fun v k hinv hlevel hactive hstage hk =>
    ⟨Voice.iterate_stop_envGain_antitone hinv hlevel hactive hstage hk, ?_⟩⟩
  rw [(Voice.stop_releasing hactive hstage).start]
  exact Voice.iterate_stop_envGain_le_stopLevel hinv hlevel hactive hstage (Nat.lt_of_succ_lt hk)

end Sys2Proof.Machine
end

section
/-! PROOFS. The voice a NOTEON takes when no voice is free and none is releasing (43_voice_pool.md R194,
R197): the search for the least amplitude, and its amplitudes in SUSTAIN. -/

namespace Sys2Proof.Machine

/-! ## The search for the quietest voice (43_voice_pool.md R194) -/

/-- A scan over ascending indices that moves to whatever beats its candidate ends at `i`, when nothing
beats `i` and `i` beats every index below: the candidate stays below `i` until `i` comes, and then stays. -/
theorem foldl_replace_eq {n : Nat} {beats : Fin n → Fin n → Bool} {i : Fin n}
    (hbest : ∀ j, beats j i = false) (hfirst : ∀ j < i, beats i j = true) {l : List (Fin n)} {b : Fin n}
    (hl : l.Pairwise (· < ·)) (hb : b = i ∨ b < i ∧ i ∈ l) :
    l.foldl (fun best j => if beats j best then j else best) b = i := by
  induction l generalizing b with
  | nil => simpa using hb
  | cons x xs ih =>
    obtain ⟨hx, hxs⟩ := List.pairwise_cons.1 hl
    rw [List.foldl_cons]
    refine ih hxs ?_
    obtain rfl | ⟨hlt, hi⟩ := hb
    · exact .inl (by simp [hbest])
    · obtain rfl | hi := List.mem_cons.1 hi
      · exact .inl (by simp [hfirst b hlt])
      · exact .inr ⟨by split; exacts [hx i hi, hlt], hi⟩

/-- The scan finds the first voice of least amplitude. -/
theorem State.quietest_eq {s : State} {i : Fin 16}
    (hleast : ∀ j, flt (s.voice j).amplitude (s.voice i).amplitude = false)
    (hfirst : ∀ j < i, flt (s.voice i).amplitude (s.voice j).amplitude = true) : s.quietest = i :=
  foldl_replace_eq (beats := fun j b => flt (s.voice j).amplitude (s.voice b).amplitude) hleast hfirst
    (List.pairwise_lt_finRange 16)
    ((Fin.zero_le i).eq_or_lt.imp_right fun h => ⟨h, List.mem_finRange i⟩)

theorem State.freeVoice_eq_none {s : State} (h : ∀ j, (s.voice j).active = true) :
    s.freeVoice = none := by
  simp [State.freeVoice, h]

theorem State.nearestReleased_eq_none {s : State} (h : ∀ j, (s.voice j).stage ≠ .release) :
    s.nearestReleased = none :=
  List.foldl_fixed' (fun j => if_neg (h j)) _

/-- With no voice free and none releasing, the allocation is of tier 2 (43_voice_pool.md R194). -/
theorem State.findFree_eq_quietest {s : State} (hactive : ∀ j, (s.voice j).active = true)
    (hstage : ∀ j, (s.voice j).stage ≠ .release) : s.findFree = (s.quietest, 2) := by
  rw [State.findFree, State.freeVoice_eq_none hactive, State.nearestReleased_eq_none hstage]

/-! ## Amplitudes in SUSTAIN (43_voice_pool.md R197) -/

/-- Patterns order the non-negative values strictly. -/
theorem flt_nonNeg {x y : F32} (hx : NonNeg x) (hy : NonNeg y) :
    flt x y = decide (x.toNat < y.toNat) := by
  simp [flt, orderKey, hx.notNaN, hy.notNaN, hx.sign, hy.sign, hx.magnitude, hy.magnitude]

theorem Voice.LevelInv.velocity_nonNeg {v : Voice} (h : v.LevelInv) : NonNeg v.velocity :=
  .of_le h.velocity (by decide)

/-- The gain of a voice in SUSTAIN is 1.0, so its amplitude is its velocity. -/
theorem Voice.LevelInv.amplitude_of_sustain {v : Voice} (h : v.LevelInv) (hstage : v.stage = .sustain) :
    v.amplitude = v.velocity := by
  rw [Voice.amplitude, Voice.envGain_of_sustain hstage, kOne_fmul h.velocity_nonNeg]

theorem State.LevelInv.flt_amplitude_of_sustain {s : State} (h : s.LevelInv)
    (hstage : ∀ j, (s.voice j).stage = .sustain) (j k : Fin 16) :
    flt (s.voice j).amplitude (s.voice k).amplitude =
      decide ((s.voice j).velocity.toNat < (s.voice k).velocity.toNat) := by
  rw [(h j).amplitude_of_sustain (hstage j), (h k).amplitude_of_sustain (hstage k),
    flt_nonNeg (h j).velocity_nonNeg (h k).velocity_nonNeg]

/-- With every voice active and in SUSTAIN, the first voice of smallest velocity is the one found. -/
theorem State.LevelInv.findFree_of_sustain {s : State} {i : Fin 16} (h : s.LevelInv)
    (hactive : ∀ j, (s.voice j).active = true) (hstage : ∀ j, (s.voice j).stage = .sustain)
    (hleast : ∀ j, (s.voice i).velocity.toNat ≤ (s.voice j).velocity.toNat)
    (hfirst : ∀ j < i, (s.voice i).velocity.toNat < (s.voice j).velocity.toNat) :
    s.findFree = (i, 2) := by
  have hquietest : s.quietest = i := State.quietest_eq
    (fun j => by rw [h.flt_amplitude_of_sustain hstage]; exact decide_eq_false (hleast j).not_gt)
    (fun j hj => by rw [h.flt_amplitude_of_sustain hstage]; exact decide_eq_true (hfirst j hj))
  rw [State.findFree_eq_quietest hactive fun j => by simp [hstage j], hquietest]

/-! ## The note taken in (43_voice_pool.md R190; 45_commands.md R245) -/

@[simp] theorem Voice.start_note (N : Num) (sr : F32) (n : BitVec 8) (vel : F32) (v : Voice) :
    (v.start N sr n vel).note = n := rfl
@[simp] theorem Voice.start_stage (N : Num) (sr : F32) (n : BitVec 8) (vel : F32) (v : Voice) :
    (v.start N sr n vel).stage = .attack := rfl

@[simp] theorem State.endRecord_voice (s : State) (i : Fin 16) : s.endRecord.voice i = s.voice i := rfl

theorem exec_noteOn_of_events (ign : BitVec 20) (note : BitVec 8) (x : Word) {s : State}
    (hmode : s.seqMode = .events) :
    exec (.noteOn ign note x) s = .next (s.noteOnEvent Config.machine note x).endRecord :=
  congrArg Host.Outcome.next (State.inContext_events s _ _ hmode)

@[simp] theorem State.noteOnEvent_lastAlloc (c : Config) (note : BitVec 8) (x : Word) (s : State) :
    (s.noteOnEvent c note x).lastAlloc = ⟨s.findFree.1, s.findFree.2, true⟩ := rfl

/-- A NOTEON starts the voice found on the note. -/
theorem State.noteOnEvent_voice_found (c : Config) (note : BitVec 8) (x : Word) (s : State) :
    (s.noteOnEvent c note x).voice s.findFree.1 =
      (s.voice s.findFree.1).start c.num s.sampleRate note (scaledVelocity x) :=
  s.setVoice_voice_same s.findFree.1 _

/-- A NOTEON leaves every voice but the one found. -/
theorem State.noteOnEvent_voice_ne (c : Config) (note : BitVec 8) (x : Word) {s : State} {j : Fin 16}
    (h : j ≠ s.findFree.1) : (s.noteOnEvent c note x).voice j = s.voice j :=
  s.setVoice_voice_ne _ h

/-- Settles O33: in SUSTAIN the gain is 1.0, so amplitudes are velocities, and with no voice free and none
releasing the search takes the first of the smallest. -/
theorem seventeenthNoteTakesSmallestVelocity : Obligations.SeventeenthNoteTakesSmallestVelocity := by
  intro ign note x s i hmode hlevel hall hleast hfirst
  have hstage j := (hall j).2
  have hfound := hlevel.findFree_of_sustain (fun j => (hall j).1) hstage hleast hfirst
  have hi : i = s.findFree.1 := by rw [hfound]
  refine ⟨fun j => (hlevel j).amplitude_of_sustain (hstage j), _, exec_noteOn_of_events ign note x hmode,
    ?_, ?_, ?_, fun j hj => ?_⟩
  · rw [State.endRecord_lastAlloc, State.noteOnEvent_lastAlloc, hfound]
  · rw [State.endRecord_voice, hi, State.noteOnEvent_voice_found, Voice.start_note]
  · rw [State.endRecord_voice, hi, State.noteOnEvent_voice_found, Voice.start_stage]
  · rw [State.endRecord_voice, State.noteOnEvent_voice_ne _ _ _ (hi ▸ hj)]

end Sys2Proof.Machine
end

section
/-! PROOFS. The soft clip (44_block_mixer.md R218, R222): which branch it takes, that the negative branch
mirrors the positive one, and that a bounded tanh keeps it within [-1.0, 1.0]. -/

namespace Sys2Proof.Machine

/-! ## Comparisons and negation -/

theorem isNaN_fneg (x : F32) : isNaN (fneg x) = isNaN x := by
  rw [Bool.eq_iff_iff, isNaN_iff, isNaN_iff, magnitude_fneg]

theorem orderKey_fneg (x : F32) : orderKey (fneg x) = -orderKey x := by
  rw [orderKey, orderKey, signBit_fneg, magnitude_fneg]
  cases signBit x <;> simp

theorem flt_fneg_right (x y : F32) : flt x (fneg y) = fgt (fneg x) y := by
  simp only [fgt, flt, isNaN_fneg, orderKey_fneg, Bool.and_comm (!isNaN x), lt_neg]

theorem toNat_eq_magnitude {x : F32} (h : signBit x = false) : x.toNat = magnitude x := by
  rw [toNat_eq_fields, h, magnitude_eq_fields, if_neg Bool.false_ne_true, Nat.zero_add]

/-- Above a non-negative value are the positive values of larger magnitude, +inf included. -/
theorem fgt_nonNeg_iff {x k : F32} (hk : NonNeg k) :
    fgt x k = true ↔ isNaN x = false ∧ signBit x = false ∧ k.toNat < magnitude x := by
  cases hs : signBit x <;> simp [fgt, flt, orderKey, hs, hk.notNaN, hk.sign, hk.magnitude]

theorem isNaN_eq_false_iff (x : F32) : isNaN x = false ↔ magnitude x ≤ 0x7F800000 := by
  rw [Bool.eq_false_iff, ne_eq, isNaN_iff, not_lt]

theorem magnitude_fabs (x : F32) : magnitude (fabs x) = magnitude x := magnitude_pack (magnitude_lt x)

theorem signBit_fabs (x : F32) : signBit (fabs x) = false := signBit_pack (magnitude_lt x)

/-- A bound on the absolute value bounds the magnitude pattern, which that of a NaN exceeds. -/
theorem fle_fabs_iff {x k : F32} (hk : NonNeg k) :
    fle (fabs x) k = true ↔ magnitude x ≤ k.toNat := by
  have hinf : k.toNat < 0x7F800000 := hk
  simp only [fle, orderKey, Bool.and_eq_true, Bool.not_eq_true', decide_eq_true_eq, isNaN_eq_false_iff,
    magnitude_fabs, signBit_fabs, hk.sign, hk.magnitude, Bool.false_eq_true, if_false]
  omega

/-! ## The branches of the soft clip (44_block_mixer.md R218) -/

theorem k0_7_nonNeg : NonNeg k0_7 := by unfold NonNeg; decide

theorem k0_3_nonNeg : NonNeg k0_3 := by unfold NonNeg; decide

/-- A number is above the knee, or its negation is, or its magnitude is at most the knee's. -/
theorem knee_cases {x : F32} (h : isNaN x = false) :
    fgt x k0_7 = true ∨ fgt (fneg x) k0_7 = true ∨ magnitude x ≤ k0_7.toNat := by
  simp only [fgt_nonNeg_iff k0_7_nonNeg, isNaN_fneg, signBit_fneg, magnitude_fneg, h]
  cases signBit x <;> simp <;> omega

section branches
variable (N : Num) {x : F32}

theorem softClip_of_above (h : fgt x k0_7 = true) : softClip N x = clipAbove N x :=
  if_pos h

theorem softClip_of_below (h : fgt (fneg x) k0_7 = true) :
    softClip N x = fneg (clipAbove N (fneg x)) := by
  have hnot : ¬ fgt x k0_7 = true := by
    rw [fgt_nonNeg_iff k0_7_nonNeg, signBit_fneg] at h
    rw [fgt_nonNeg_iff k0_7_nonNeg]
    exact fun habove => by simp [habove.2.1] at h
  rw [softClip, if_neg hnot, flt_fneg_right, if_pos h]

theorem softClip_of_within (h : magnitude x ≤ k0_7.toNat) : softClip N x = x := by
  have hnot {y : F32} (hy : magnitude y = magnitude x) : ¬ fgt y k0_7 = true := fun habove => by
    have := ((fgt_nonNeg_iff k0_7_nonNeg).1 habove).2.2
    omega
  rw [softClip, if_neg (hnot rfl), flt_fneg_right, if_neg (hnot (magnitude_fneg x))]

end branches

/-- Settles O36: neither the value nor its negation is above the knee. -/
theorem softClipIdentityBelowKnee : Obligations.SoftClipIdentityBelowKnee := fun N _ h =>
  softClip_of_within N ((fle_fabs_iff k0_7_nonNeg).1 h)

/-- Settles O37: negation exchanges the outer branches, and each is the other's mirror. -/
theorem softClipIsOdd : Obligations.SoftClipIsOdd := by
  intro N x hnan
  rcases knee_cases hnan with habove | hbelow | hwithin
  · rw [softClip_of_above N habove, softClip_of_below N (by rwa [fneg_fneg]), fneg_fneg]
  · rw [softClip_of_above N hbelow, softClip_of_below N hbelow, fneg_fneg]
  · rw [softClip_of_within N hwithin, softClip_of_within N (by rwa [magnitude_fneg])]

/-! ## The bound (44_block_mixer.md R222 (b)) -/

section monotone
variable {x y z : F32}

theorem fadd_mono_right (hz : NonNeg z) (hy : NonNeg y) (hxy : x.toNat ≤ y.toNat) :
    (fadd z x).toNat ≤ (fadd z y).toNat := by
  have hx : NonNeg x := .of_le hxy hy
  rw [fadd_nonNeg hz hx, fadd_nonNeg hz hy]
  exact roundUnits_mono one_pos one_pos
    (Nat.mul_le_mul_right 1 (Nat.add_le_add_left (hx.units_mono hy hxy) _))

theorem fsub_mono_left (hz : NonNeg z) (hy : NonNeg y) (hzx : z.toNat ≤ x.toNat)
    (hxy : x.toNat ≤ y.toNat) : (fsub x z).toNat ≤ (fsub y z).toNat := by
  have hx : NonNeg x := .of_le hxy hy
  rw [fsub_nonNeg hx hz hzx, fsub_nonNeg hy hz (hzx.trans hxy)]
  exact roundUnits_mono one_pos one_pos
    (Nat.mul_le_mul_right 1 (Nat.sub_le_sub_right (hx.units_mono hy hxy) _))

end monotone

/-- The argument of tanh above the knee is positive: it is least at the first value above the knee, and
positive there. -/
theorem clipArgument_pos {x : F32} (h : fgt x k0_7 = true) :
    fgt (fdiv (fsub x k0_7) k0_3) posZero = true := by
  obtain ⟨hnan, hsign, hmag⟩ := (fgt_nonNeg_iff k0_7_nonNeg).1 h
  rw [isNaN_eq_false_iff] at hnan
  rw [← toNat_eq_magnitude hsign] at hnan hmag
  rcases hnan.lt_or_eq with hfin | hinf
  · have hx : NonNeg x := hfin
    have hdiff : NonNeg (fsub x k0_7) := .of_le (fsub_le_left hx k0_7_nonNeg hmag.le) hx
    have hleast : (fdiv (fsub 0x3F333334#32 k0_7) k0_3).toNat ≤ (fdiv (fsub x k0_7) k0_3).toNat :=
      fdiv_mono_left k0_3_nonNeg (by decide) hdiff (fsub_mono_left k0_7_nonNeg hx (by decide) hmag)
    have hpos : 0 < (fdiv (fsub 0x3F333334#32 k0_7) k0_3).toNat := by decide +kernel
    have hle : (fdiv (fsub x k0_7) k0_3).toNat ≤ 0x7F800000 := by
      rw [fdiv_nonNeg hdiff k0_3_nonNeg (by decide)]
      exact roundUnits_le _ _
    generalize fdiv (fsub x k0_7) k0_3 = r at hleast hle
    have hr : r.toNat < 2 ^ 31 := by omega
    refine (fgt_nonNeg_iff (by unfold NonNeg; decide)).2 ⟨?_, signBit_of_lt hr, ?_⟩
    · rwa [isNaN_eq_false_iff, magnitude_of_lt hr]
    · rw [magnitude_of_lt hr]
      exact hpos.trans_le hleast
  · rw [show x = posInf from BitVec.eq_of_toNat_eq hinf]
    decide

/-- A value from zero to one is a pattern up to that of 1.0, or the negative zero. -/
theorem toNat_le_or_eq_of_fle {y : F32} (hlo : fle posZero y = true) (hhi : fle y kOne = true) :
    y.toNat ≤ kOne.toNat ∨ y = 0x80000000#32 := by
  have hzero : orderKey posZero = 0 := by decide
  have hone : orderKey kOne = kOne.toNat := by decide
  simp only [fle, Bool.and_eq_true, decide_eq_true_eq, hzero, hone] at hlo hhi
  have hkey : orderKey y = if signBit y then -(magnitude y : Int) else (magnitude y : Int) := rfl
  cases hs : signBit y with
  | false =>
    rw [hs, if_neg Bool.false_ne_true] at hkey
    rw [toNat_eq_magnitude hs]
    exact .inl (by omega)
  | true =>
    rw [hs, if_pos rfl] at hkey
    have hmag : magnitude y = 0 := by omega
    exact .inr (by rw [← pack_fields y, hs, hmag]; rfl)

/-- A factor from zero to one puts the value above the knee between 0.7 and 0.7 + 0.3, which is 1.0. -/
theorem clipAbove_le_kOne {N : Num} (hN : TanhBounded N) {x : F32} (h : fgt x k0_7 = true) :
    (clipAbove N x).toNat ≤ kOne.toNat := by
  obtain ⟨hlo, hhi⟩ := hN.1 _ (clipArgument_pos h)
  unfold clipAbove numTanh
  generalize N.tanh (fdiv (fsub x k0_7) k0_3) = y at hlo hhi
  rcases toNat_le_or_eq_of_fle hlo hhi with hy | rfl
  · have hy' : NonNeg y := .of_le hy (by decide)
    rw [canon, if_neg (by simp [hy'.notNaN])]
    calc (fadd k0_7 (fmul k0_3 y)).toNat
        ≤ (fadd k0_7 k0_3).toNat :=
          fadd_mono_right k0_7_nonNeg k0_3_nonNeg (fmul_le_left k0_3_nonNeg hy)
      _ = kOne.toNat := by decide +kernel
  · decide +kernel

/-- Settles O38: the outer branches mirror one that stays up to 1.0, and the knee is below 1.0. -/
theorem softClipBoundedByOne : Obligations.SoftClipBoundedByOne := by
  intro N x hN hnan
  rw [fle_fabs_iff (by unfold NonNeg; decide)]
  have hclip {y : F32} (hy : fgt y k0_7 = true) : magnitude (clipAbove N y) ≤ kOne.toNat := by
    have hle := clipAbove_le_kOne hN hy
    rwa [magnitude_of_lt (hle.trans_lt (by decide))]
  rcases knee_cases hnan with habove | hbelow | hwithin
  · rw [softClip_of_above N habove]
    exact hclip habove
  · rw [softClip_of_below N hbelow, magnitude_fneg]
    exact hclip hbelow
  · rw [softClip_of_within N hwithin]
    exact hwithin.trans (by decide)

end Sys2Proof.Machine
end

section
/-! PROOFS. An accepted BLOCK (44_block_mixer.md R210, R211; 41_oscillator_bank.md R151-R153): the clamp of
the harmonic count, the reconfigured bank, and which voices a push reconfigures. -/

namespace Sys2Proof.Machine

/-- The clamp of 44_block_mixer.md R210 as a minimum and a maximum. -/
theorem clampHarmonics_eq_max_min (w : Word) :
    (clampHarmonics w : Int) = max 1 (min 32 w.toInt) := by
  unfold clampHarmonics
  dsimp only
  split_ifs <;> omega

/-! ## The reconfigured bank (41_oscillator_bank.md R153) -/

theorem rawGainSum_eq_foldl_map (N : Num) (h : Nat) :
    rawGainSum N h = ((List.range h).map fun k => fabs (rawGain N (k + 1))).foldl fadd posZero :=
  List.foldl_map.symm

section configure
variable (N : Num) (sr : F32) (v : Voice) (k : Fin 32)

theorem Voice.configure_phase_getElem : (v.configure N sr).phase[k] = posZero := by
  simp [Voice.configure]

theorem Voice.configure_inc_getElem : (v.configure N sr).inc[k] =
    if k.val < v.hc then phaseInc sr v.baseFreq (k.val + 1) else posZero := by
  simp [Voice.configure]

theorem Voice.configure_gain_getElem : (v.configure N sr).gain[k] =
    if k.val < v.hc then harmonicGain N v.hc (k.val + 1) else posZero := by
  simp [Voice.configure, harmonicGain]

end configure

/-- Configuring a voice is what the spec calls reconfiguring it. -/
theorem Voice.configure_reconfigured (N : Num) (sr : F32) (v : Voice) :
    Voice.Reconfigured N sr v (v.configure N sr) := by
  refine ⟨rfl, fun k => ⟨v.configure_phase_getElem N sr k, v.configure_inc_getElem N sr k, ?_⟩⟩
  rw [Voice.configure_gain_getElem, harmonicGain, rawGainSum_eq_foldl_map]
  rfl

/-! ## The push (44_block_mixer.md R211) -/

/-- The voice with the three controls of a push in it. -/
def Voice.withControls (attackTime releaseTime : F32) (hc : Nat) (v : Voice) : Voice :=
  { v with hc := hc, releaseTime := releaseTime, attackTime := attackTime }

section push
variable {attackTime releaseTime : F32} {hc : Nat} {v : Voice}

theorem Voice.pushChanges_iff : v.pushChanges attackTime releaseTime hc = true ↔
    v ≠ v.withControls attackTime releaseTime hc := by
  cases v
  simp only [Voice.pushChanges, Voice.withControls, Bool.or_eq_true, bne_iff_ne, ne_eq, Voice.mk.injEq,
    true_and, and_true, not_and_or]
  tauto

/-- A push with nothing changed leaves every phase running. -/
theorem Voice.push_of_eq (N : Num) (sr : F32) (h : v = v.withControls attackTime releaseTime hc) :
    v.push N sr attackTime releaseTime hc = v.withControls attackTime releaseTime hc :=
  if_neg fun hchanges => Voice.pushChanges_iff.1 hchanges h

theorem Voice.push_of_ne (N : Num) (sr : F32) (h : v ≠ v.withControls attackTime releaseTime hc) :
    v.push N sr attackTime releaseTime hc =
      (v.withControls attackTime releaseTime hc).configure N sr :=
  if_pos (Voice.pushChanges_iff.2 h)

end push

/-! ## The command (45_commands.md R241) -/

theorem exec_block_of_idle (evCount : BitVec 12) (nSamp : BitVec 16) {s : State}
    (hmode : s.seqMode = .idle) (hrate : s.rateValid = true) :
    exec (.block evCount nSamp) s = .next (s.blockAccepted Config.machine evCount nSamp) :=
  congrArg Host.Outcome.next ((State.inContext_idle s _ _ hmode).trans (if_pos hrate))

theorem State.blockAccepted_voice (c : Config) (evCount : BitVec 12) (nSamp : BitVec 16) (s : State)
    (i : Fin 16) : (s.blockAccepted c evCount nSamp).voice i =
      (s.voice i).push c.num s.sampleRate c.attackTime s.regReleaseTime
        (clampHarmonics s.regHarmonicCount) := by
  simp [State.blockAccepted_eq, State.voice]

/-- Settles O14: the latches and the sequencer are fields of the accepted state, and a push reconfigures
a voice when the pushed controls differ from its own. -/
theorem blockLatchesPushesAndSequences : Obligations.BlockLatchesPushesAndSequences := by
  intro evCount nSamp s hmode hrate
  have hexec := exec_block_of_idle evCount nSamp hmode hrate
  have hvoice := s.blockAccepted_voice Config.machine evCount nSamp
  have heq := s.blockAccepted_eq Config.machine evCount nSamp
  generalize s.blockAccepted Config.machine evCount nSamp = t at heq hvoice hexec
  have hblkH : t.blkH = clampHarmonics s.regHarmonicCount := congrArg State.blkH heq
  have hvoices := congrArg State.voices heq
  dsimp only at hvoices
  rw [← hvoices, ← hblkH] at heq
  refine ⟨t, hexec, ?_, congrArg State.blkAmp heq, congrArg State.blkRel heq,
    fun i => ⟨fun h => ?_, fun h => ?_⟩, heq⟩
  · rw [hblkH, clampHarmonics_eq_max_min]
  · rw [hvoice, ← hblkH]
    exact Voice.push_of_eq _ _ h
  · rw [hvoice, ← hblkH, Voice.push_of_ne _ _ h]
    exact Voice.configure_reconfigured ..

end Sys2Proof.Machine
end

section
/-! PROOFS. A sample step (44_block_mixer.md R213-R221): the model's sums over all voices and harmonics are
sums over those that sound, and the frame is computed before any voice advances. -/

namespace Sys2Proof.Machine

/-! ## The mix (44_block_mixer.md R214-R218) -/

/-- The sum of the harmonics up to the harmonic count, in rising order (41_oscillator_bank.md R155). -/
theorem Voice.bankSample_eq_foldl_filter (N : Num) (v : Voice) :
    v.bankSample N = ((List.finRange 32).filter fun k => k.val < v.hc).foldl
      (fun acc k => fadd acc (fmul v.gain[k] (waveLookup N v.phase[k]))) posZero := by
  rw [List.foldl_filter, Voice.bankSample]
  simp only [decide_eq_true_eq, Nat.succ_le_iff]

/-- The envelope's gain, with both stages that leave the level alone in the last case
(42_envelope.md R176). -/
theorem Voice.envGain_eq_ite (v : Voice) :
    v.envGain = if v.stage = .attack then v.attackLevel
      else if v.stage = .release then v.releaseLevel else kOne := by
  unfold Voice.envGain
  cases v.stage <;> rfl

/-- The sum of the active voices' samples, in index order (44_block_mixer.md R216). -/
theorem State.voiceSum_eq_foldl_filter (N : Num) (s : State) :
    s.voiceSum N = ((List.finRange 16).filter fun i => (s.voice i).active).foldl
      (fun acc i => fadd acc ((s.voice i).sample N)) posZero := by
  rw [List.foldl_filter, State.voiceSum]

/-- The soft clip with its lower knee written as the pattern of -0.7 (44_block_mixer.md R218). -/
theorem softClip_eq_ite (N : Num) (x : F32) :
    softClip N x = if fgt x k0_7 then clipAbove N x
      else if flt x 0xBF333333#32 then fneg (clipAbove N (fneg x)) else x := by
  rw [softClip, show fneg k0_7 = 0xBF333333#32 by decide]

/-! ## The step -/

theorem step_of_samples {s : State} (hs : s.engineNext) (hmode : s.seqMode = .samples)
    (hroom : s.outQ.length + Config.machine.numChannels ≤ Config.machine.outDepth) :
    step s = .next (s.turnTaken.sampleStep Config.machine) := by
  have hfits : s.turnTaken.frameFits Config.machine = true := decide_eq_true hroom
  rw [step_engine hs]
  obtain ⟨hne, -⟩ | ⟨-, -, he⟩ | ⟨-, hfull, -⟩ := engineTurn_cases Config.machine exec s.turnTaken
  · exact absurd hmode hne
  · exact he
  · simp [hfits] at hfull

@[simp] theorem State.sampleStep_voice (c : Config) (s : State) (i : Fin 16) :
    (s.sampleStep c).voice i = (s.voice i).advance := by
  simp [State.sampleStep_eq, State.voice]

/-- Settles O22: the step's one update of the state, with each number in it unfolded to its rule. -/
theorem sampleStepWritesThenAdvances : Obligations.SampleStepWritesThenAdvances := by
  intro s hs hmode hroom N n base tgt cur bank gain acc x above y
  have hstep := step_of_samples hs hmode hroom
  have hvoice := s.turnTaken.sampleStep_voice Config.machine
  have heq := s.turnTaken.sampleStep_eq Config.machine
  have htgt : s.turnTaken.nextTarget Config.machine.num = tgt := by
    rw [State.nextTarget, State.activeCount_eq_countP]; rfl
  have hcur : s.turnTaken.nextScale Config.machine.num = cur := by
    rw [State.nextScale, htgt]; rfl
  have hsample (v : Voice) :
      v.sample Config.machine.num = fmul (fmul (bank v) (gain v)) v.velocity := by
    rw [Voice.sample, Voice.bankSample_eq_foldl_filter, Voice.envGain_eq_ite]; rfl
  have hacc : s.turnTaken.voiceSum Config.machine.num = acc := by
    simp only [State.voiceSum_eq_foldl_filter, hsample]; rfl
  have hy : s.turnTaken.outputWord Config.machine.num cur = y := by
    rw [State.outputWord, hacc, softClip_eq_ite]; rfl
  simp only [htgt, hcur, hy, State.turnTaken_smpLeft, State.turnTaken_seqMode, hmode, sub_eq_zero] at heq
  generalize s.turnTaken.sampleStep Config.machine = t at heq hvoice hstep
  have hvoices := congrArg State.voices heq
  dsimp only at hvoices
  rw [← hvoices] at heq
  exact ⟨t, hstep, hvoice, heq⟩

end Sys2Proof.Machine
end

section
/-! PROOFS. The engine's turn (45_commands.md R240, R243, R244, R248, R249): what it does at a whole command,
at an illegal header and in a refused block, when it waits, and what it never changes. -/

namespace Sys2Proof.Machine

/-! ## A turn that waits, and a turn at a whole command (45_commands.md R240) -/

theorem step_of_header {s : State} (hs : s.engineNext) (hmode : s.seqMode ≠ .samples) :
    step s = headerStep exec s.turnTaken := by
  rw [step_engine hs]
  obtain ⟨-, he⟩ | ⟨hsamples, -⟩ | ⟨hsamples, -⟩ :=
    engineTurn_cases Config.machine exec s.turnTaken
  · exact he
  · exact absurd hsamples hmode
  · exact absurd hsamples hmode

theorem headerStep_of_ok {s : State} {i : Instr} {rest : List Word}
    (h : decode s.cmdQ = .ok (i, rest)) : headerStep exec s = exec i (s.withCmdQ rest) := by
  simp [headerStep, h]

theorem headerStep_of_empty {s : State} (h : s.cmdQ = []) : headerStep exec s = .next s := by
  simp [headerStep, h, decode]

theorem headerStep_of_loneHeader {s : State} {w : Word} (h : s.cmdQ = [w]) (hop : HasOperand w) :
    headerStep exec s = .next s := by
  simp [headerStep, h, decode_loneHeader hop]

theorem headerStep_of_reserved {s : State} {w : Word} {rest : List Word} (h : s.cmdQ = w :: rest)
    (hop : opcode w ∈ reservedOpcodes) :
    headerStep exec s = .next ((s.withCmdQ (s.cmdQ.drop (headerLen w))).badHeader w) := by
  simp [headerStep, h, decode_reserved hop]

/-- Settles O8: the engine's turn in a decoding mode is a header step, and the words decode. -/
theorem stepRunsDecodedInstruction : Obligations.StepRunsDecodedInstruction := by
  intro s i rest hs hmode hdecode
  rw [step_of_header hs hmode, headerStep_of_ok (s := s.turnTaken) hdecode]
  rfl

/-- Settles O9: neither an empty FIFO nor a lone header of two words decodes. -/
theorem engineWaitsForWholeCommand : Obligations.EngineWaitsForWholeCommand := by
  intro s hs hmode hwords
  rw [step_of_header hs hmode]
  obtain hempty | ⟨w, hw, hop⟩ := hwords
  · exact headerStep_of_empty (s := s.turnTaken) hempty
  · exact headerStep_of_loneHeader (s := s.turnTaken) hw hop

/-- Settles O23: in SAMPLES the engine's turn is a sample step only when a frame fits. -/
theorem fullOutputFifoHoldsEngine : Obligations.FullOutputFifoHoldsEngine := by
  intro s hs hmode hfull
  have hfits : s.turnTaken.frameFits Config.machine = false := decide_eq_false hfull.not_ge
  rw [step_engine hs]
  obtain ⟨hne, -⟩ | ⟨-, htrue, -⟩ | ⟨-, -, he⟩ := engineTurn_cases Config.machine exec s.turnTaken
  · exact absurd hmode hne
  · simp [hfits] at htrue
  · exact he

/-! ## The commands in each mode (45_commands.md R243, R244, R248, R249) -/

/-- The opcode of each command (30_encoding.md R123). -/
def commandOpcode : Instr → BitVec 4
  | .nop _ => 0x0#4
  | .block _ _ => 0x1#4
  | .rate _ _ => 0x2#4
  | .noteOn _ _ _ => 0x8#4
  | .noteOff _ _ => 0x9#4
  | .allOff _ => 0xB#4

theorem opcode_header (i : Instr) : opcode i.header = commandOpcode i := by
  cases i with
  | nop | rate | allOff => exact Laws.opcode_append _ _
  | block | noteOn | noteOff => exact Laws.opcode_append₂ rfl _ _ _

/-- At top level a command that is none of NOP, BLOCK and RATE is an illegal header. -/
theorem exec_of_idle_illegal {i : Instr} {s : State} (hmode : s.seqMode = .idle)
    (hop : commandOpcode i ∉ [0x0#4, 0x1#4, 0x2#4]) : exec i s = .next (s.raise .badCmd i.header) := by
  cases i with
  | nop | block | rate => simp [commandOpcode] at hop
  | noteOn | noteOff | allOff => exact congrArg Host.Outcome.next (State.inContext_idle s _ _ hmode)

/-- In an event list a BLOCK or RATE is an illegal record. -/
theorem exec_of_events_illegal {i : Instr} {s : State} (hmode : s.seqMode = .events)
    (hop : commandOpcode i ∉ [0x0#4, 0x8#4, 0x9#4, 0xB#4]) :
    exec i s = .next (s.raise .badCmd i.header).endRecord := by
  cases i with
  | nop | noteOn | noteOff | allOff => simp [commandOpcode] at hop
  | block | rate => exact congrArg Host.Outcome.next (State.inContext_events s _ _ hmode)

theorem exec_of_skip (i : Instr) {s : State} (hmode : s.seqMode = .skip) :
    exec i s = .next s.endSkip := by
  cases i <;> exact congrArg Host.Outcome.next (State.inContext_skip s _ _ hmode)

theorem State.endRecord_eq_recordDone (s : State) : s.endRecord = s.recordDone := by
  simp only [State.endRecord, State.recordDone, sub_eq_zero]

theorem State.endSkip_eq (s : State) : s.endSkip =
    { s with evLeft := s.evLeft - 1, seqMode := if s.evLeft = 1 then .idle else s.seqMode } := by
  simp only [State.endSkip, sub_eq_zero]

/-- Settles O13: NOP's own effect is none. -/
theorem nopOnlyCounts : Obligations.NopOnlyCounts := by
  refine fun ign s => ⟨fun hmode => ?_, fun hmode => ?_⟩
  · exact congrArg Host.Outcome.next (State.inContext_idle s _ _ hmode)
  · rw [← s.endRecord_eq_recordDone]
    exact congrArg Host.Outcome.next (State.inContext_events s _ _ hmode)

/-! ## A header with all its words (30_encoding.md R112, R121) -/

/-- The state with its turn taken and the header `w`, and its operand word if it has one, popped. -/
def State.headerTaken (s : State) (w : Word) : State :=
  s.turnTaken.withCmdQ (s.cmdQ.drop (headerLen w))

/-- A header that has all its words is consumed with its length: a reserved one is reported, and any
other runs its command. -/
theorem step_of_whole_header {s t : State} {w : Word} {rest : List Word} (hs : s.engineNext)
    (hmode : s.seqMode ≠ .samples) (hwords : s.cmdQ = w :: rest) (hlen : headerLen w ≤ s.cmdQ.length)
    (hreserved : opcode w ∈ reservedOpcodes → (s.headerTaken w).badHeader w = t)
    (hcommand : ∀ i : Instr, i.header = w → exec i (s.headerTaken w) = .next t) :
    step s = .next t := by
  rw [step_of_header hs hmode]
  obtain hres | ⟨hop, rfl⟩ | ⟨i, rest', hi⟩ := words_cases w rest
  · rw [headerStep_of_reserved (s := s.turnTaken) hwords hres, ← hreserved hres]
    rfl
  · simp [headerLen, hop, hwords] at hlen
  · have hdecode : decode (w :: rest) = .ok (i, rest') := hi ▸ decode_encode i rest'
    have hrest := decode_rest_eq_drop_headerLen hdecode
    rw [← hwords] at hdecode hrest
    rw [headerStep_of_ok (s := s.turnTaken) hdecode, hrest]
    exact hcommand i (header_eq_of_encode_append hi)

/-- Settles O10: reserved or an event's, the header is reported at top level. -/
theorem badTopLevelHeaderReported : Obligations.BadTopLevelHeaderReported := by
  intro s w rest hs hmode hwords hop hlen
  have hstep : step s = .next ((s.headerTaken w).raise .badCmd w) :=
    step_of_whole_header hs (by simp [hmode]) hwords hlen
      (fun _ => State.inContext_idle (s.headerTaken w) _ _ hmode)
      (fun i hi => hi ▸ exec_of_idle_illegal (s := s.headerTaken i.header) hmode
        (by rwa [← opcode_header, hi]))
  rwa [State.raise_eq_errorRaised] at hstep

/-- Settles O11: reserved, a BLOCK or a RATE, the header is reported and counted. -/
theorem badRecordReportedAndCounted : Obligations.BadRecordReportedAndCounted := by
  intro s w rest hs hmode hwords hop hlen
  have hstep : step s = .next ((s.headerTaken w).raise .badCmd w).endRecord :=
    step_of_whole_header hs (by simp [hmode]) hwords hlen
      (fun _ => State.inContext_events (s.headerTaken w) _ _ hmode)
      (fun i hi => hi ▸ exec_of_events_illegal (s := s.headerTaken i.header) hmode
        (by rwa [← opcode_header, hi]))
  rwa [State.endRecord_eq_recordDone, State.raise_eq_errorRaised] at hstep

/-- Settles O12: reserved or a command's, the header ends a skipped record. -/
theorem skippedRecordDiscarded : Obligations.SkippedRecordDiscarded := by
  intro s w rest hs hmode hwords hlen
  have hstep : step s = .next (s.headerTaken w).endSkip :=
    step_of_whole_header hs (by simp [hmode]) hwords hlen
      (fun _ => State.inContext_skip (s.headerTaken w) _ _ hmode)
      (fun i _ => exec_of_skip i (s := s.headerTaken w) hmode)
  rw [hstep, State.endSkip_eq, ← hmode]
  rfl

/-! ## What the engine never changes (45_commands.md R250) -/

theorem State.sampleStep_interface (c : Config) (s : State) :
    (s.sampleStep c).interface = { s.interface with outQ := (s.sampleStep c).outQ } := by
  simp [State.interface, State.sampleStep_eq]

/-- Of what it shares with its hosts, the engine's step changes only the two FIFOs and takes its turn. -/
theorem step_engine_interface {s t : State} (hs : s.engineNext) (ht : step s = .next t) :
    ∃ cmdQ outQ, t.interface = { s.turnTaken.interface with cmdQ := cmdQ, outQ := outQ } := by
  obtain hheader | ⟨-, rfl⟩ | rfl := step_engine_cases hs ht
  · obtain ⟨n, -, hinterface⟩ := headerStep_interface hheader
    exact ⟨_, _, hinterface⟩
  · exact ⟨_, _, State.sampleStep_interface ..⟩
  · exact ⟨_, _, rfl⟩

/-- Settles O58: none of these is a FIFO or the schedule. -/
theorem engineLeavesControlRegisters : Obligations.EngineLeavesControlRegisters := by
  intro s t hs ht
  obtain ⟨cmdQ, outQ, h⟩ := step_engine_interface hs ht
  exact ⟨congrArg Interface.regMasterAmp h, congrArg Interface.regHarmonicCount h,
    congrArg Interface.regReleaseTime h, congrArg Interface.pending h, congrArg Interface.replies h⟩

end Sys2Proof.Machine
end

section
/-! PROOFS. Writes of STATUS and CMD_FIFO (45_commands.md R252, R254; 20_memory.md R89). -/

namespace Sys2Proof.Machine

/-- Settles O45: the write acknowledges, which masks the error bits with the word's. -/
theorem statusWriteClearsErrorBits : Obligations.StatusWriteClearsErrorBits := by
  intro s w
  refine ⟨s.acknowledge w, s.hostAccess_write_word _ (off := 0x04) rfl w, fun b hb => ?_, rfl, rfl⟩
  simp [errBitsCleared, hb]

theorem State.writeReg_cmdFifo_of_room {c : Config} {s : State} (h : s.cmdQ.length < c.cmdDepth)
    (w : Word) : s.writeReg c .cmdFifo w = some { s with cmdQ := s.cmdQ ++ [w] } :=
  if_pos h

theorem State.writeReg_cmdFifo_of_full {c : Config} {s : State} (h : s.cmdQ.length = c.cmdDepth)
    (w : Word) : s.writeReg c .cmdFifo w = none :=
  if_neg h.not_lt

/-- An agent whose next access is held changes nothing in its turn (20_memory.md R89). -/
theorem hostTurn_of_held {c : Config} {s : State} {a : Agent} {acc : Access} {rest : List Access}
    (hpending : s.pending.of a = acc :: rest) (hwindow : inWindow c acc.addr = true)
    (hheld : s.hostAccess c (acc.addr - c.base) acc.size acc.op = none) :
    hostTurn c a s = .next s := by
  simp [hostTurn, hpending, hwindow, hheld]

/-- Settles O51: the FIFO's length decides between appending and holding, and a held write leaves its
agent's turn without effect. -/
theorem cmdFifoWriteAppendsOrIsHeld : Obligations.CmdFifoWriteAppendsOrIsHeld := by
  intro s w
  have hwrite (u : State) : u.hostAccess Config.machine 0x40 .word (.write w) =
      (u.writeReg Config.machine .cmdFifo w).map fun t => (none, t) :=
    u.hostAccess_write_word _ rfl w
  refine ⟨s.hostAccess_read_word _ rfl, fun hroom => ?_, fun hfull => ⟨?_, fun a rest ha hp => ?_⟩⟩
  · rw [hwrite, State.writeReg_cmdFifo_of_room hroom]
    rfl
  · rw [hwrite, State.writeReg_cmdFifo_of_full hfull]
    rfl
  · have hheld := hwrite s.turnTaken
    rw [State.writeReg_cmdFifo_of_full (s := s.turnTaken) hfull] at hheld
    rw [step_host ha]
    refine hostTurn_of_held (s := s.turnTaken) hp (decide_eq_true ⟨by simp, by simp⟩) ?_
    rw [Nat.add_sub_cancel_left]
    exact hheld

end Sys2Proof.Machine
end

section
/-! PROOFS. RATE and the event records (45_commands.md R242, R244-R247): what each does in the mode it is
legal in, for every operand. -/

namespace Sys2Proof.Machine

/-! ## RATE (45_commands.md R242) -/

/-- A finite positive operand is no NaN, no infinity and above zero. -/
theorem rateAccepted_of_finite_pos {x : Word} (hfinite : isFinite x = true) (hsign : signBit x = false)
    (hzero : isZero x = false) : rateAccepted x = true := by
  have hmag : 0 < magnitude x := Nat.pos_of_ne_zero (by simpa [isZero] using hzero)
  have hspecial : (isNaN x || isInf x) = false := by rw [isNaN_or_isInf, hfinite]; rfl
  have hle : fle x posZero = false := by
    have hkey : orderKey posZero < orderKey x := by
      have hzeroKey : orderKey posZero = 0 := by decide
      rw [hzeroKey]
      simpa [orderKey, hsign] using hmag
    simp [fle, hkey]
  simp [rateAccepted, hspecial, hle]

theorem exec_rate_of_idle (ign : BitVec 28) {x : Word} {s : State} (hmode : s.seqMode = .idle)
    (hx : rateAccepted x = true) : exec (.rate ign x) s = .next (s.rateAccept Config.machine x) :=
  congrArg Host.Outcome.next ((State.inContext_idle s _ _ hmode).trans (if_pos hx))

theorem State.rateAccept_voice (c : Config) (r : F32) (s : State) (i : Fin 16) :
    (s.rateAccept c r).voice i = (s.voice i).configure c.num r := by
  simp [State.rateAccept_eq, State.voice]

/-- Settles O16: the operand is accepted, and accepting it configures every voice. -/
theorem rateSetsRateAndReconfigures : Obligations.RateSetsRateAndReconfigures := by
  intro ign x s hmode hfinite hsign hzero
  refine ⟨s.rateAccept Config.machine x,
    exec_rate_of_idle ign hmode (rateAccepted_of_finite_pos hfinite hsign hzero), rfl, fun i => ?_, rfl⟩
  rw [State.rateAccept_voice]
  exact Voice.configure_reconfigured ..

/-! ## The velocity (45_commands.md R245) -/

theorem clampVelocity_of_not_pos {x : Word} (h : isNaN x = true ∨ fle x posZero = true) :
    clampVelocity x = posZero :=
  if_pos (Bool.or_eq_true_iff.2 h)

theorem clampVelocity_of_pos {x : Word} (h : fgt x posZero = true) :
    clampVelocity x = if fge x kOne then kOne else x := by
  have hle : fle x posZero = false := fge_eq_false_of_flt h
  have hnan : isNaN x = false := by simp_all [fgt, flt]
  simp [clampVelocity, hle, hnan]

theorem fgt_posZero_of_fge_kOne {x : F32} (h : fge x kOne = true) : fgt x posZero = true := by
  have hzero : isNaN posZero = false ∧ orderKey posZero = 0 := by decide
  have hone : isNaN kOne = false ∧ orderKey kOne = 0x3F800000 := by decide
  simp only [fge, fle, fgt, flt, hzero, hone, Bool.and_eq_true, decide_eq_true_eq] at h ⊢
  exact ⟨⟨rfl, h.1.2⟩, by omega⟩

/-- Settles O19: the clamp's three branches, each scaled by 0.8. -/
theorem velocityClampedAndScaled : Obligations.VelocityClampedAndScaled := by
  refine fun x => ⟨fun h => ?_, fun h => ?_, fun hpos hlt => ?_, scaledVelocity_le x⟩
  · rw [scaledVelocity, clampVelocity_of_not_pos h]
    decide
  · rw [scaledVelocity, clampVelocity_of_pos (fgt_posZero_of_fge_kOne h), if_pos h]
    exact kOne_fmul (by unfold NonNeg; decide)
  · rw [scaledVelocity, clampVelocity_of_pos hpos, fge_eq_false_of_flt hlt]
    rfl

/-! ## NOTEOFF and ALLOFF (45_commands.md R246, R247) -/

theorem Voice.stop_stopped (v : Voice) : Voice.Stopped v v.stop :=
  ⟨Voice.stop_of_sounding, Voice.stop_of_not_sounding⟩

theorem exec_noteOff_of_events (ign : BitVec 20) (note : BitVec 8) {s : State}
    (hmode : s.seqMode = .events) :
    exec (.noteOff ign note) s = .next (s.noteOffEvent note).recordDone := by
  rw [← State.endRecord_eq_recordDone]
  exact congrArg Host.Outcome.next (State.inContext_events s _ _ hmode)

theorem exec_allOff_of_events (ign : BitVec 28) {s : State} (hmode : s.seqMode = .events) :
    exec (.allOff ign) s = .next (s.mapVoices Voice.stop).recordDone := by
  rw [← State.endRecord_eq_recordDone]
  exact congrArg Host.Outcome.next (State.inContext_events s _ _ hmode)

@[simp] theorem State.recordDone_voice (s : State) (i : Fin 16) :
    s.recordDone.voice i = s.voice i := rfl

/-- The search ends at the first active voice with the note (43_voice_pool.md R195). -/
theorem State.findNote_eq_some {s : State} {note : BitVec 8} {i : Fin 16}
    (h : (s.voice i).active = true ∧ (s.voice i).note = note)
    (hfirst : ∀ j < i, ¬((s.voice j).active = true ∧ (s.voice j).note = note)) :
    s.findNote note = some i := by
  rw [State.findNote, ← Fin.find?_eq_find?_finRange, Fin.find?_eq_some_iff]
  exact ⟨by simpa using h, fun j hj => by simpa using hfirst j hj⟩

theorem State.findNote_eq_none {s : State} {note : BitVec 8}
    (h : ∀ i, ¬((s.voice i).active = true ∧ (s.voice i).note = note)) : s.findNote note = none := by
  rw [State.findNote, ← Fin.find?_eq_find?_finRange, Fin.find?_eq_none_iff]
  exact fun i => by simpa using h i

theorem State.noteOffEvent_of_found {s : State} {note : BitVec 8} {i : Fin 16}
    (h : s.findNote note = some i) : s.noteOffEvent note = s.setVoice i (s.voice i).stop := by
  rw [State.noteOffEvent, h]

theorem State.noteOffEvent_of_none {s : State} {note : BitVec 8} (h : s.findNote note = none) :
    s.noteOffEvent note = s := by
  rw [State.noteOffEvent, h]

/-- Settles O20: the search finds the first match, and NOTEOFF stops what it finds. -/
theorem noteOffStopsFirstMatch : Obligations.NoteOffStopsFirstMatch := by
  intro ign note s hmode
  rw [exec_noteOff_of_events ign note hmode]
  refine ⟨fun i hi hfirst => ?_, fun hnone => ?_⟩
  · rw [State.noteOffEvent_of_found (State.findNote_eq_some hi hfirst)]
    refine ⟨_, rfl, ?_, fun j hj => ?_, rfl⟩
    · rw [State.recordDone_voice, State.setVoice_voice_same]
      exact Voice.stop_stopped _
    · rw [State.recordDone_voice, State.setVoice_voice_ne _ _ hj]
  · rw [State.noteOffEvent_of_none (State.findNote_eq_none hnone)]

/-- Settles O21: ALLOFF stops each voice by the rule of a single stop. -/
theorem allOffStopsEveryVoice : Obligations.AllOffStopsEveryVoice := by
  intro ign s hmode
  refine ⟨_, exec_allOff_of_events ign hmode, fun i => ?_, rfl⟩
  rw [State.recordDone_voice, State.mapVoices_voice]
  exact Voice.stop_stopped _

end Sys2Proof.Machine
end

section
/-! PROOFS. The voice a NOTEON takes (43_voice_pool.md R194) and what it does to it (43_voice_pool.md R190;
45_commands.md R245): each tier's search ends at the first voice of least key. -/

namespace Sys2Proof.Machine

/-! ## A scan for the first of least key -/

/-- No voice has a smaller key than `i`, and none before `i` has the same. -/
structure IsFirstLeast (key : Fin 16 → Nat) (i : Fin 16) : Prop where
  least : ∀ j, key i ≤ key j
  first : ∀ j < i, key i < key j

theorem exists_isFirstLeast (key : Fin 16 → Nat) : ∃ i, IsFirstLeast key i := by
  obtain ⟨i, hi⟩ := Finite.exists_min fun i => toLex (key i, i)
  have hle (j : Fin 16) : key i < key j ∨ key i = key j ∧ i ≤ j := Prod.Lex.toLex_le_toLex.1 (hi j)
  refine ⟨i, fun j => ?_, fun j hj => ?_⟩ <;> have := hle j <;> omega

/-- A scan that moves to whatever has a smaller key ends at the first of least key. -/
theorem IsFirstLeast.scan_eq {key : Fin 16 → Nat} {i : Fin 16} (h : IsFirstLeast key i) :
    (List.finRange 16).foldl (fun best j => if decide (key j < key best) then j else best) 0 = i :=
  foldl_replace_eq (beats := fun j b => decide (key j < key b))
    (fun j => decide_eq_false (h.least j).not_gt) (fun j hj => decide_eq_true (h.first j hj))
    (List.pairwise_lt_finRange 16)
    ((Fin.zero_le i).eq_or_lt.imp_right fun hi => ⟨hi, List.mem_finRange i⟩)

/-! ## Tier 0: a free voice (43_voice_pool.md R194) -/

section search
variable {s : State} {i j : Fin 16}

theorem State.freeVoice_eq_some (h : s.freeVoice = some i) :
    (s.voice i).active = false ∧ ∀ j < i, (s.voice j).active = true := by
  rw [State.freeVoice, ← Fin.find?_eq_find?_finRange, Fin.find?_eq_some_iff] at h
  simpa using h

theorem State.active_of_freeVoice_eq_none (h : s.freeVoice = none) (j : Fin 16) :
    (s.voice j).active = true := by
  rw [State.freeVoice, ← Fin.find?_eq_find?_finRange, Fin.find?_eq_none_iff] at h
  simpa using h j

/-! ## Tier 1: the releasing voice nearest its end (43_voice_pool.md R194) -/

/-- The samples left of a releasing voice, and a key above all of those for every other voice. -/
def State.releaseKey (s : State) (i : Fin 16) : Nat :=
  if (s.voice i).stage = .release then (s.voice i).releaseRem.toNat else 2 ^ 32

theorem State.releaseKey_of_release (h : (s.voice i).stage = .release) :
    s.releaseKey i = (s.voice i).releaseRem.toNat :=
  if_pos h

theorem State.releaseKey_of_not_release (h : (s.voice i).stage ≠ .release) :
    s.releaseKey i = 2 ^ 32 :=
  if_neg h

/-- A voice as a candidate of tier 1. -/
def State.ifReleasing (s : State) (i : Fin 16) : Option (Fin 16) :=
  if (s.voice i).stage = .release then some i else none

theorem State.ifReleasing_of_release (h : (s.voice i).stage = .release) : s.ifReleasing i = some i :=
  if_pos h

theorem State.ifReleasing_of_not_release (h : (s.voice i).stage ≠ .release) :
    s.ifReleasing i = none :=
  if_neg h

/-- One step of the search of tier 1: the candidate once the voice `j` has been considered. -/
def State.nearer (s : State) (best : Option (Fin 16)) (j : Fin 16) : Option (Fin 16) :=
  if (s.voice j).stage = .release then
    match best with
    | none => some j
    | some b => if (s.voice j).releaseRem < (s.voice b).releaseRem then some j else some b
  else best

theorem State.nearestReleased_eq_foldl (s : State) :
    s.nearestReleased = (List.finRange 16).foldl s.nearer none := rfl

/-- The search of tier 1 steps as the scan by `releaseKey` does. -/
theorem State.nearer_ifReleasing (s : State) (b j : Fin 16) : s.nearer (s.ifReleasing b) j =
    s.ifReleasing (if decide (s.releaseKey j < s.releaseKey b) then j else b) := by
  by_cases hj : (s.voice j).stage = .release
  · by_cases hb : (s.voice b).stage = .release
    · simp only [State.nearer, hj, State.ifReleasing_of_release hb, State.releaseKey_of_release hj,
        State.releaseKey_of_release hb, BitVec.lt_def, if_true, decide_eq_true_eq]
      split
      · exact (State.ifReleasing_of_release hj).symm
      · exact (State.ifReleasing_of_release hb).symm
    · have hlt := (s.voice j).releaseRem.isLt
      rw [State.ifReleasing_of_not_release hb, State.releaseKey_of_release hj,
        State.releaseKey_of_not_release hb, if_pos (decide_eq_true hlt),
        State.ifReleasing_of_release hj]
      exact if_pos hj
  · have hle : s.releaseKey b ≤ 2 ^ 32 := by
      unfold State.releaseKey
      split <;> omega
    rw [State.releaseKey_of_not_release hj, if_neg (by simpa using hle)]
    exact if_neg hj

/-- The search of tier 1 answers the first voice of least `releaseKey`, if that voice is releasing. -/
theorem IsFirstLeast.nearestReleased_eq (h : IsFirstLeast s.releaseKey i) :
    s.nearestReleased = s.ifReleasing i := by
  have hfirst : s.nearer none 0 = s.nearer (s.ifReleasing 0) 0 := by
    by_cases h0 : (s.voice 0).stage = .release
    · simp [State.nearer, State.ifReleasing, h0]
    · rw [State.ifReleasing_of_not_release h0]
  calc s.nearestReleased
    _ = (List.finRange 16).foldl s.nearer (s.ifReleasing 0) := by
      rw [State.nearestReleased_eq_foldl, List.finRange_succ, List.foldl_cons, List.foldl_cons, hfirst]
    _ = s.ifReleasing i := by
      rw [List.foldl_hom s.ifReleasing s.nearer_ifReleasing, h.scan_eq]

theorem State.nearestReleased_eq_some (h : s.nearestReleased = some i) :
    (s.voice i).stage = .release ∧
      (∀ j, (s.voice j).stage = .release → (s.voice i).releaseRem ≤ (s.voice j).releaseRem) ∧
      ∀ j < i, (s.voice j).stage = .release → (s.voice i).releaseRem < (s.voice j).releaseRem := by
  obtain ⟨k, hk⟩ := exists_isFirstLeast s.releaseKey
  rw [hk.nearestReleased_eq] at h
  obtain ⟨hrelease, hki⟩ := Option.ite_none_right_eq_some.1 h
  cases hki
  have hkey := State.releaseKey_of_release hrelease
  refine ⟨hrelease, fun j hj => ?_, fun j hlt hj => ?_⟩
  · have := hk.least j
    rwa [hkey, State.releaseKey_of_release hj] at this
  · have := hk.first j hlt
    rwa [hkey, State.releaseKey_of_release hj] at this

theorem State.not_release_of_nearestReleased_eq_none (h : s.nearestReleased = none) (j : Fin 16) :
    (s.voice j).stage ≠ .release := by
  obtain ⟨k, hk⟩ := exists_isFirstLeast s.releaseKey
  rw [hk.nearestReleased_eq] at h
  have hkey : s.releaseKey k = 2 ^ 32 := State.releaseKey_of_not_release fun hr => by
    rw [State.ifReleasing_of_release hr] at h
    cases h
  intro hj
  have hle := hk.least j
  rw [hkey, State.releaseKey_of_release hj] at hle
  exact absurd (s.voice j).releaseRem.isLt hle.not_gt

/-! ## Tier 2: the quietest voice (43_voice_pool.md R194) -/

theorem Voice.LevelInv.envGain_le_kOne {v : Voice} (h : v.LevelInv) : v.envGain.toNat ≤ 0x3F800000 := by
  unfold Voice.envGain
  cases v.stage with
  | attack => exact h.attackLevel
  | release => exact h.releaseLevel
  | idle | sustain => exact le_rfl

theorem Voice.LevelInv.amplitude_nonNeg {v : Voice} (h : v.LevelInv) : NonNeg v.amplitude :=
  .of_le ((fmul_le_right h.envGain_le_kOne h.velocity_nonNeg).trans h.velocity) (by decide)

/-- Amplitudes within the level bounds are ordered by their patterns. -/
theorem State.LevelInv.flt_amplitude (h : s.LevelInv) (i j : Fin 16) :
    flt (s.voice i).amplitude (s.voice j).amplitude =
      decide ((s.voice i).amplitude.toNat < (s.voice j).amplitude.toNat) :=
  flt_nonNeg (h i).amplitude_nonNeg (h j).amplitude_nonNeg

theorem State.LevelInv.quietest_least (h : s.LevelInv) :
    (∀ j, flt (s.voice j).amplitude (s.voice s.quietest).amplitude = false) ∧
      ∀ j < s.quietest, flt (s.voice s.quietest).amplitude (s.voice j).amplitude = true := by
  obtain ⟨k, hk⟩ := exists_isFirstLeast fun i => (s.voice i).amplitude.toNat
  have hleast (j : Fin 16) : flt (s.voice j).amplitude (s.voice k).amplitude = false := by
    rw [h.flt_amplitude]
    exact decide_eq_false (hk.least j).not_gt
  have hfirst (j : Fin 16) (hj : j < k) :
      flt (s.voice k).amplitude (s.voice j).amplitude = true := by
    rw [h.flt_amplitude]
    exact decide_eq_true (hk.first j hj)
  rw [State.quietest_eq hleast hfirst]
  exact ⟨hleast, hfirst⟩

end search

/-! ## NOTEON (45_commands.md R245) -/

/-- The search answers what the stealing order names: each tier is tried when those before it have no
voice. -/
theorem State.LevelInv.findFree_isAllocation {s : State} (h : s.LevelInv) :
    s.IsAllocation s.findFree.1 s.findFree.2 := by
  unfold State.findFree
  split
  next i hfree => exact .inl ⟨rfl, State.freeVoice_eq_some hfree⟩
  next hfree =>
    have hactive := State.active_of_freeVoice_eq_none hfree
    split
    next i hnearest => exact .inr (.inl ⟨rfl, hactive, State.nearestReleased_eq_some hnearest⟩)
    next hnearest =>
      have hstage := State.not_release_of_nearestReleased_eq_none hnearest
      exact .inr (.inr ⟨rfl, fun j => ⟨hactive j, hstage j⟩, h.quietest_least⟩)

/-- Starting a voice is what the spec calls starting it. -/
theorem Voice.start_started (N : Num) (sr : F32) (note : BitVec 8) (vel : F32) (v : Voice) :
    Voice.Started N sr note vel v (v.start N sr note vel) :=
  ⟨_, Voice.configure_reconfigured N sr _, rfl⟩

/-- Settles O18: NOTEON starts the voice the search answers, and the search follows the stealing order. -/
theorem noteOnAllocatesAndStarts : Obligations.NoteOnAllocatesAndStarts := by
  intro ign note x s hmode hlevel
  refine ⟨_, s.findFree.1, s.findFree.2, exec_noteOn_of_events ign note x hmode,
    hlevel.findFree_isAllocation, ?_, fun j hj => ?_, ?_⟩
  · rw [State.endRecord_voice, State.noteOnEvent_voice_found]
    exact Voice.start_started ..
  · rw [State.endRecord_voice, State.noteOnEvent_voice_ne _ _ _ hj]
  · exact State.endRecord_eq_recordDone _

end Sys2Proof.Machine
end

section
/-! PROOFS. The samples of a block (45_commands.md R241; 44_block_mixer.md R219): with room for every frame
and only the engine to move, the sample steps run one after another until the block ends. -/

namespace Sys2Proof.Machine

theorem run_succ_of_step {s u : State} (h : step s = .next u) (n : Nat) :
    Host.Core.run Sys2Proof.core (n + 1) s = Host.Core.run Sys2Proof.core n u := by
  have hcore : Sys2Proof.core.step s = .next u := h
  simp only [Host.Core.run, hcore]

/-- `n` samples are left, the engine alone is to move, and the output FIFO has room for their frames; with
no sample left the block is over. -/
structure State.SamplesToRun (s : State) (n : Nat) : Prop where
  schedule : s.schedule = []
  smpLeft : s.smpLeft.toNat = n
  seqMode : s.seqMode = if n = 0 then .idle else .samples
  room : s.outQ.length + n * Config.machine.numChannels ≤ Config.machine.outDepth

section run
variable {s : State} {n : Nat}

/-- The sample step that a state with samples to run takes. -/
theorem State.SamplesToRun.step_eq (h : s.SamplesToRun (n + 1)) :
    step s = .next (s.turnTaken.sampleStep Config.machine) := by
  have hroom := h.room
  rw [Nat.succ_mul] at hroom
  exact step_of_samples (.inl h.schedule) (h.seqMode.trans (if_neg n.succ_ne_zero)) (by omega)

/-- A sample step leaves one sample fewer to run. -/
theorem State.SamplesToRun.sampleStep (h : s.SamplesToRun (n + 1)) :
    (s.turnTaken.sampleStep Config.machine).SamplesToRun n := by
  have hleft : (s.smpLeft - 1).toNat = n := by
    have := h.smpLeft
    bv_omega
  have hzero : s.smpLeft - 1 = 0 ↔ n = 0 := by
    rw [← hleft, ← BitVec.toNat_inj]
    rfl
  have hroom := h.room
  rw [Nat.succ_mul] at hroom
  rw [State.sampleStep_eq]
  constructor
  · exact congrArg List.tail h.schedule
  · exact hleft
  · simp only [State.turnTaken_smpLeft, hzero, State.turnTaken_seqMode, h.seqMode,
      if_neg n.succ_ne_zero]
  · simp only [State.turnTaken_outQ, List.length_append, List.length_replicate]
    omega

/-- The samples left run to the end of the block, each appending its frame. -/
theorem State.SamplesToRun.run (h : s.SamplesToRun n) :
    ∃ t, Host.Core.run Sys2Proof.core n s = .next t ∧
      t.seqMode = .idle ∧ t.smpLeft = 0 ∧ t.cmdQ = s.cmdQ ∧
      ∃ frames : List Word, frames.length = n ∧
        t.outQ = s.outQ ++ frames.flatMap fun y => List.replicate Config.machine.numChannels y := by
  induction n generalizing s with
  | zero =>
    exact ⟨s, rfl, h.seqMode, BitVec.eq_of_toNat_eq h.smpLeft, rfl, [], rfl, (List.append_nil _).symm⟩
  | succ n ih =>
    obtain ⟨t, hrun, hmode, hleft, hcmd, frames, hlength, hout⟩ := ih h.sampleStep
    rw [State.sampleStep_cmdQ] at hcmd
    rw [State.sampleStep_outQ, List.append_assoc, ← List.flatMap_cons] at hout
    exact ⟨t, (run_succ_of_step h.step_eq n).trans hrun, hmode, hleft, hcmd, _ :: frames,
      congrArg Nat.succ hlength, hout⟩

end run

/-- Settles O25: the block's samples are samples to run. -/
theorem blockSamplesRunToIdle : Obligations.BlockSamplesRunToIdle := by
  intro s hschedule hmode hleft hroom
  have hne : s.smpLeft.toNat ≠ 0 := fun h => hleft (BitVec.eq_of_toNat_eq h)
  exact State.SamplesToRun.run ⟨hschedule, rfl, hmode.trans (if_neg hne).symm, hroom⟩

end Sys2Proof.Machine
end

section
/-! PROOFS. The five errors (60_exceptions.md R270-R276): the refused commands and reads that raise one,
that none stops the machine, and that an error bit stays until a STATUS write clears it. -/

namespace Sys2Proof.Machine

/-! ## Refused commands (60_exceptions.md R274, R275) -/

/-- A zero or negative operand is not above zero in the order of the patterns. -/
theorem orderKey_nonpos {x : Word} (h : isZero x = true ∨ signBit x = true) : orderKey x ≤ 0 := by
  unfold orderKey
  split
  · omega
  next hsign =>
    have hzero : magnitude x = 0 := by simpa [isZero, hsign] using h
    omega

theorem rateAccepted_eq_false {x : Word}
    (h : isNaN x = true ∨ isInf x = true ∨ isZero x = true ∨ signBit x = true) :
    rateAccepted x = false := by
  cases hnan : isNaN x with
  | true => simp [rateAccepted, hnan]
  | false =>
    obtain hn | hinf | hle := h
    · simp [hnan] at hn
    · simp [rateAccepted, hinf]
    · have hzero : isNaN posZero = false ∧ orderKey posZero = 0 := by decide
      simp [rateAccepted, fle, hnan, hzero, orderKey_nonpos hle]

theorem exec_rate_of_bad (ign : BitVec 28) {x : Word} {s : State} (hmode : s.seqMode = .idle)
    (hx : rateAccepted x = false) : exec (.rate ign x) s = .next (s.raise .badRate x) :=
  congrArg Host.Outcome.next
    ((State.inContext_idle s _ _ hmode).trans (if_neg (Bool.eq_false_iff.1 hx)))

/-- Settles O17: the operand is not accepted, and RATE then only raises. -/
theorem badRateRefused : Obligations.BadRateRefused := by
  intro ign x s hmode hx
  rw [exec_rate_of_bad ign hmode (rateAccepted_eq_false hx), State.raise_eq_errorRaised]
  rfl

theorem exec_block_of_no_rate (evCount : BitVec 12) (nSamp : BitVec 16) {s : State}
    (hmode : s.seqMode = .idle) (hrate : s.rateValid = false) :
    exec (.block evCount nSamp) s = .next (s.blockRefused evCount nSamp) :=
  congrArg Host.Outcome.next
    ((State.inContext_idle s _ _ hmode).trans (if_neg (Bool.eq_false_iff.1 hrate)))

/-- Settles O15: the refused block raises ERR_NORATE with its header. -/
theorem blockWithoutRateRefused : Obligations.BlockWithoutRateRefused := by
  intro evCount nSamp s hmode hrate
  rw [exec_block_of_no_rate evCount nSamp hmode hrate, State.blockRefused,
    State.raise_eq_errorRaised]
  rfl

/-! ## Reads of OUT_FIFO (60_exceptions.md R276) -/

theorem State.afterRead_outFifo_of_cons {s : State} {w : Word} {rest : List Word}
    (h : s.outQ = w :: rest) : s.afterRead .outFifo = { s with outQ := rest } := by
  simp [State.afterRead, h]

theorem State.afterRead_outFifo_of_nil {s : State} (h : s.outQ = []) :
    s.afterRead .outFifo = s.raise .underflow (busDescriptor 0x44 .word .read) := by
  simp [State.afterRead, h]

/-- Settles O50: the head is what the read returns and what it pops, and without one the read raises
ERR_UNDERFLOW with its own bus descriptor. -/
theorem outFifoReadPopsOrUnderflows : Obligations.OutFifoReadPopsOrUnderflows := by
  intro s
  have hread : s.hostAccess Config.machine 0x44 .word .read =
      some (some (s.outQ.headD 0), s.afterRead .outFifo) := s.hostAccess_read_word _ rfl
  refine ⟨fun w rest hcons => ?_, fun hnil => ?_⟩
  · rw [hread, State.afterRead_outFifo_of_cons hcons, hcons]
    rfl
  · rw [hread, State.afterRead_outFifo_of_nil hnil, State.raise_eq_errorRaised,
      busDescriptor_eq (by decide), hnil]
    rfl

/-! ## Nothing stops the machine (60_exceptions.md R270) -/

theorem exec_answers (i : Instr) (s : State) : ∃ t, exec i s = .next t :=
  ⟨_, exec_eq_runWith i s⟩

theorem headerStep_answers (s : State) : ∃ t, headerStep exec s = .next t := by
  obtain ⟨i, rest, -, h⟩ | ⟨w, -, h⟩ | ⟨-, h⟩ := headerStep_cases (ex := exec) (s := s) rfl
  · rw [h]; exact exec_answers i _
  · exact ⟨_, h⟩
  · exact ⟨_, h⟩

theorem engineTurn_answers (c : Config) (s : State) : ∃ t, engineTurn c exec s = .next t := by
  obtain ⟨-, h⟩ | ⟨-, -, h⟩ | ⟨-, -, h⟩ := engineTurn_cases c exec s
  · rw [h]; exact headerStep_answers s
  · exact ⟨_, h⟩
  · exact ⟨_, h⟩

/-- A host's turn answers, or faults on an access outside the window. -/
theorem hostTurn_answers_or_faults (c : Config) (a : Agent) (s : State) :
    (∃ t, hostTurn c a s = .next t) ∨
    (hostTurn c a s = .fault .outsideWindow ∧ ∃ acc rest, s.pending.of a = acc :: rest ∧
      inWindow c acc.addr = false) := by
  obtain ⟨-, h⟩ | ⟨acc, rest, hpending, ⟨hwindow, h⟩ | ⟨-, -, h⟩ | ⟨-, data, u, -, h⟩⟩ :=
    hostTurn_cases c a s
  · exact .inl ⟨_, h⟩
  · exact .inr ⟨h, acc, rest, hpending, hwindow⟩
  · exact .inl ⟨_, h⟩
  · exact .inl ⟨_, h⟩

/-- Settles O42: of the three turns only a host's can fault. -/
theorem noErrorHaltsMachine : Obligations.NoErrorHaltsMachine := by
  refine ⟨exec_answers, fun s => ?_⟩
  obtain ⟨-, h⟩ | ⟨a, ha, h⟩ | ⟨-, h⟩ := step_cases s
  · rw [h]; exact .inl (engineTurn_answers _ _)
  · rw [h]
    obtain hnext | ⟨hfault, acc, rest, hpending, hwindow⟩ :=
      hostTurn_answers_or_faults Config.machine a s.turnTaken
    · exact .inl hnext
    · exact .inr ⟨hfault, a, acc, rest, ha, hpending, of_decide_eq_false hwindow⟩
  · exact .inl ⟨_, h⟩

/-! ## Errors are sticky (60_exceptions.md R272) -/

/-- The error bits and the captured information (10_state.md R40). -/
structure Errors where
  bits : BitVec 5
  info : Word

/-- The error bits and the captured information, of a state. -/
def State.errors (s : State) : Errors := ⟨s.errBits, s.errInfo⟩

/-- The errors after a STATUS write of `w` (45_commands.md R252). -/
def Errors.acknowledge (a : Errors) (w : Word) : Errors :=
  ⟨errBitsCleared a.bits w, errInfoCleared (errBitsCleared a.bits w) a.info⟩

/-- From `a` to `b` no error bit is cleared, and the information stays if an error bit was set. -/
structure Errors.KeptIn (a b : Errors) : Prop where
  bits : ∀ i, a.bits.getLsbD i = true → b.bits.getLsbD i = true
  info : a.bits ≠ 0 → b.info = a.info

theorem Errors.KeptIn.refl (a : Errors) : a.KeptIn a := ⟨fun _ h => h, fun _ => rfl⟩

section kept
variable (c : Config) (s : State)

theorem State.acknowledge_errors (w : Word) :
    (s.acknowledge w).errors = s.errors.acknowledge w := rfl

theorem State.keptIn_of_eq {t : State} (hbits : t.errBits = s.errBits)
    (hinfo : t.errInfo = s.errInfo) : s.errors.KeptIn t.errors :=
  ⟨fun i h => (congrArg (·.getLsbD i) hbits).trans h, fun _ => hinfo⟩

theorem State.raise_keeps_errors (e : ErrCode) (info : Word) :
    s.errors.KeptIn (s.raise e info).errors where
  bits _ h := (BitVec.getLsbD_or ..).trans (Bool.or_eq_true_iff.2 (.inl h))
  info h := if_neg h

/-- Counting a record changes no error, so a header keeps the errors when both its effects do. -/
theorem State.inContext_keeps_errors {top event : State → State}
    (htop : s.errors.KeptIn (top s).errors) (hevent : s.errors.KeptIn (event s).errors) :
    s.errors.KeptIn (s.inContext top event).errors :=
  s.inContext_cases top event (P := fun t => s.errors.KeptIn t.errors) (fun _ => htop)
    (fun _ => hevent) (fun _ => .refl _) (fun _ => .refl _)

theorem State.blockCommand_keeps_errors (evCount : BitVec 12) (nSamp : BitVec 16) :
    s.errors.KeptIn (s.blockCommand c evCount nSamp).errors := by
  unfold State.blockCommand
  split
  · rw [State.blockAccepted_eq]; exact s.keptIn_of_eq rfl rfl
  · exact s.raise_keeps_errors _ _

theorem State.rateCommand_keeps_errors (x : Word) : s.errors.KeptIn (s.rateCommand c x).errors := by
  unfold State.rateCommand
  split
  · rw [State.rateAccept_eq]; exact s.keptIn_of_eq rfl rfl
  · exact s.raise_keeps_errors _ _

theorem State.noteOnEvent_keeps_errors (note : BitVec 8) (x : Word) :
    s.errors.KeptIn (s.noteOnEvent c note x).errors := by
  rw [State.noteOnEvent_eq]; exact s.keptIn_of_eq rfl rfl

theorem State.mapVoices_keeps_errors (f : Voice → Voice) :
    s.errors.KeptIn (s.mapVoices f).errors :=
  s.keptIn_of_eq (s.mapVoices_errBits f) (s.mapVoices_errInfo f)

theorem State.noteOffEvent_keeps_errors (note : BitVec 8) :
    s.errors.KeptIn (s.noteOffEvent note).errors := by
  unfold State.noteOffEvent
  split
  · exact s.keptIn_of_eq (s.setVoice_errBits _ _) (s.setVoice_errInfo _ _)
  · exact .refl _

theorem runWith_keeps_errors (i : Instr) : s.errors.KeptIn (runWith c i s).errors := by
  have hraise := s.raise_keeps_errors
  cases i with
  | nop _ => exact State.inContext_keeps_errors s (.refl _) (.refl _)
  | block evCount nSamp =>
    exact State.inContext_keeps_errors s (s.blockCommand_keeps_errors c evCount nSamp) (hraise _ _)
  | rate _ x =>
    exact State.inContext_keeps_errors s (s.rateCommand_keeps_errors c x) (hraise _ _)
  | noteOn _ note x =>
    exact State.inContext_keeps_errors s (hraise _ _) (s.noteOnEvent_keeps_errors c note x)
  | noteOff _ note =>
    exact State.inContext_keeps_errors s (hraise _ _) (s.noteOffEvent_keeps_errors note)
  | allOff _ => exact State.inContext_keeps_errors s (hraise _ _) (s.mapVoices_keeps_errors _)

theorem State.badHeader_keeps_errors (w : Word) : s.errors.KeptIn (s.badHeader w).errors :=
  State.inContext_keeps_errors s (s.raise_keeps_errors _ _) (s.raise_keeps_errors _ _)

theorem State.afterRead_keeps_errors (r : Reg) : s.errors.KeptIn (s.afterRead r).errors := by
  by_cases hr : r = .outFifo
  · subst hr
    cases hq : s.outQ with
    | nil => rw [State.afterRead_outFifo_of_nil hq]; exact s.raise_keeps_errors _ _
    | cons w rest => rw [State.afterRead_outFifo_of_cons hq]; exact .refl _
  · rw [s.afterRead_of_ne_outFifo hr]
    exact .refl _

end kept

theorem regAt_ne_status {off : Nat} (h : off ≠ 0x04) : regAt off ≠ .status := by
  unfold regAt
  split <;> simp_all

section steps
variable {c : Config} {s t : State}

theorem headerStep_keeps_errors (ht : headerStep exec s = .next t) : s.errors.KeptIn t.errors := by
  obtain rfl | ⟨n, -, ⟨i, rfl⟩ | ⟨w, rfl⟩⟩ := headerStep_next_cases ht
  · exact .refl _
  · exact runWith_keeps_errors Config.machine (s.withCmdQ (s.cmdQ.drop n)) i
  · exact (s.withCmdQ (s.cmdQ.drop n)).badHeader_keeps_errors w

theorem step_engine_keeps_errors (hs : s.engineNext) (ht : step s = .next t) :
    s.errors.KeptIn t.errors := by
  obtain hheader | ⟨-, rfl⟩ | rfl := step_engine_cases hs ht
  · exact headerStep_keeps_errors (s := s.turnTaken) hheader
  · rw [State.sampleStep_eq]; exact s.keptIn_of_eq rfl rfl
  · exact .refl _

/-- Of the registers only STATUS acknowledges errors when it is written. -/
theorem State.writeReg_keeps_errors {r : Reg} {w : Word} (hr : r ≠ .status)
    (h : s.writeReg c r w = some t) : s.errors.KeptIn t.errors := by
  cases r with
  | status => exact absurd rfl hr
  | cmdFifo =>
    obtain ⟨-, ht⟩ := Option.ite_none_right_eq_some.1 h
    cases ht
    exact .refl _
  | _ => cases h; exact .refl _

/-- An access keeps the errors unless it is a legal write of STATUS, which acknowledges them. -/
theorem State.hostAccess_keeps_or_acknowledges_errors {off : Nat} {size : AccessSize}
    {op : AccessOp} {data : Option Word} (h : s.hostAccess c off size op = some (data, t)) :
    s.errors.KeptIn t.errors ∨
      ∃ w, off = 0x04 ∧ size = .word ∧ op = .write w ∧ t = s.acknowledge w := by
  by_cases hlegal : size = .word ∧ off % 4 = 0
  · obtain ⟨rfl, haligned⟩ := hlegal
    cases op with
    | read =>
      cases (s.hostAccess_read_word c haligned).symm.trans h
      exact .inl (s.afterRead_keeps_errors _)
    | write w =>
      rw [s.hostAccess_write_word c haligned w] at h
      obtain ⟨u, hwrite, hpair⟩ := Option.map_eq_some_iff.1 h
      cases hpair
      by_cases hoff : off = 0x04
      · subst hoff
        exact .inr ⟨w, rfl, rfl, rfl, (Option.some.inj hwrite).symm⟩
      · exact .inl (State.writeReg_keeps_errors (regAt_ne_status hoff) hwrite)
  · obtain ⟨hread, hwrite⟩ := s.hostAccess_of_not_legal c hlegal
    cases op with
    | read => cases hread.symm.trans h; exact .inl (s.raise_keeps_errors _ _)
    | write w => cases (hwrite w).symm.trans h; exact .inl (s.raise_keeps_errors _ _)

theorem eq_base_add_of_inWindow {addr off : Nat} (h : inWindow c addr = true)
    (hoff : addr - c.base = off) : addr = c.base + off := by
  have hbase := (of_decide_eq_true h).1
  omega

/-- A host's turn keeps the errors unless it serves a STATUS write, which acknowledges them. -/
theorem hostTurn_keeps_or_acknowledges_errors {a : Agent} (ht : hostTurn c a s = .next t) :
    s.errors.KeptIn t.errors ∨
      ∃ w rest, s.pending.of a = ⟨c.base + 4, .word, .write w⟩ :: rest ∧
        t.errors = s.errors.acknowledge w := by
  obtain ⟨-, he⟩ | ⟨⟨addr, size, op⟩, rest, hpending,
    ⟨-, he⟩ | ⟨-, -, he⟩ | ⟨hw, data, u, hu, he⟩⟩ := hostTurn_cases c a s
  · cases he.symm.trans ht; exact .inl (.refl _)
  · cases he.symm.trans ht
  · cases he.symm.trans ht; exact .inl (.refl _)
  · cases he.symm.trans ht
    obtain hkept | ⟨w, hoff, rfl, rfl, rfl⟩ := State.hostAccess_keeps_or_acknowledges_errors hu
    · exact .inl hkept
    · obtain rfl : addr = c.base + 4 := eq_base_add_of_inWindow hw hoff
      exact .inr ⟨w, rest, hpending, s.acknowledge_errors w⟩

/-- Apart from a reset, a step keeps the errors unless it serves a host's STATUS write. -/
theorem step_keeps_or_acknowledges_errors (hreset : s.noResetNext) (ht : step s = .next t) :
    s.errors.KeptIn t.errors ∨
      ∃ a w rest, s.schedule.head? = some (.host a) ∧
        s.pending.of a = ⟨Config.machine.base + 4, .word, .write w⟩ :: rest ∧
        t.errors = s.errors.acknowledge w := by
  obtain hs | ⟨a, ha⟩ := hreset.engine_or_host
  · exact .inl (step_engine_keeps_errors hs ht)
  · rw [step_host ha] at ht
    obtain hkept | ⟨w, rest, hacknowledged⟩ := hostTurn_keeps_or_acknowledges_errors ht
    · exact .inl hkept
    · exact .inr ⟨a, w, rest, ha, hacknowledged⟩

end steps

theorem ErrCode.code_lt (e : ErrCode) : e.code < 5 := by
  cases e <;> decide

/-- Settles O43: the step acknowledges, and a bit that an acknowledgment clears was written as 1. -/
theorem errorBitsClearedOnlyByStatusWrite : Obligations.ErrorBitsClearedOnlyByStatusWrite := by
  intro s t e hreset ht hset hclear
  obtain hkept | ⟨a, w, rest, ha, hpending, hack⟩ := step_keeps_or_acknowledges_errors hreset ht
  · cases (hkept.bits _ hset).symm.trans hclear
  · have hbits : t.errBits = errBitsCleared s.errBits w := congrArg Errors.bits hack
    exact ⟨a, w, rest, ha, hpending, by simpa [hbits, errBitsCleared, e.code_lt, hset] using hclear⟩

/-- Settles O44: an acknowledgment that leaves a bit set leaves the information. -/
theorem firstErrorInfoKept : Obligations.FirstErrorInfoKept := by
  intro s t hreset ht hs htset
  obtain hkept | ⟨a, w, rest, -, -, hack⟩ := step_keeps_or_acknowledges_errors hreset ht
  · exact hkept.info hs
  · have hbits : t.errBits = errBitsCleared s.errBits w := congrArg Errors.bits hack
    exact (congrArg Errors.info hack).trans (if_neg (hbits ▸ htset))

end Sys2Proof.Machine
end

section
/-! PROOFS. A reset (70_reset_and_hazards.md R300, R304): what its step answers, from any state. -/

namespace Sys2Proof.Machine

/-- A reset that has the turn keeps of the state only the outside world's data, the turn taken. -/
theorem State.turnTaken_afterReset (c : Config) (s : State) :
    s.turnTaken.afterReset c =
      { State.resetWith c with
        pending := s.pending, schedule := s.schedule.tail, replies := s.replies } := rfl

/-- Settles O60: the step is the reset's turn, under the machine's own parameters. -/
theorem resetDiscardsEverything : Obligations.ResetDiscardsEverything := by
  intro s hreset
  rw [step_reset hreset, State.turnTaken_afterReset, State.reset]

end Sys2Proof.Machine
end
